-- ==== Sys2Proof/Word.lean ====
section
/-! DEFINITION. The bit-vector types of the core (R9, `00_scope.md`): bytes, 16-bit operand fields and 32-bit words. -/

namespace Sys2Proof

/-- A byte, bits 7..0 (R9). -/
abbrev Byte := BitVec 8

/-- A 16-bit field: an operand field of a packet (R73), or half of a register. -/
abbrev Half := BitVec 16

/-- A word, bits 31..0 (R9): one word of a packet, or one host-visible register. -/
abbrev Word := BitVec 32

end Sys2Proof
end

