-- ==== Sys2Proof/Config.lean ====
section
/-! DEFINITION. What is fixed for one core: the parameters of R7 with the constraints of R8 and R190 built into their types,
the check that refuses any other parameter set, this instance's parameters, and the free values. -/

namespace Sys2Proof

/-- Row order of a frame write, `SCAN_ORDER` (R7, R215). -/
inductive ScanOrder where
  | normal
  | reversed
deriving DecidableEq, Repr, Inhabited

/-- A glyph of the font capability (R190): height, width in bytes, pixel width, and a bitmap of exactly `h * wb` bytes,
row-major, most significant bit leftmost. A bitmap of another length cannot be built (log 7). -/
structure Glyph where
  h : Byte
  wb : Byte
  pw : Byte
  bm : Vector Byte (h.toNat * wb.toNat)
deriving DecidableEq, Repr, Inhabited

/-- One listed glyph of a font table. -/
structure FontEntry where
  ch : Byte
  font : Byte
  glyph : Glyph
deriving DecidableEq, Repr, Inhabited

/-- The font capability as plain data (log 8): the listed glyphs, and the glyph of every pair not listed. -/
structure Font where
  entries : List FontEntry
  other : Glyph
deriving DecidableEq, Repr, Inhabited

/-- `Glyph(ch, font)`, a total pure function (R7, R190). -/
def Font.glyph (f : Font) (ch font : Byte) : Glyph :=
  match f.entries.find? (fun e => e.ch == ch && e.font == font) with
  | some e => e.glyph
  | none => f.other

/-- A legal panel size (R8): `W = 8 * rowBytes` is a positive multiple of 8 and at most 32767, and `1 <= H <= 255`. -/
structure PanelSize where
  rowBytes : Nat
  height : Nat
  rowBytes_pos : 1 ≤ rowBytes
  width_le : 8 * rowBytes ≤ 32767
  height_pos : 1 ≤ height
  height_le : height ≤ 255
deriving DecidableEq, Repr

/-- A legal parameter set of the core (R7, R8). `T_DESELECT` and `TICK_PERIOD` are not modelled (D43, log 22). -/
structure Params where
  size : PanelSize
  writeLineCode : Byte
  clearScreenCode : Byte
  changeVcomCode : Byte
  vcomFlag : Byte
  scanOrder : ScanOrder
  dataBitReverse : Bool
  leftMargin : Half
  charMargin : Half
  lineMargin : Half
  cursorResetCol : Half
  cursorResetRow : Half
  lineEndInclusive : Bool
  font : Font
deriving DecidableEq, Repr

/-- `ROW_BYTES` (R7). -/
def Params.rowBytes (p : Params) : Nat := p.size.rowBytes

/-- `W` (R7). -/
def Params.width (p : Params) : Nat := 8 * p.size.rowBytes

/-- `H` (R7). -/
def Params.height (p : Params) : Nat := p.size.height

/-- `FB_BYTES = H * ROW_BYTES` (R7). -/
def Params.fbBytes (p : Params) : Nat := p.height * p.rowBytes

/-- A parameter set as someone might write it, with nothing checked: numbers where R8 asks for a range. -/
structure RawGlyph where
  h : Nat
  wb : Nat
  pw : Nat
  bm : List Byte
deriving DecidableEq, Repr, Inhabited

/-- One listed glyph of an unchecked font. -/
structure RawFontEntry where
  ch : Byte
  font : Byte
  glyph : RawGlyph
deriving DecidableEq, Repr, Inhabited

/-- An unchecked parameter set (R7). -/
structure RawParams where
  width : Int
  height : Int
  writeLineCode : Int
  clearScreenCode : Int
  changeVcomCode : Int
  vcomFlag : Int
  scanOrder : ScanOrder
  dataBitReverse : Bool
  leftMargin : Int
  charMargin : Int
  lineMargin : Int
  cursorResetCol : Half
  cursorResetRow : Half
  lineEndInclusive : Bool
  glyphs : List RawFontEntry
  otherGlyph : RawGlyph
deriving DecidableEq, Repr

/-- An integer in `0..2^n - 1` as an `n`-bit value; none where it does not fit (R8, R190). -/
def Config.fits (n : Nat) (v : Int) : Option (BitVec n) :=
  if 0 ≤ v ∧ v < 2 ^ n then some (BitVec.ofInt n v) else none

/-- A glyph is accepted when `h`, `wb`, `pw` are in `0..255` and its bitmap has exactly `h * wb` bytes (R190). -/
def RawGlyph.accept (g : RawGlyph) : Option Glyph :=
  if g.h < 256 ∧ g.wb < 256 ∧ g.pw < 256 then
    let h : Byte := BitVec.ofNat 8 g.h
    let wb : Byte := BitVec.ofNat 8 g.wb
    if len : g.bm.length = h.toNat * wb.toNat then
      some { h := h, wb := wb, pw := BitVec.ofNat 8 g.pw, bm := ⟨g.bm.toArray, by simpa using len⟩ }
    else none
  else none

/-- A font is accepted when every glyph of it is (R190). -/
def Config.acceptGlyphs : List RawFontEntry → Option (List FontEntry)
  | [] => some []
  | e :: es =>
    match e.glyph.accept, Config.acceptGlyphs es with
    | some g, some gs => some ({ ch := e.ch, font := e.font, glyph := g } :: gs)
    | _, _ => none

/-- `W` a positive multiple of 8 with `W <= 32767`, `1 <= H <= 255` (R8). -/
def Config.acceptSize (w h : Int) : Option PanelSize :=
  if c : (0 < w ∧ w % 8 = 0 ∧ w ≤ 32767) ∧ 1 ≤ h ∧ h ≤ 255 then
    some { rowBytes := (w / 8).toNat, height := h.toNat, rowBytes_pos := by omega, width_le := by omega,
           height_pos := by omega, height_le := by omega }
  else none

/-- "A model must refuse a parameter set that breaks a constraint" (R8, U28) and a font whose bitmap length is wrong (R190,
U21): none where a constraint is broken, the same values as a legal parameter set where none is. -/
def RawParams.accept (r : RawParams) : Option Params := do
  let size ← Config.acceptSize r.width r.height
  let writeLineCode ← Config.fits 8 r.writeLineCode
  let clearScreenCode ← Config.fits 8 r.clearScreenCode
  let changeVcomCode ← Config.fits 8 r.changeVcomCode
  let vcomFlag ← Config.fits 8 r.vcomFlag
  let leftMargin ← Config.fits 16 r.leftMargin
  let charMargin ← Config.fits 16 r.charMargin
  let lineMargin ← Config.fits 16 r.lineMargin
  let entries ← Config.acceptGlyphs r.glyphs
  let other ← r.otherGlyph.accept
  pure { size, writeLineCode, clearScreenCode, changeVcomCode, vcomFlag, scanOrder := r.scanOrder,
         dataBitReverse := r.dataBitReverse, leftMargin, charMargin, lineMargin, cursorResetCol := r.cursorResetCol,
         cursorResetRow := r.cursorResetRow, lineEndInclusive := r.lineEndInclusive, font := { entries, other } }

/-- The panel of this instance, `W = H = 96` (R7, D32). -/
def Config.panel96 : PanelSize where
  rowBytes := 12
  height := 96
  rowBytes_pos := by decide
  width_le := by decide
  height_pos := by decide
  height_le := by decide

/-- `WRITE_LINE_CODE`, OPEN (R7, D22, log 5). -/
opaque Config.writeLineCode : Byte

/-- `CLEAR_SCREEN_CODE`, OPEN (R7, D22, log 5). -/
opaque Config.clearScreenCode : Byte

/-- `CHANGE_VCOM_CODE`, OPEN (R7, D22, log 5). -/
opaque Config.changeVcomCode : Byte

/-- `VCOM_FLAG`, OPEN (R7, D23, log 5). -/
opaque Config.vcomFlag : Byte

/-- `SCAN_ORDER`, OPEN (R7, D24, log 5). -/
opaque Config.scanOrder : ScanOrder

/-- `DATA_BIT_REVERSE`, OPEN (R7, D24, log 5). -/
opaque Config.dataBitReverse : Bool

/-- `LEFT_MARGIN`, OPEN (R7, D17, log 5). -/
opaque Config.leftMargin : Half

/-- `CHAR_MARGIN`, OPEN (R7, D17, log 5). -/
opaque Config.charMargin : Half

/-- `LINE_MARGIN`, OPEN (R7, D17, log 5). -/
opaque Config.lineMargin : Half

/-- `CURSOR_RESET.col`, OPEN (R7, D20, log 5). -/
opaque Config.cursorResetCol : Half

/-- `CURSOR_RESET.row`, OPEN (R7, D20, log 5). -/
opaque Config.cursorResetRow : Half

/-- `Glyph`, the font of this instance, OPEN (R7, D21, log 5). -/
opaque Config.font : Font

/-- The parameters of this instance (R7): 96 × 96, `LINE_END_INCLUSIVE = false` (D14), the rest OPEN. -/
def Config.thisCore : Params where
  size := Config.panel96
  writeLineCode := Config.writeLineCode
  clearScreenCode := Config.clearScreenCode
  changeVcomCode := Config.changeVcomCode
  vcomFlag := Config.vcomFlag
  scanOrder := Config.scanOrder
  dataBitReverse := Config.dataBitReverse
  leftMargin := Config.leftMargin
  charMargin := Config.charMargin
  lineMargin := Config.lineMargin
  cursorResetCol := Config.cursorResetCol
  cursorResetRow := Config.cursorResetRow
  lineEndInclusive := false
  font := Config.font

/-- What a framebuffer byte that nothing has written reads as (R37 gives none): DESIGN CHOICE 0xFF, unsafe, log 3. -/
def Config.unwritten : Byte := 0xFF

/-- Free value: framebuffer byte `off` of the `k`-th draw, "any value (every byte)" (U11, U12; log 9). -/
opaque Config.freeByte (k off : Nat) : Byte

/-- Free value: the VCOM polarity of the `k`-th draw, "any value (0 or 1)" (U10; log 9). -/
opaque Config.freeVcom (k : Nat) : Bool

/-- Free value: the cursor column of the `k`-th draw (U12; log 9). -/
opaque Config.freeCol (k : Nat) : Half

/-- Free value: the cursor row of the `k`-th draw (U12; log 9). -/
opaque Config.freeRow (k : Nat) : Half

end Sys2Proof
end

