-- ==== Sys2Proof/Syntax.lean ====
section
/-! DEFINITION. The fourteen commands of the opcode map (R74, `30_encoding.md`), one constructor each, with the operand fields
R75 gives them in the source's argument order. A field a command ignores (R79) is no part of it. -/

namespace Sys2Proof

/-- The colour operand (R12): foreground (ink, black, bit 0) or background (white, bit 1). -/
inductive Colour where
  | fg
  | bg
deriving DecidableEq, Repr, Inhabited

/-- The commands. Operand fields stand as the packet holds them, 16-bit or 8-bit (R73, R75); their signed or unsigned reading
(R76) is the meaning's. -/
inductive Instr where
  | fill (v : Byte)
  | setPixel (c : Colour) (x y : Half)
  | hrun (c : Colour) (x1 x2 thickness y : Half)
  | vrun (c : Colour) (x y1 y2 : Half)
  | fillRect (c : Colour) (xMin yMin xMax yMax : Half)
  | drawRect (c : Colour) (xMin yMin xMax yMax : Half)
  | line (x1 y1 x2 y2 : Half)
  | circle (cx cy r : Half)
  | drawChar (font ch : Byte)
  | drawString (font : Byte) (text : List Byte)
  | setCursor (col row : Half)
  | write
  | clearScreen
  | toggleVcom
deriving DecidableEq, Repr

end Sys2Proof
end

