-- ==== Sys2Proof/WellFormed.lean ====
section
/-! DEFINITION. Which commands have an encoding: the text of a DRAW_STRING has a count that fits the 16-bit IMM (R71, R82).
Every other field is exactly as wide as the packet's. -/

namespace Sys2Proof

/-- The command can be written as a packet: DRAW_STRING carries its count `n` in 16 bits (R71, R75). -/
def Instr.wf : Instr → Bool
  | .drawString _ text => decide (text.length ≤ 0xFFFF)
  | .fill _ | .setPixel _ _ _ | .hrun _ _ _ _ _ | .vrun _ _ _ _ | .fillRect _ _ _ _ _ | .drawRect _ _ _ _ _ => true
  | .line _ _ _ _ | .circle _ _ _ | .drawChar _ _ | .setCursor _ _ | .write | .clearScreen | .toggleVcom => true

end Sys2Proof
end

