-- ==== Sys2Proof/Decode.lean ====
section
/-! DEFINITION. The decoder, total on every list of words (R77), and after it the encoder (R86), both from the header and
operand layout of R72, R73, R75 and R82. -/

namespace Sys2Proof

/-- The opcodes of R74. -/
inductive Opcode where
  | fill | setPixel | hrun | vrun | fillRect | drawRect | line | circle | drawChar | drawString | setCursor
  | write | clearScreen | toggleVcom
deriving DecidableEq, Repr

/-- Why a packet is illegal (R77, in the order of its checks; R78). -/
inductive DecodeError where
  | emptyPacket
  | reservedOpcode
  | reservedBits
  | wrongLength
deriving DecidableEq, Repr

/-- The value of `OP` for each opcode (R74). -/
def Opcode.code : Opcode → Byte
  | .fill => 0x01
  | .setPixel => 0x02
  | .hrun => 0x03
  | .vrun => 0x04
  | .fillRect => 0x05
  | .drawRect => 0x06
  | .line => 0x07
  | .circle => 0x08
  | .drawChar => 0x09
  | .drawString => 0x0A
  | .setCursor => 0x0B
  | .write => 0x10
  | .clearScreen => 0x11
  | .toggleVcom => 0x12

/-- Every opcode, in the order of R74's map. -/
def Opcode.all : List Opcode :=
  [.fill, .setPixel, .hrun, .vrun, .fillRect, .drawRect, .line, .circle, .drawChar, .drawString, .setCursor,
   .write, .clearScreen, .toggleVcom]

/-- The opcode an `OP` value names; none for a reserved value (R74, R78). -/
def Opcode.ofCode (b : Byte) : Option Opcode := Opcode.all.find? (fun op => op.code == b)

/-- `OP = w[0][31:24]` (R72). -/
def headerOp (h : Word) : Byte := h.extractLsb' 24 8

/-- `RSV = w[0][23:17]` (R72). -/
def headerRsv (h : Word) : BitVec 7 := h.extractLsb' 17 7

/-- `C = w[0][16]` (R72). -/
def headerC (h : Word) : Colour := if h.getLsbD 16 then .bg else .fg

/-- `IMM = w[0][15:0]` (R72). -/
def headerImm (h : Word) : Half := h.extractLsb' 0 16

/-- Bits 31:16 of a word: `P0` of `w[1]`, `P2` of `w[2]` (R73). -/
def highHalf (w : Word) : Half := w.extractLsb' 16 16

/-- Bits 15:0 of a word: `P1` of `w[1]`, `P3` of `w[2]` (R73). -/
def lowHalf (w : Word) : Half := w.extractLsb' 0 16

/-- Bits 15:8 of a 16-bit field. -/
def highByte (v : Half) : Byte := v.extractLsb' 8 8

/-- Bits 7:0 of a 16-bit field. -/
def lowByte (v : Half) : Byte := v.extractLsb' 0 8

/-- How many words a packet has (R71): 3, and for DRAW_STRING `3 + ceil(n / 4)` with `n = IMM`. -/
def packetLength (op : Opcode) (imm : Half) : Nat :=
  match op with
  | .drawString => 3 + (imm.toNat + 3) / 4
  | .fill | .setPixel | .hrun | .vrun | .fillRect | .drawRect | .line | .circle | .drawChar | .setCursor => 3
  | .write | .clearScreen | .toggleVcom => 3

/-- The four characters of a text word, the first in the most significant byte (R82). -/
def wordChars (w : Word) : List Byte :=
  [w.extractLsb' 24 8, w.extractLsb' 16 8, w.extractLsb' 8 8, w.extractLsb' 0 8]

/-- The `n` characters of the text words, in order (R82). -/
def textChars (n : Nat) (ws : List Word) : List Byte := (ws.flatMap wordChars).take n

/-- The command of a packet that passed the checks, from its header, its two operand words and its text words (R75, R82). -/
def commandOf (op : Opcode) (h w1 w2 : Word) (text : List Word) : Instr :=
  match op with
  | .fill => .fill (lowByte (headerImm h))
  | .setPixel => .setPixel (headerC h) (highHalf w1) (lowHalf w1)
  | .hrun => .hrun (headerC h) (highHalf w1) (lowHalf w1) (highHalf w2) (lowHalf w2)
  | .vrun => .vrun (headerC h) (highHalf w1) (lowHalf w1) (highHalf w2)
  | .fillRect => .fillRect (headerC h) (highHalf w1) (lowHalf w1) (highHalf w2) (lowHalf w2)
  | .drawRect => .drawRect (headerC h) (highHalf w1) (lowHalf w1) (highHalf w2) (lowHalf w2)
  | .line => .line (highHalf w1) (lowHalf w1) (highHalf w2) (lowHalf w2)
  | .circle => .circle (highHalf w1) (lowHalf w1) (highHalf w2)
  | .drawChar => .drawChar (highByte (headerImm h)) (lowByte (headerImm h))
  | .drawString => .drawString (lowByte (highHalf w1)) (textChars (headerImm h).toNat text)
  | .setCursor => .setCursor (highHalf w1) (lowHalf w1)
  | .write => .write
  | .clearScreen => .clearScreen
  | .toggleVcom => .toggleVcom

/-- Decoding (R77): the checks in order, then the command. It reads nothing but the packet. -/
def decode (w : List Word) : Except DecodeError Instr :=
  match w with
  | [] => .error .emptyPacket
  | h :: rest =>
    match Opcode.ofCode (headerOp h) with
    | none => .error .reservedOpcode
    | some op =>
      if headerRsv h ≠ 0 then .error .reservedBits
      else if rest.length + 1 ≠ packetLength op (headerImm h) then .error .wrongLength
      else
        match rest with
        | w1 :: w2 :: text => .ok (commandOf op h w1 w2 text)
        | _ => .error .wrongLength

/-- `FAULT_INFO` of an illegal packet, `{Lsat[15:0], OP8[15:0]}` (R77). -/
def illegalInfo (w : List Word) : Word :=
  let lsat : Half := BitVec.ofNat 16 (min w.length 0xFFFF)
  let op8 : Half := match w with
    | [] => 0
    | h :: _ => (headerOp h).setWidth 16
  lsat ++ op8

/-- The colour bit of the header (R12, R72). -/
def Colour.bit : Colour → Bool
  | .fg => false
  | .bg => true

/-- The header word `(OP << 24) | (c << 16) | imm`, `RSV = 0` (R72, R86). -/
def headerWord (op : Opcode) (c : Colour) (imm : Half) : Word :=
  op.code ++ (0 : BitVec 7) ++ BitVec.ofBool c.bit ++ imm

/-- A packet of three words (R86): the header, `(p0 << 16) | p1`, `(p2 << 16) | p3`. -/
def encodeWords (op : Opcode) (c : Colour) (imm p0 p1 p2 p3 : Half) : List Word :=
  [headerWord op c imm, p0 ++ p1, p2 ++ p3]

/-- A text word from its four characters (R82). -/
def charsWord (a b c d : Byte) : Word := a ++ b ++ c ++ d

/-- The text words of a string, unused slots 0 (R82, R86). -/
def textWords : List Byte → List Word
  | [] => []
  | [a] => [charsWord a 0 0 0]
  | [a, b] => [charsWord a b 0 0]
  | [a, b, c] => [charsWord a b c 0]
  | a :: b :: c :: d :: rest => charsWord a b c d :: textWords rest

/-- The packet of a command (R86): every ignored field 0 (R83). -/
def encode : Instr → List Word
  | .fill v => encodeWords .fill .fg (v.setWidth 16) 0 0 0 0
  | .setPixel c x y => encodeWords .setPixel c 0 x y 0 0
  | .hrun c x1 x2 thickness y => encodeWords .hrun c 0 x1 x2 thickness y
  | .vrun c x y1 y2 => encodeWords .vrun c 0 x y1 y2 0
  | .fillRect c xMin yMin xMax yMax => encodeWords .fillRect c 0 xMin yMin xMax yMax
  | .drawRect c xMin yMin xMax yMax => encodeWords .drawRect c 0 xMin yMin xMax yMax
  | .line x1 y1 x2 y2 => encodeWords .line .fg 0 x1 y1 x2 y2
  | .circle cx cy r => encodeWords .circle .fg 0 cx cy r 0
  | .drawChar font ch => encodeWords .drawChar .fg (font ++ ch) 0 0 0 0
  | .drawString font text =>
    encodeWords .drawString .fg (BitVec.ofNat 16 text.length) (font.setWidth 16) 0 0 0 ++ textWords text
  | .setCursor col row => encodeWords .setCursor .fg 0 col row 0 0
  | .write => encodeWords .write .fg 0 0 0 0 0
  | .clearScreen => encodeWords .clearScreen .fg 0 0 0 0 0
  | .toggleVcom => encodeWords .toggleVcom .fg 0 0 0 0 0

/-- The packet a table word stands for: its bits numbered from bit 0 of `w[0]` on, every bit above `nbits` 0, and as many
words as its header asks for (R71; log 20). -/
def tablePacket (nbits w : Nat) : List Word :=
  let v := w % 2 ^ nbits
  let h : Word := BitVec.ofNat 32 v
  let len := match Opcode.ofCode (headerOp h) with
    | some op => packetLength op (headerImm h)
    | none => 3
  (List.range len).map (fun i => BitVec.ofNat 32 (v >>> (32 * i)))

/-- The command the decoder reads from a table word; none where it refuses. -/
def decodeTableWord (nbits w : Nat) : Option Instr :=
  match decode (tablePacket nbits w) with
  | .ok i => some i
  | .error _ => none

end Sys2Proof
end

