-- ==== Sys2Proof/Machine/State.lean ====
section
/-! DEFINITION. The state of the core (R20, `10_state.md`) as plain data, with the agents around it (R4), the reasons a step
stops, and the state after reset (R37). -/

namespace Sys2Proof.Machine

/-- The framebuffer's memory: (offset, byte) pairs in one canonical form, `Memory.wf`. -/
abbrev Memory := List Host.Cell

/-- The canonical form for `n` bytes: offsets strictly rising and below `n`, and no entry equal to what an unlisted offset
reads as (`Config.unwritten`). -/
abbrev Memory.wf (n : Nat) (m : Memory) : Prop :=
  m.Pairwise (fun c d => c.1 < d.1) ∧ ∀ c ∈ m, c.1 < n ∧ c.2 ≠ Config.unwritten

/-- One event the transport issues to the bus (R30). -/
inductive BusEvent where
  | csAssert
  | byte (b : Byte)
  | waitIdle
  | delay
  | csDeassert
deriving DecidableEq, Repr, Inhabited

/-- The commands that start a transaction (R32). -/
inductive TransportOp where
  | write
  | clearScreen
  | toggleVcom
deriving DecidableEq, Repr

/-- The in-flight transaction (R32): the command that started it, and the events not yet emitted. -/
structure Xact where
  op : TransportOp
  events : List BusEvent
deriving DecidableEq, Repr

/-- The faults the core raises (R250). Raising one is a step of the machine (fault entry, R255), not a stop of the model. -/
inductive FaultKind where
  | illegalCommand
  | pixelOutOfBounds
  | invalidRect
  | invalidRadius
  | transportOverlap
  | commandOverrun
  | fbAddressRange
deriving DecidableEq, Repr

/-- One action of one agent (R4, R284): the host's packets, reads and writes; the core's next transaction step (R225); a tick
(R226); what the bus reports from now on (R225 d, e); a reset (R280). -/
inductive Action where
  | submit (w : List Word)
  | readReg (i : Byte)
  | readFB (off : Int)
  | writeFB (off : Int) (v : Byte)
  | core
  | tick
  | bus (accepts idle : Bool)
  | reset
deriving DecidableEq, Repr

/-- What an answered host read gives back (R25, R57). -/
inductive Reply where
  | register (v : Word)
  | byte (v : Byte)
deriving DecidableEq, Repr

/-- The state. The first group is R20's record, field for field; the second is the parameter set, which no step changes (R7,
log 6); the third is the model's own view of the agents around the core (logs 1, 9, 12, 13). -/
structure State where
  fb : Memory
  vcom : Bool
  skip : Bool
  col : Half
  row : Half
  busy : Bool
  fault : Bool
  faultCode : Byte
  faultInfo : Word
  cs : Bool
  xact : Option Xact
  trace : List BusEvent
  params : Params
  schedule : List Action
  busAccepts : Bool
  busIdle : Bool
  reply : Option Reply
  draws : Nat
deriving DecidableEq, Repr

/-- Why the model itself stops. -/
inductive Fault where
  /-- Raised by the core's transaction step where a transaction is in flight with no event left, a state no rule of the spec
  leads to (R225 drops the transaction with its last event). Safe: the model stops. -/
  | emptyTransaction
deriving DecidableEq, Repr

/-- Why the model refuses an instruction. -/
inductive Refusal where
  /-- Raised by `exec` for an instruction that has no meaning yet, with its mnemonic. Safe: the model stops. No arm of `exec`
  raises it now. -/
  | notModelled (mnemonic : String)
deriving DecidableEq, Repr

/-- The machine right after reset (R37, R281), for this instance's parameters. The draw of FB is the one in which every byte
is `Config.unwritten` (log 3), the draw of VCOM is 0 (log 4); the agents' fields are the model's own (logs 1, 9, 12, 13). -/
def State.reset : State where
  fb := []
  vcom := false
  skip := false
  col := Config.thisCore.cursorResetCol
  row := Config.thisCore.cursorResetRow
  busy := false
  fault := false
  faultCode := 0
  faultInfo := 0
  cs := false
  xact := none
  trace := []
  params := Config.thisCore
  schedule := []
  busAccepts := true
  busIdle := true
  reply := none
  draws := 0

end Sys2Proof.Machine
end

