-- ==== Sys2Proof/Machine/Flags.lean ====
section
/-! DEFINITION. The core has no arithmetic flags (R24); its status bits are the fields of STATUS. Here are the five
host-visible registers, each computed from the state that holds it (R25 to R29, R33, R34). -/

namespace Sys2Proof.Machine

/-- The code of a fault (R250). -/
def FaultKind.code : FaultKind → Byte
  | .illegalCommand => 1
  | .pixelOutOfBounds => 2
  | .invalidRect => 3
  | .invalidRadius => 4
  | .transportOverlap => 5
  | .commandOverrun => 6
  | .fbAddressRange => 7

/-- STATUS, register 0: `FAULT_CODE` in 15:8, `CS` in bit 2, `FAULT` in bit 1, `BUSY` in bit 0, the rest 0 (R25, R29). -/
def statusWord (s : State) : Word :=
  (0 : BitVec 16) ++ s.faultCode ++ (0 : BitVec 5) ++ BitVec.ofBool s.cs ++ BitVec.ofBool s.fault ++ BitVec.ofBool s.busy

/-- TSTATE, register 2: `SKIP` in bit 1, `VCOM` in bit 0, the rest 0 (R25 to R27). -/
def tstateWord (s : State) : Word := (0 : BitVec 30) ++ BitVec.ofBool s.skip ++ BitVec.ofBool s.vcom

/-- CURSOR, register 3: `ROW` in 31:16, `COL` in 15:0 (R25, R28). -/
def cursorWord (s : State) : Word := s.row ++ s.col

/-- CONFIG, register 4: the constants `H` in 31:16, `W` in 15:0 (R25, R33). -/
def configWord (s : State) : Word := BitVec.ofNat 16 s.params.height ++ BitVec.ofNat 16 s.params.width

/-- The register an index selects; a reserved index reads 0 (R25, R34). -/
def readReg (i : Byte) (s : State) : Word :=
  match i.toNat with
  | 0 => statusWord s
  | 1 => s.faultInfo
  | 2 => tstateWord s
  | 3 => cursorWord s
  | 4 => configWord s
  | _ => 0

end Sys2Proof.Machine
end

