-- ==== Sys2Proof/Machine/Operands.lean ====
section
/-! DEFINITION. How a command reads its operand fields (R75, R76) and how integers become fields of a fault information word
(R251). -/

namespace Sys2Proof.Machine

/-- `s16`, a coordinate, radius or vertical bound: `sext_16` (R10, R76). -/
def sext16 (v : Half) : Int := v.toInt

/-- `u16`, a thickness, cursor value or count: `zext_16` (R10, R76). -/
def zext16 (v : Half) : Nat := v.toNat

/-- `v[15:0]`, the low 16 bits of the two's-complement value (R54, R251). -/
def low16 (v : Int) : Half := BitVec.ofInt 16 v

/-- An integer reduced modulo 65536 for a cursor register (R194). -/
def wrap16 (v : Nat) : Half := BitVec.ofNat 16 v

/-- `{hi, lo}`: `FAULT_INFO[31:16] = hi`, `FAULT_INFO[15:0] = lo` (R251). -/
def infoWord (hi lo : Half) : Word := hi ++ lo

/-- `{y[15:0], x[15:0]}`, the information word of an out-of-bounds pixel (R54, R250). -/
def pixelInfo (x y : Int) : Word := infoWord (low16 y) (low16 x)

/-- `zext(OP)[15:0]` of an opcode (R250). -/
def opField (op : Opcode) : Half := op.code.setWidth 16

end Sys2Proof.Machine
end

