-- ==== Sys2Proof/Machine/Ops.lean ====
section
/-! DEFINITION. The shared operations: one byte of the framebuffer (R11, R50), fault entry (R255), and the pixel primitive
`Paint` with its sequences (R54). -/

namespace Sys2Proof.Machine

/-! ### One byte of memory -/

/-- `FBRead`: the byte at an offset; an unlisted offset reads as `Config.unwritten` (R11). -/
def Memory.read : Memory → Nat → Byte
  | [], _ => Config.unwritten
  | (b, v) :: m, a => if a = b then v else Memory.read m a

/-- An entry put before a memory, left out where it says no more than an unlisted offset does. -/
def Memory.put (a : Nat) (v : Byte) (m : Memory) : Memory := if v = Config.unwritten then m else (a, v) :: m

/-- `FBWrite`: the byte at an offset becomes `v`, in the canonical form (R11). -/
def Memory.write : Memory → Nat → Byte → Memory
  | [], a, v => Memory.put a v []
  | (b, u) :: m, a, v =>
    if a < b then Memory.put a v ((b, u) :: m)
    else if a = b then Memory.put a v m
    else (b, u) :: Memory.write m a v

/-- The memory of the `n` bytes `f a, f (a+1), …` at the offsets from `a` on. -/
def Memory.build (f : Nat → Byte) : Nat → Nat → Memory
  | 0, _ => []
  | n + 1, a => Memory.put a (f a) (Memory.build f n (a + 1))

/-- `n` bytes from offset `a` on, each written with `v`, in ascending order. -/
def Memory.writeRun (v : Byte) : Nat → Nat → Memory → Memory
  | 0, _, m => m
  | n + 1, a, m => Memory.writeRun v n (a + 1) (m.write a v)

/-- The `k`-th free framebuffer: every byte any value (U11, U12; log 9). -/
def Memory.draw (p : Params) (k : Nat) : Memory := Memory.build (Config.freeByte k) p.fbBytes 0

/-! ### Fault entry -/

/-- A fault a rule raises, with its information word (R250, R251). -/
structure Raise where
  kind : FaultKind
  info : Word
deriving DecidableEq, Repr

/-- Fault entry, `raise Fault(code, info)` (R255): FAULT, code and info are set, the transaction is dropped, BUSY cleared; CS
and TRACE keep their values. The core is then halted: there is no return, only reset clears FAULT (R257). -/
def State.raise (r : Raise) (s : State) : State :=
  { s with fault := true, faultCode := r.kind.code, faultInfo := r.info, xact := none, busy := false }

/-- What a fault leaves of the framebuffer: any value after PIXEL_OUT_OF_BOUNDS, and as it was after every other (R104, R256;
logs 9, 14). -/
def State.raiseDrawing (r : Raise) (s : State) : State :=
  match r.kind with
  | .pixelOutOfBounds => { s.raise r with fb := Memory.draw s.params s.draws, draws := s.draws + 1 }
  | .illegalCommand | .invalidRect | .invalidRadius | .transportOverlap | .commandOverrun | .fbAddressRange => s.raise r

/-- The same for a text command: after PIXEL_OUT_OF_BOUNDS the cursor is any value too (R104, R256). -/
def State.raiseText (r : Raise) (s : State) : State :=
  match r.kind with
  | .pixelOutOfBounds =>
    { s.raiseDrawing r with col := Config.freeCol s.draws, row := Config.freeRow s.draws }
  | .illegalCommand | .invalidRect | .invalidRadius | .transportOverlap | .commandOverrun | .fbAddressRange => s.raise r

/-- The end of a drawing command (R104): the drawn framebuffer, or fault entry. -/
def State.finishDrawing (s : State) : Except Raise Memory → State
  | .ok fb => { s with fb := fb }
  | .error r => s.raiseDrawing r

/-! ### Pixels -/

/-- A coordinate pair is in bounds (R53). -/
abbrev InBounds (p : Params) (x y : Int) : Prop := 0 ≤ x ∧ x < p.width ∧ 0 ≤ y ∧ y < p.height

/-- `off(x, y) = y * ROW_BYTES + (x >> 3)` (R50). -/
def pixelOff (p : Params) (x y : Int) : Nat := y.toNat * p.rowBytes + x.toNat / 8

/-- The single-pixel mask `0x80 >> (x & 7)` (R51). -/
def pixelMask (x : Int) : Byte := 0x80#8 >>> (x.toNat % 8)

/-- `Pix(x, y) = FB[off(x, y)][7 - (x & 7)]` (R52). -/
def pix (p : Params) (fb : Memory) (x y : Int) : Bool := (fb.read (pixelOff p x y)).getLsbD (7 - x.toNat % 8)

/-- A byte with the pixels of a mask in colour `c`: foreground clears them, background sets them (R54, R121). -/
def maskByte (c : Colour) (m old : Byte) : Byte :=
  match c with
  | .fg => old &&& ~~~m
  | .bg => old ||| m

/-- `Apply(off, m, c)`: the read-modify-write of one byte (R121). -/
def applyMask (c : Colour) (m : Byte) (off : Nat) (fb : Memory) : Memory := fb.write off (maskByte c m (fb.read off))

/-- The fault of a pixel out of bounds (R54, R250). -/
def outOfBounds (x y : Int) : Raise := { kind := .pixelOutOfBounds, info := pixelInfo x y }

/-- `Paint(x, y, c)` (R54). -/
def paint (p : Params) (c : Colour) (x y : Int) (fb : Memory) : Except Raise Memory :=
  if InBounds p x y then .ok (applyMask c (pixelMask x) (pixelOff p x y) fb)
  else .error (outOfBounds x y)

/-- `Paint` at each point in turn; the first point out of bounds raises, and nothing after it is painted (R11, R251). -/
def paintAll (p : Params) (c : Colour) : List (Int × Int) → Memory → Except Raise Memory
  | [], fb => .ok fb
  | (x, y) :: pts, fb =>
    match paint p c x y fb with
    | .ok fb' => paintAll p c pts fb'
    | .error r => .error r

end Sys2Proof.Machine
end

