-- ==== Sys2Proof/Machine/Circle.lean ====
section
/-! DEFINITION. CIRCLE (`43_circle.md`): the midpoint circle. -/

namespace Sys2Proof.Machine

/-- The eight mirror points of one iteration, in paint order (R171). -/
def mirrorPoints (cx cy x y : Int) : List (Int × Int) :=
  [(cx + x, cy + y), (cx - x, cy + y), (cx + x, cy - y), (cx - x, cy - y),
   (cx + y, cy + x), (cx - y, cy + x), (cx + y, cy - x), (cx - y, cy - x)]

/-- The loop of R171, `while x >= y`, run for at most `k` iterations. -/
def circleLoop (cx cy : Int) : Nat → Int → Int → Int → List (Int × Int)
  | 0, _, _, _ => []
  | k + 1, x, y, err =>
    if y ≤ x then
      mirrorPoints cx cy x y ++
        (if err < 0 then circleLoop cx cy k x (y + 1) (err + 2 * (y + 1) + 1)
         else circleLoop cx cy k (x - 1) (y + 1) (err + 2 * ((y + 1) - (x - 1)) + 1))
    else []

/-- The points CIRCLE paints for `r >= 0`, in order (R171): "The loop runs at most `r + 1` times". -/
def circlePoints (cx cy : Int) (r : Nat) : List (Int × Int) := circleLoop cx cy (r + 1) r 0 (1 - r)

/-- The fault of a negative radius, `{0x0000, r[15:0]}` (R170, R171, R250). -/
def invalidRadius (r : Int) : Raise := { kind := .invalidRadius, info := infoWord 0 (low16 r) }

/-- A circle outline in foreground (R171). -/
def circleOutline (p : Params) (cx cy r : Int) (fb : Memory) : Except Raise Memory :=
  if r < 0 then .error (invalidRadius r) else paintAll p .fg (circlePoints cx cy r.toNat) fb

/-- CIRCLE (R171). -/
def execCircle (cx cy r : Half) (s : State) : Host.Outcome State Fault Refusal :=
  .next (s.finishDrawing (circleOutline s.params (sext16 cx) (sext16 cy) (sext16 r) s.fb))

end Sys2Proof.Machine
end

