-- ==== Sys2Proof/Machine/Framebuffer.lean ====
section
/-! DEFINITION. FILL and SET_PIXEL (`40_framebuffer.md`). -/

namespace Sys2Proof.Machine

/-- FILL (R100): every byte of the framebuffer becomes `v`. -/
def fillAll (p : Params) (v : Byte) : Memory := Memory.build (fun _ => v) p.fbBytes 0

/-- FILL (R100). -/
def execFill (v : Byte) (s : State) : Host.Outcome State Fault Refusal :=
  .next { s with fb := fillAll s.params v }

/-- SET_PIXEL (R102). -/
def execSetPixel (c : Colour) (x y : Half) (s : State) : Host.Outcome State Fault Refusal :=
  .next (s.finishDrawing (paint s.params c (sext16 x) (sext16 y) s.fb))

end Sys2Proof.Machine
end

