-- ==== Sys2Proof/Machine/Line.lean ====
section
/-! DEFINITION. LINE (`42_line.md`): the integer error-accumulator loop. -/

namespace Sys2Proof.Machine

/-- The set-up of a line (R150, R152): `n` and `m` the major and minor delta, `(ax, ay)` the major step, `(bx, by)` the minor
step (here `mx, my`). -/
structure LineAxes where
  n : Nat
  m : Nat
  ax : Int
  ay : Int
  mx : Int
  my : Int
deriving DecidableEq, Repr

/-- Octant dispatch (R150): x-major when `|dx| >= |dy|`, y-major otherwise. -/
def lineAxes (x1 y1 x2 y2 : Int) : LineAxes :=
  let dx := x2 - x1
  let dy := y2 - y1
  if dy.natAbs ≤ dx.natAbs then
    { n := dx.natAbs, m := dy.natAbs, ax := dx.sign, ay := 0, mx := 0, my := dy.sign }
  else
    { n := dy.natAbs, m := dx.natAbs, ax := 0, ay := dy.sign, mx := dx.sign, my := 0 }

/-- The loop of R152 with `k` major steps to go, from the current point and error term: the points painted, in loop order, and
with `endInclusive` the final point. -/
def lineLoop (g : LineAxes) (endInclusive : Bool) : Nat → Int → Int → Int → List (Int × Int)
  | 0, x, y, _ => if endInclusive then [(x, y)] else []
  | k + 1, x, y, err =>
    (x, y) ::
      (let err1 := err - 2 * g.m
       if err1 < 0 then lineLoop g endInclusive k (x + g.ax + g.mx) (y + g.ay + g.my) (err1 + 2 * g.n)
       else lineLoop g endInclusive k (x + g.ax) (y + g.ay) err1)

/-- The points LINE paints, in order (R152). -/
def linePoints (endInclusive : Bool) (x1 y1 x2 y2 : Int) : List (Int × Int) :=
  let g := lineAxes x1 y1 x2 y2
  lineLoop g endInclusive g.n x1 y1 g.n

/-- LINE (R152): always foreground. -/
def execLine (x1 y1 x2 y2 : Half) (s : State) : Host.Outcome State Fault Refusal :=
  .next (s.finishDrawing (paintAll s.params .fg
    (linePoints s.params.lineEndInclusive (sext16 x1) (sext16 y1) (sext16 x2) (sext16 y2)) s.fb))

end Sys2Proof.Machine
end

