-- ==== Sys2Proof/Machine/Runs.lean ====
section
/-! DEFINITION. Horizontal and vertical runs and rectangles (`41_axis_runs.md`): edge masks, the row-span primitive, HRUN, VRUN,
FILL_RECT and DRAW_RECT. -/

namespace Sys2Proof.Machine

/-- `firstMask(lo) = 0xFF >> (lo & 7)` (R120). -/
def firstMask (lo : Int) : Byte := 0xFF#8 >>> (lo.toNat % 8)

/-- `lastMask(hi) = (0xFF << (7 - (hi & 7))) & 0xFF` (R120). -/
def lastMask (hi : Int) : Byte := 0xFF#8 <<< (7 - hi.toNat % 8)

/-- The first column out of bounds of `n` columns from `x` on, in row `y` (R121, "bounds, in paint order"). -/
def firstOutside (p : Params) (y : Int) : Nat → Int → Option Int
  | 0, _ => none
  | n + 1, x => if InBounds p x y then firstOutside p y n (x + 1) else some x

/-- The bytes of `RowSpan`, for columns in bounds (R121): one masked byte, or two edge bytes with whole bytes between. -/
def spanBytes (p : Params) (c : Colour) (y lo hi : Int) (fb : Memory) : Memory :=
  let base := y.toNat * p.rowBytes
  let bL := lo.toNat / 8
  let bH := hi.toNat / 8
  if bL = bH then applyMask c (firstMask lo &&& lastMask hi) (base + bL) fb
  else
    applyMask c (lastMask hi) (base + bH)
      (Memory.writeRun (if c.bit then 0xFF else 0x00) (bH - (bL + 1)) (base + (bL + 1))
        (applyMask c (firstMask lo) (base + bL) fb))

/-- `RowSpan(y, lo, hi, c)`, for `lo <= hi` (R121). -/
def rowSpan (p : Params) (c : Colour) (y lo hi : Int) (fb : Memory) : Except Raise Memory :=
  match firstOutside p y (hi - lo + 1).toNat lo with
  | some x => .error (outOfBounds x y)
  | none => .ok (spanBytes p c y lo hi fb)

/-- `RowSpan` in each of `n` rows from `y` on (R122, R128). -/
def rowSpans (p : Params) (c : Colour) (lo hi : Int) : Nat → Int → Memory → Except Raise Memory
  | 0, _, fb => .ok fb
  | n + 1, y, fb =>
    match rowSpan p c y lo hi fb with
    | .ok fb' => rowSpans p c lo hi n (y + 1) fb'
    | .error r => .error r

/-- A horizontal run of `t` rows (R122). -/
def horizontalRun (p : Params) (c : Colour) (x1 x2 : Int) (t : Nat) (y : Int) (fb : Memory) : Except Raise Memory :=
  rowSpans p c (min x1 x2) (max x1 x2) t y fb

/-- `n` points of column `x` from row `y` on. -/
def columnPoints (x : Int) : Nat → Int → List (Int × Int)
  | 0, _ => []
  | n + 1, y => (x, y) :: columnPoints x n (y + 1)

/-- A vertical run from `min(y1, y2)` to `max(y1, y2)` (R125). -/
def verticalRun (p : Params) (c : Colour) (x y1 y2 : Int) (fb : Memory) : Except Raise Memory :=
  paintAll p c (columnPoints x (max y1 y2 - min y1 y2 + 1).toNat (min y1 y2)) fb

/-- A rectangle operand is valid (R130). -/
abbrev ValidRect (xMin yMin xMax yMax : Int) : Prop := xMin ≤ xMax ∧ yMin ≤ yMax

/-- The fault of an inverted rectangle, `{0x0000, zext(OP)}` (R128, R131, R250). -/
def invalidRect (op : Opcode) : Raise := { kind := .invalidRect, info := infoWord 0 (opField op) }

/-- A filled rectangle (R128). -/
def filledRect (p : Params) (c : Colour) (xMin yMin xMax yMax : Int) (fb : Memory) : Except Raise Memory :=
  if ValidRect xMin yMin xMax yMax then rowSpans p c xMin xMax (yMax - yMin + 1).toNat yMin fb
  else .error (invalidRect .fillRect)

/-- An outlined rectangle: top, bottom, left and right edge in turn (R131). -/
def outlinedRect (p : Params) (c : Colour) (xMin yMin xMax yMax : Int) (fb : Memory) : Except Raise Memory :=
  if ValidRect xMin yMin xMax yMax then
    match horizontalRun p c xMin xMax 1 yMin fb with
    | .error r => .error r
    | .ok fb1 =>
      match horizontalRun p c xMin xMax 1 yMax fb1 with
      | .error r => .error r
      | .ok fb2 =>
        match verticalRun p c xMin yMin yMax fb2 with
        | .error r => .error r
        | .ok fb3 => verticalRun p c xMax yMin yMax fb3
  else .error (invalidRect .drawRect)

/-- HRUN (R122). -/
def execHrun (c : Colour) (x1 x2 thickness y : Half) (s : State) : Host.Outcome State Fault Refusal :=
  .next (s.finishDrawing (horizontalRun s.params c (sext16 x1) (sext16 x2) (zext16 thickness) (sext16 y) s.fb))

/-- VRUN (R125). -/
def execVrun (c : Colour) (x y1 y2 : Half) (s : State) : Host.Outcome State Fault Refusal :=
  .next (s.finishDrawing (verticalRun s.params c (sext16 x) (sext16 y1) (sext16 y2) s.fb))

/-- FILL_RECT (R128). -/
def execFillRect (c : Colour) (xMin yMin xMax yMax : Half) (s : State) : Host.Outcome State Fault Refusal :=
  .next (s.finishDrawing (filledRect s.params c (sext16 xMin) (sext16 yMin) (sext16 xMax) (sext16 yMax) s.fb))

/-- DRAW_RECT (R131). -/
def execDrawRect (c : Colour) (xMin yMin xMax yMax : Half) (s : State) : Host.Outcome State Fault Refusal :=
  .next (s.finishDrawing (outlinedRect s.params c (sext16 xMin) (sext16 yMin) (sext16 xMax) (sext16 yMax) s.fb))

end Sys2Proof.Machine
end

