-- ==== Sys2Proof/Machine/Text.lean ====
section
/-! DEFINITION. Text (`44_text.md`): DRAW_CHAR, DRAW_STRING and SET_CURSOR. -/

namespace Sys2Proof.Machine

/-- What a text command draws on: the framebuffer and the cursor. -/
structure Canvas where
  fb : Memory
  col : Half
  row : Half
deriving DecidableEq, Repr

/-- The canvas of a state. -/
def State.canvas (s : State) : Canvas := { fb := s.fb, col := s.col, row := s.row }

/-- Glyph pixel `(8 * bi + bit, gy)` is set: bit `7 - bit` of byte `bm[gy * wb + bi]` (R191, R192). -/
def glyphBit (g : Glyph) (gy bi bit : Nat) : Bool :=
  (g.bm.toList.getD (gy * g.wb.toNat + bi) 0 &&& 0x80#8 >>> bit) != 0

/-- The points a glyph paints with its corner at `(col, row)`: its set bits, in the order `gy`, `bi`, `bit` (R192, R251). -/
def glyphPoints (g : Glyph) (col row : Nat) : List (Int × Int) :=
  (List.range g.h.toNat).flatMap fun gy =>
    (List.range g.wb.toNat).flatMap fun bi =>
      ((List.range 8).filter fun bit => glyphBit g gy bi bit).map fun bit =>
        (((col + 8 * bi + bit : Nat) : Int), ((row + gy : Nat) : Int))

/-- The cursor after a glyph (R194): advanced by `pw`, or wrapped when `ncol + pw + CHAR_MARGIN > W`. -/
def advanceCursor (p : Params) (g : Glyph) (col row : Half) : Half × Half :=
  let ncol := zext16 col + g.pw.toNat
  if p.width < ncol + g.pw.toNat + zext16 p.charMargin then
    (p.leftMargin, wrap16 (zext16 row + g.h.toNat + zext16 p.lineMargin))
  else (wrap16 ncol, row)

/-- Blit one glyph at the cursor and advance the cursor (R192). -/
def drawGlyph (p : Params) (g : Glyph) (t : Canvas) : Except Raise Canvas :=
  match paintAll p .fg (glyphPoints g (zext16 t.col) (zext16 t.row)) t.fb with
  | .ok fb =>
    let cursor := advanceCursor p g t.col t.row
    .ok { fb := fb, col := cursor.1, row := cursor.2 }
  | .error r => .error r

/-- A sequence of characters, each with the cursor the one before left (R198). -/
def drawChars (p : Params) (font : Byte) : List Byte → Canvas → Except Raise Canvas
  | [], t => .ok t
  | ch :: chs, t =>
    match drawGlyph p (p.font.glyph ch font) t with
    | .ok t' => drawChars p font chs t'
    | .error r => .error r

/-- The end of a text command (R104): the drawn canvas, or fault entry. -/
def State.finishText (s : State) : Except Raise Canvas → State
  | .ok t => { s with fb := t.fb, col := t.col, row := t.row }
  | .error r => s.raiseText r

/-- DRAW_CHAR (R192). -/
def execDrawChar (font ch : Byte) (s : State) : Host.Outcome State Fault Refusal :=
  .next (s.finishText (drawGlyph s.params (s.params.font.glyph ch font) s.canvas))

/-- DRAW_STRING (R198). -/
def execDrawString (font : Byte) (text : List Byte) (s : State) : Host.Outcome State Fault Refusal :=
  .next (s.finishText (drawChars s.params font text s.canvas))

/-- SET_CURSOR (R203). -/
def execSetCursor (col row : Half) (s : State) : Host.Outcome State Fault Refusal :=
  .next { s with col := col, row := row }

end Sys2Proof.Machine
end

