-- ==== Sys2Proof/Machine/Transport.lean ====
section
/-! DEFINITION. The display transport (`45_transport.md`): WRITE, CLEAR_SCREEN, TOGGLE_VCOM, and the core's transaction step. -/

namespace Sys2Proof.Machine

/-- The 16 entries of the nibble table: the 4-bit reversals of 0..15 (R211, C5). -/
def nibbleTable : List Byte :=
  [0x0, 0x8, 0x4, 0xC, 0x2, 0xA, 0x6, 0xE, 0x1, 0x9, 0x5, 0xD, 0x3, 0xB, 0x7, 0xF]

/-- `table[i]` (R211). -/
def nibbleReverse (i : Byte) : Byte := nibbleTable.getD i.toNat 0

/-- `reverse8(v) = ((table[v & 0xF] << 4) | table[(v >> 4) & 0xF]) & 0xFF` (R211). -/
def reverse8 (v : Byte) : Byte := (nibbleReverse (v &&& 0xF) <<< 4) ||| nibbleReverse ((v >>> 4) &&& 0xF)

/-- `ctrl(code) = code ^ vflag`, `vflag = VCOM_FLAG` when the VCOM bit is 1 and 0 when it is 0 (R212). -/
def controlByte (p : Params) (code : Byte) (vcom : Bool) : Byte := code ^^^ (if vcom then p.vcomFlag else 0)

/-- `Txn(b)`, the frame of every transaction (R229). -/
def transaction (bytes : List Byte) : List BusEvent :=
  [.csAssert] ++ bytes.map .byte ++ [.waitIdle, .delay, .csDeassert]

/-- The framebuffer row sent as the `k`-th line (R215). -/
def scanRow (p : Params) (k : Nat) : Nat :=
  match p.scanOrder with
  | .normal => k
  | .reversed => p.height - 1 - k

/-- One data byte as sent (R216). -/
def dataByte (p : Params) (d : Byte) : Byte := if p.dataBitReverse then reverse8 d else d

/-- The `k`-th line of a WRITE: line address, row data in ascending order, trailer (R213, R215, R216). -/
def writeLine (p : Params) (fb : Memory) (k : Nat) : List Byte :=
  reverse8 (BitVec.ofNat 8 (k + 1)) ::
    ((List.range p.rowBytes).map fun j => dataByte p (fb.read (scanRow p k * p.rowBytes + j))) ++ [0x00]

/-- The bytes of a WRITE (R213). -/
def writeBytes (p : Params) (fb : Memory) (vcom : Bool) : List Byte :=
  controlByte p p.writeLineCode vcom :: (List.range p.height).flatMap (writeLine p fb) ++ [0x00]

/-- The bytes of a CLEAR_SCREEN (R218). -/
def clearBytes (p : Params) (vcom : Bool) : List Byte := [controlByte p p.clearScreenCode vcom, 0x00]

/-- The bytes of a TOGGLE_VCOM that is not skipped, for the new polarity (R222). -/
def toggleBytes (p : Params) (vcom : Bool) : List Byte := [controlByte p p.changeVcomCode vcom, 0x00]

/-- A transaction starts: `XACT <- (OP, Txn(b))` and `BUSY <- 1` in the same step (R225). -/
def State.startTransaction (op : TransportOp) (bytes : List Byte) (s : State) : State :=
  { s with xact := some { op := op, events := transaction bytes }, busy := true }

/-- WRITE (R213). -/
def execWrite (s : State) : Host.Outcome State Fault Refusal :=
  .next (s.startTransaction .write (writeBytes s.params s.fb s.vcom))

/-- CLEAR_SCREEN (R218). -/
def execClearScreen (s : State) : Host.Outcome State Fault Refusal :=
  .next (s.startTransaction .clearScreen (clearBytes s.params s.vcom))

/-- `VCOM <- 1 - VCOM` (R222). -/
def State.flipVcom (s : State) : State := { s with vcom := !s.vcom }

/-- TOGGLE_VCOM (R222): flip VCOM; send the new polarity unless SKIP = 1, which it then clears. -/
def execToggleVcom (s : State) : Host.Outcome State Fault Refusal :=
  .next (if s.skip then { s.flipVcom with skip := false }
    else s.flipVcom.startTransaction .toggleVcom (toggleBytes s.params s.flipVcom.vcom))

/-- The opcode that XACT holds (R32). -/
def TransportOp.opcode : TransportOp → Opcode
  | .write => .write
  | .clearScreen => .clearScreen
  | .toggleVcom => .toggleVcom

/-- Whether the next event may be emitted now (R225): a byte when the bus accepts one, the idle wait when the bus reports idle,
the others always. -/
def BusEvent.enabled (e : BusEvent) (s : State) : Bool :=
  match e with
  | .byte _ => s.busAccepts
  | .waitIdle => s.busIdle
  | .csAssert | .delay | .csDeassert => true

/-- `Emit(e)`: the event goes to TRACE; `CsAssert` sets CS, `CsDeassert` clears it (R11, R225). -/
def State.emit (e : BusEvent) (s : State) : State :=
  let cs := match e with
    | .csAssert => true
    | .csDeassert => false
    | .byte _ | .waitIdle | .delay => s.cs
  { s with trace := s.trace ++ [e], cs := cs }

/-- What SKIP becomes when a command's transaction completes (R214, R218, R222). -/
def TransportOp.skipAfter : TransportOp → Bool
  | .write => true
  | .clearScreen => true
  | .toggleVcom => false

/-- Emit the head of the transaction's events; with the last one, `XACT <- none`, `BUSY <- 0` and the completion action
(R225). -/
def State.advance (op : TransportOp) (e : BusEvent) (rest : List BusEvent) (s : State) : State :=
  match rest with
  | [] => { s.emit e with xact := none, busy := false, skip := op.skipAfter }
  | _ :: _ => { s.emit e with xact := some { op := op, events := rest } }

/-- The core's own step (R225): the next event of the transaction, if there is one and the bus allows it; otherwise the core
waits (R291, log 11). A halted core emits nothing (R255). -/
def coreStep (s : State) : Host.Outcome State Fault Refusal :=
  if s.fault then .next s
  else
    match s.xact with
    | none => .next s
    | some x =>
      match x.events with
      | [] => .fault .emptyTransaction
      | e :: rest => .next (if e.enabled s then s.advance x.op e rest else s)

end Sys2Proof.Machine
end

