-- ==== Sys2Proof/Machine/Dispatch.lean ====
section
/-! DEFINITION. One arm per command (R74): the effect of an accepted command. -/

namespace Sys2Proof.Machine

def exec (i : Instr) (s : State) : Host.Outcome State Fault Refusal :=
  match i with
  | .fill v => Sys2Proof.Machine.execFill v s
  | .setPixel c x y => Sys2Proof.Machine.execSetPixel c x y s
  | .hrun c x1 x2 thickness y => Sys2Proof.Machine.execHrun c x1 x2 thickness y s
  | .vrun c x y1 y2 => Sys2Proof.Machine.execVrun c x y1 y2 s
  | .fillRect c xMin yMin xMax yMax => Sys2Proof.Machine.execFillRect c xMin yMin xMax yMax s
  | .drawRect c xMin yMin xMax yMax => Sys2Proof.Machine.execDrawRect c xMin yMin xMax yMax s
  | .line x1 y1 x2 y2 => Sys2Proof.Machine.execLine x1 y1 x2 y2 s
  | .circle cx cy r => Sys2Proof.Machine.execCircle cx cy r s
  | .drawChar font ch => Sys2Proof.Machine.execDrawChar font ch s
  | .drawString font text => Sys2Proof.Machine.execDrawString font text s
  | .setCursor col row => Sys2Proof.Machine.execSetCursor col row s
  | .write => Sys2Proof.Machine.execWrite s
  | .clearScreen => Sys2Proof.Machine.execClearScreen s
  | .toggleVcom => Sys2Proof.Machine.execToggleVcom s

end Sys2Proof.Machine
end

