-- ==== Sys2Proof/Machine/Port.lean ====
section
/-! DEFINITION. What each agent's action does (R4, R284): the command port (R70), the host's registers and framebuffer window
(R25, R57), the tick (R226), reset (R280). -/

namespace Sys2Proof.Machine

/-- `zext(XACT.op)[15:0]`, the opcode of the transaction in flight (R250); 0 where none is (log 17). -/
def xactField (s : State) : Half :=
  match s.xact with
  | some x => opField x.op.opcode
  | none => 0

/-- COMMAND_OVERRUN, `{s, zext(XACT.op)}`, with `s = 0` for a packet and `s = 1` for a framebuffer write (R250, R254). -/
def overrun (source : Half) (s : State) : Raise :=
  { kind := .commandOverrun, info := infoWord source (xactField s) }

/-- TRANSPORT_OVERLAP, `{0x0000, zext(XACT.op)}` (R250, R253). -/
def overlap (s : State) : Raise := { kind := .transportOverlap, info := infoWord 0 (xactField s) }

/-- `Submit(w)` (R70): no step while halted; an overrun while busy; otherwise decoded and, if it decodes, executed. -/
def submit (w : List Word) (s : State) : Host.Outcome State Fault Refusal :=
  if s.fault then .next s
  else if s.busy then .next (s.raise (overrun 0 s))
  else
    match decode w with
    | .error _ => .next (s.raise { kind := .illegalCommand, info := illegalInfo w })
    | .ok i => exec i s

/-- The offset is one of the framebuffer's (R57, R60). -/
abbrev InWindow (p : Params) (off : Int) : Prop := 0 ≤ off ∧ off < p.fbBytes

/-- FB_ADDRESS_RANGE, `FAULT_INFO = off[31:0]` (R57, R250). -/
def addressRange (off : Int) : Raise := { kind := .fbAddressRange, info := BitVec.ofInt 32 off }

/-- `ReadFB(off)` (R57): an in-range byte is always answered; out of range there is no step while halted, and otherwise
FB_ADDRESS_RANGE. -/
def hostReadFB (off : Int) (s : State) : State :=
  if InWindow s.params off then { s with reply := some (.byte (s.fb.read off.toNat)) }
  else if s.fault then s
  else s.raise (addressRange off)

/-- `WriteFB(off, v)` (R57): no step while halted; FB_ADDRESS_RANGE out of range; an overrun while busy. -/
def hostWriteFB (off : Int) (v : Byte) (s : State) : State :=
  if s.fault then s
  else if ¬ InWindow s.params off then s.raise (addressRange off)
  else if s.busy then s.raise (overrun 1 s)
  else { s with fb := s.fb.write off.toNat v }

/-- `ReadReg(i)` (R25, R34): answered at any time, with no effect on the core. -/
def hostReadReg (i : Byte) (s : State) : State := { s with reply := some (.register (readReg i s)) }

/-- The tick (R226): no effect while halted; TRANSPORT_OVERLAP while busy; otherwise TOGGLE_VCOM. -/
def tick (s : State) : Host.Outcome State Fault Refusal :=
  if s.fault then .next s
  else if s.busy then .next (s.raise (overlap s))
  else exec .toggleVcom s

/-- Reset (R280): every field of the core at its value of R37, FB and VCOM drawn (log 9); the parameters and the agents around
the core stay (log 18). -/
def resetCore (s : State) : State :=
  { s with
    fb := Memory.draw s.params s.draws, vcom := Config.freeVcom s.draws, skip := false,
    col := s.params.cursorResetCol, row := s.params.cursorResetRow, busy := false, fault := false,
    faultCode := 0, faultInfo := 0, cs := false, xact := none, trace := [], draws := s.draws + 1 }

/-- One action of one agent (R4, R284). -/
def act (a : Action) (s : State) : Host.Outcome State Fault Refusal :=
  match a with
  | .submit w => submit w s
  | .readReg i => .next (hostReadReg i s)
  | .readFB off => .next (hostReadFB off s)
  | .writeFB off v => .next (hostWriteFB off v s)
  | .core => coreStep s
  | .tick => tick s
  | .bus accepts idle => .next { s with busAccepts := accepts, busIdle := idle }
  | .reset => .next (resetCore s)

/-- The state with the schedule's head taken. -/
def State.withSchedule (s : State) (rest : List Action) : State := { s with schedule := rest }

/-- One step (R61): the agent the schedule names next moves; where it names none, the core goes on alone. -/
def nextStep (s : State) : Host.Outcome State Fault Refusal :=
  match s.schedule with
  | [] => coreStep s
  | a :: rest => act a (s.withSchedule rest)

end Sys2Proof.Machine
end

