-- ==== Sys2Proof/Machine/Step.lean ====
section
/-! DEFINITION. The step of the machine, and how the host's probe places an instruction where the next step takes it. -/

namespace Sys2Proof.Machine

/-- One step of the machine (R61, logs 1 and 11): the next scheduled action, or the core's own transaction step. -/
def step (s : State) : Host.Outcome State Fault Refusal := nextStep s

/-- The state in which the host submits the packet of a table word next (R70, logs 2 and 20): the packet stands at the head of
the schedule, and nothing else changes. -/
def State.withFetchWord (s : State) (nbits w : Nat) : State :=
  { s with schedule := .submit (tablePacket nbits w) :: s.schedule }

end Sys2Proof.Machine
end

