-- ==== Sys2Proof/Machine/Asm.lean ====
section
/-! DEFINITION. The assembler (R83, R84, R86, `30_encoding.md`): one form per opcode with its operands in the order of R75, the
seven pseudo-instructions, the packet each form stands for, and how a form is written. -/

namespace Sys2Proof.Machine

/-- The assembler's forms (R83) and pseudo-instructions (R84). Integers are any integers; a packet takes their low bits (R86). -/
inductive Asm where
  | fill (v : Int)
  | setPixel (x y : Int) (c : Colour)
  | hrun (x1 x2 thickness y : Int) (c : Colour)
  | vrun (x y1 y2 : Int) (c : Colour)
  | fillRect (xMin yMin xMax yMax : Int) (c : Colour)
  | drawRect (xMin yMin xMax yMax : Int) (c : Colour)
  | line (x1 y1 x2 y2 : Int)
  | circle (cx cy r : Int)
  | drawChar (ch : Byte) (font : Int)
  | drawString (text : List Byte) (font : Int)
  | setCursor (col row : Int)
  | write
  | clearScreen
  | toggleVcom
  | fillWhite
  | fillBlack
  | hline (x1 x2 y : Int) (c : Colour)
  | ink (x y : Int)
  | erase (x y : Int)
  | home
  | refresh
deriving DecidableEq, Repr

/-- An operand field: the low 16 bits of an integer (R86). -/
def asmField (v : Int) : Half := BitVec.ofInt 16 v

/-- The one command a form stands for (R83, R84). `HOME` needs the left margin of the parameter set. -/
def Asm.command (p : Params) : Asm → Instr
  | .fill v => .fill (BitVec.ofInt 8 v)
  | .setPixel x y c => .setPixel c (asmField x) (asmField y)
  | .hrun x1 x2 t y c => .hrun c (asmField x1) (asmField x2) (asmField t) (asmField y)
  | .vrun x y1 y2 c => .vrun c (asmField x) (asmField y1) (asmField y2)
  | .fillRect xMin yMin xMax yMax c => .fillRect c (asmField xMin) (asmField yMin) (asmField xMax) (asmField yMax)
  | .drawRect xMin yMin xMax yMax c => .drawRect c (asmField xMin) (asmField yMin) (asmField xMax) (asmField yMax)
  | .line x1 y1 x2 y2 => .line (asmField x1) (asmField y1) (asmField x2) (asmField y2)
  | .circle cx cy r => .circle (asmField cx) (asmField cy) (asmField r)
  | .drawChar ch font => .drawChar (BitVec.ofInt 8 font) ch
  | .drawString text font => .drawString (BitVec.ofInt 8 font) text
  | .setCursor col row => .setCursor (asmField col) (asmField row)
  | .write => .write
  | .clearScreen => .clearScreen
  | .toggleVcom => .toggleVcom
  | .fillWhite => .fill 0xFF
  | .fillBlack => .fill 0x00
  | .hline x1 x2 y c => .hrun c (asmField x1) (asmField x2) 1 (asmField y)
  | .ink x y => .setPixel .fg (asmField x) (asmField y)
  | .erase x y => .setPixel .bg (asmField x) (asmField y)
  | .home => .setCursor p.leftMargin 0
  | .refresh => .write

/-- The packet of a form (R83, R86); none for a string longer than a packet can carry (log 23). -/
def Asm.assemble (p : Params) (a : Asm) : Option (List Word) :=
  if (a.command p).wf then some (encode (a.command p)) else none

/-- `fg` or `bg` (R83). -/
def asmColour : Colour → String
  | .fg => "fg"
  | .bg => "bg"

/-- The bytes of a string or character as they are written (R83). DESIGN CHOICE (log 24): R83 gives no escape and no mapping of
bytes to characters, so each byte is written as the Unicode character of its value, with no escape, quotes included. -/
def asmText (text : List Byte) : String := String.ofList (text.map fun b => Char.ofNat b.toNat)

/-- A mnemonic and its operands, separated by commas (R83). -/
def asmLine (mnemonic : String) : List String → String
  | [] => mnemonic
  | op :: ops => mnemonic ++ " " ++ ops.foldl (fun text o => text ++ ", " ++ o) op

/-- A form as it is written, integers in decimal (R83). -/
def Asm.written : Asm → String
  | .fill v => asmLine "FILL" [toString v]
  | .setPixel x y c => asmLine "SET_PIXEL" [toString x, toString y, asmColour c]
  | .hrun x1 x2 t y c => asmLine "HRUN" [toString x1, toString x2, toString t, toString y, asmColour c]
  | .vrun x y1 y2 c => asmLine "VRUN" [toString x, toString y1, toString y2, asmColour c]
  | .fillRect xMin yMin xMax yMax c =>
    asmLine "FILL_RECT" [toString xMin, toString yMin, toString xMax, toString yMax, asmColour c]
  | .drawRect xMin yMin xMax yMax c =>
    asmLine "DRAW_RECT" [toString xMin, toString yMin, toString xMax, toString yMax, asmColour c]
  | .line x1 y1 x2 y2 => asmLine "LINE" [toString x1, toString y1, toString x2, toString y2]
  | .circle cx cy r => asmLine "CIRCLE" [toString cx, toString cy, toString r]
  | .drawChar ch font => asmLine "DRAW_CHAR" ["'" ++ asmText [ch] ++ "'", toString font]
  | .drawString text font => asmLine "DRAW_STRING" ["\"" ++ asmText text ++ "\"", toString font]
  | .setCursor col row => asmLine "SET_CURSOR" [toString col, toString row]
  | .write => asmLine "WRITE" []
  | .clearScreen => asmLine "CLEAR_SCREEN" []
  | .toggleVcom => asmLine "TOGGLE_VCOM" []
  | .fillWhite => asmLine "FILL_WHITE" []
  | .fillBlack => asmLine "FILL_BLACK" []
  | .hline x1 x2 y c => asmLine "HLINE" [toString x1, toString x2, toString y, asmColour c]
  | .ink x y => asmLine "INK" [toString x, toString y]
  | .erase x y => asmLine "ERASE" [toString x, toString y]
  | .home => asmLine "HOME" []
  | .refresh => asmLine "REFRESH" []

end Sys2Proof.Machine
end

