-- ==== Sys2Proof/Safety.lean ====
section
/-! DEFINITION. The terms claims are stated in: the launch premises of R283, the end of a run (R290), the invariant of the core,
and what a drawing command paints. -/

namespace Sys2Proof.Machine

/-! ### Launch premises (R283) and the end of a run (R290) -/

/-- `clean` (R283). -/
abbrev Clean (s : State) : Prop := s.fault = false ∧ s.busy = false ∧ s.xact = none ∧ s.cs = false

/-- `resetState` (R283): the state of R281, for some draw of VCOM and FB. -/
abbrev ResetState (s : State) : Prop :=
  Clean s ∧ s.skip = false ∧ s.trace = [] ∧ s.faultCode = 0 ∧ s.faultInfo = 0 ∧
    s.col = s.params.cursorResetCol ∧ s.row = s.params.cursorResetRow ∧ s.fb.wf s.params.fbBytes

/-- The framebuffer as the list of its `FB_BYTES` bytes. -/
def fbList (s : State) : List Byte := (List.range s.params.fbBytes).map s.fb.read

/-- `fbDefined(F)` (R283). -/
abbrev FbDefined (bytes : List Byte) (s : State) : Prop := fbList s = bytes

/-- `cursorAt(c, r)` (R283). -/
abbrev CursorAt (c r : Half) (s : State) : Prop := s.col = c ∧ s.row = r

/-- `traceEmpty` (R283). -/
abbrev TraceEmpty (s : State) : Prop := s.trace = []

/-- The action is the host's (R4, R284): a packet, or a read or write through a port of the host. -/
def Action.isHost : Action → Bool
  | .submit _ | .readReg _ | .readFB _ | .writeFB _ _ => true
  | .core | .tick | .bus _ _ | .reset => false

/-- The run ends well here (R290, D41): no fault, no transaction, and the host has no further action to take. What the tick
source, the bus or reset may still do does not matter (log 1). -/
abbrev EndsWell (s : State) : Prop := s.fault = false ∧ s.busy = false ∧ ∀ a ∈ s.schedule, a.isHost = false

/-- The run has faulted (R290). -/
abbrev Faulted (s : State) : Prop := s.fault = true

/-- The run hangs (R290, R291): a transaction waits for the bus, and no agent has a further action. -/
abbrev Hangs (s : State) : Prop :=
  s.fault = false ∧ s.schedule = [] ∧ ∃ x e rest, s.xact = some x ∧ x.events = e :: rest ∧ e.enabled s = false

/-- The register file of R25, indices 0 to 255. -/
def registerFile (s : State) : List Word := (List.range 256).map fun i => readReg (BitVec.ofNat 8 i) s

/-- The observation of a run (R290): the framebuffer, the register file and TRACE. -/
def observation (s : State) : List Byte × List Word × List BusEvent := (fbList s, registerFile s, s.trace)

/-- `n` steps, one after another, stopping at the first that does not answer a next state. -/
def runFor : Nat → State → Host.Outcome State Fault Refusal
  | 0, s => .next s
  | n + 1, s =>
    match step s with
    | .next t => runFor n t
    | .fault r => .fault r
    | .refused r => .refused r

/-! ### The invariant -/

/-- The bytes a transport command may put in a transaction (R228): those of a WRITE of some framebuffer, of a CLEAR_SCREEN or of
a TOGGLE_VCOM, with either polarity. -/
inductive WireBytes (p : Params) : TransportOp → List Byte → Prop where
  | write (fb : Memory) (vcom : Bool) : WireBytes p .write (writeBytes p fb vcom)
  | clearScreen (vcom : Bool) : WireBytes p .clearScreen (clearBytes p vcom)
  | toggleVcom (vcom : Bool) : WireBytes p .toggleVcom (toggleBytes p vcom)

/-- Whole transactions one after another (R229). -/
inductive WholeTransactions (p : Params) : List BusEvent → Prop where
  | none : WholeTransactions p []
  | more (trace : List BusEvent) (op : TransportOp) (bytes : List Byte) :
      WholeTransactions p trace → WireBytes p op bytes → WholeTransactions p (trace ++ transaction bytes)

/-- The bus output: whole transactions, then the part `done` of the one that is open, whose events still to come are `rest`.
CS is asserted exactly when some of it has been emitted (R31), an in-flight XACT holds exactly `rest` (R32), and without a fault
nothing is left open once XACT is none. -/
def TraceOk (s : State) : Prop :=
  ∃ whole done rest op bytes, s.trace = whole ++ done ∧ WholeTransactions s.params whole ∧ WireBytes s.params op bytes ∧
    done ++ rest = transaction bytes ∧ rest ≠ [] ∧ s.cs = !done.isEmpty ∧
    (∀ x, s.xact = some x → x = { op := op, events := rest }) ∧ (s.fault = false → s.xact = none → done = [])

/-- The invariant every step keeps. -/
structure CoreInv (s : State) : Prop where
  /-- The framebuffer is in its canonical form. -/
  fbWf : s.fb.wf s.params.fbBytes
  /-- BUSY is 1 exactly while a transaction is in flight (R29). -/
  busy : s.busy = s.xact.isSome
  /-- A halted core has no transaction (R255). -/
  halted : s.fault = true → s.xact = none
  /-- FAULT_CODE and FAULT_INFO are 0 while FAULT = 0 (R29). -/
  noFault : s.fault = false → s.faultCode = 0 ∧ s.faultInfo = 0
  /-- FAULT_CODE is one of the seven codes while FAULT = 1 (R250). -/
  faultCode : s.fault = true → ∃ k : FaultKind, s.faultCode = k.code
  /-- The bus output keeps the wire format (R228, R229). -/
  trace : TraceOk s

/-! ### What is painted -/

/-- `fb'` is `fb` with exactly the pixels of `A` painted in colour `c`: every other in-bounds pixel, and every byte that holds
no pixel of `A`, reads as before. -/
def Painted (p : Params) (c : Colour) (A : Int → Int → Prop) (fb fb' : Memory) : Prop :=
  fb'.wf p.fbBytes ∧
    (∀ x y, InBounds p x y → (A x y → pix p fb' x y = c.bit) ∧ (¬ A x y → pix p fb' x y = pix p fb x y)) ∧
    ∀ a, (∀ x y, A x y → pixelOff p x y ≠ a) → fb'.read a = fb.read a

/-- Every pixel of `A` is in bounds. -/
def AllInBounds (p : Params) (A : Int → Int → Prop) : Prop := ∀ x y, A x y → InBounds p x y

/-- `t` is `s` after fault entry with this code and information word (R255), and nothing else changed. -/
def FaultEntered (code : Byte) (info : Word) (s t : State) : Prop :=
  t = { s with fault := true, faultCode := code, faultInfo := info, xact := none, busy := false }

/-- `t` is `s` after PIXEL_OUT_OF_BOUNDS at `(x, y)`: fault entry with code 2 and `{y[15:0], x[15:0]}`, the framebuffer (and the
model's own count of draws) any value (R104, R255, R256). -/
def PixelFault (x y : Int) (s t : State) : Prop :=
  ∃ fb draws, t = { s with
    fault := true, faultCode := 2, faultInfo := BitVec.ofInt 16 y ++ BitVec.ofInt 16 x, xact := none, busy := false,
    fb := fb, draws := draws }

/-- The same after a text command, where the cursor is any value too (R104, R256). -/
def TextPixelFault (x y : Int) (s t : State) : Prop :=
  ∃ fb draws col row, t = { s with
    fault := true, faultCode := 2, faultInfo := BitVec.ofInt 16 y ++ BitVec.ofInt 16 x, xact := none, busy := false,
    fb := fb, draws := draws, col := col, row := row }

/-- `q` is the first point of a paint order that is out of bounds (R251). -/
def FirstOutside (p : Params) (order : List (Int × Int)) (q : Int × Int) : Prop :=
  ∃ before after, order = before ++ q :: after ∧ (∀ r ∈ before, InBounds p r.1 r.2) ∧ ¬ InBounds p q.1 q.2

/-! ### Paint orders (R251): the points a command's pseudocode paints, in order -/

/-- Columns `lo, lo + 1, …` of row `y`, `n` of them. -/
def rowOrder (y lo : Int) (n : Nat) : List (Int × Int) := (List.range n).map fun (i : Nat) => (lo + (i : Int), y)

/-- `m` rows from `y` on, ascending, each with `n` columns from `lo` on, ascending (R121, R122, R128). -/
def rectOrder (lo : Int) (n : Nat) (y : Int) (m : Nat) : List (Int × Int) :=
  (List.range m).flatMap fun (j : Nat) => rowOrder (y + (j : Int)) lo n

/-- Rows `y, y + 1, …` of column `x`, `n` of them (R125). -/
def columnOrder (x y : Int) (n : Nat) : List (Int × Int) := (List.range n).map fun (j : Nat) => (x, y + (j : Int))

/-- How many integers `lo..hi` holds. -/
def spanCount (lo hi : Int) : Nat := (hi - lo + 1).toNat

/-- `s_k = ceil((2*m*k - n) / (2*n))` (R153). -/
def minorSteps (n m k : Nat) : Int := -(((n : Int) - 2 * m * k) / (2 * n))

/-- The `k`-th point of a line in closed form, `P_k` (R153). -/
def linePoint (x1 y1 x2 y2 : Int) (k : Nat) : Int × Int :=
  let dx := x2 - x1
  let dy := y2 - y1
  if dy.natAbs ≤ dx.natAbs then (x1 + k * dx.sign, y1 + minorSteps dx.natAbs dy.natAbs k * dy.sign)
  else (x1 + minorSteps dy.natAbs dx.natAbs k * dx.sign, y1 + k * dy.sign)

/-- The points of a line in closed form: `P_0, …, P_(n-1)` with `n = max(|dx|, |dy|)`, and the end point where
`LINE_END_INCLUSIVE` is set (R153, R154). -/
def lineOrder (endInclusive : Bool) (x1 y1 x2 y2 : Int) : List (Int × Int) :=
  (List.range (max (x2 - x1).natAbs (y2 - y1).natAbs)).map (linePoint x1 y1 x2 y2) ++
    if endInclusive then [(x2, y2)] else []

/-- The points of a string drawn from a cursor: each character's glyph points at the cursor the one before left (R198). -/
def textOrder (p : Params) (font : Byte) : List Byte → Half → Half → List (Int × Int)
  | [], _, _ => []
  | ch :: chs, col, row =>
    let g := p.font.glyph ch font
    let next := advanceCursor p g col row
    glyphPoints g (zext16 col) (zext16 row) ++ textOrder p font chs next.1 next.2

/-- The cursor after a string (R194, R198). -/
def textCursor (p : Params) (font : Byte) : List Byte → Half → Half → Half × Half
  | [], col, row => (col, row)
  | ch :: chs, col, row =>
    let next := advanceCursor p (p.font.glyph ch font) col row
    textCursor p font chs next.1 next.2

/-- The columns and rows of a horizontal run (R123). -/
def RunPixels (x1 x2 : Int) (thickness : Nat) (y : Int) (u v : Int) : Prop :=
  (min x1 x2 ≤ u ∧ u ≤ max x1 x2) ∧ y ≤ v ∧ v < y + thickness

/-- The pixels of a vertical run (R125). -/
def ColumnPixels (x y1 y2 : Int) (u v : Int) : Prop := u = x ∧ min y1 y2 ≤ v ∧ v ≤ max y1 y2

/-- The pixels of a rectangle, bounds inclusive (R128). -/
def RectPixels (xMin yMin xMax yMax : Int) (u v : Int) : Prop := (xMin ≤ u ∧ u ≤ xMax) ∧ yMin ≤ v ∧ v ≤ yMax

/-- The pixels of a rectangle's outline (R131). -/
def OutlinePixels (xMin yMin xMax yMax : Int) (u v : Int) : Prop :=
  RectPixels xMin yMin xMax yMax u v ∧ (u = xMin ∨ u = xMax ∨ v = yMin ∨ v = yMax)

/-- The pixels a glyph's set bits fall on with the cursor at `(col, row)` (R191, R192). -/
def GlyphPixels (g : Glyph) (col row : Nat) (u v : Int) : Prop :=
  ∃ gx gy : Nat, gy < g.h.toNat ∧ gx < 8 * g.wb.toNat ∧
    (g.bm.toList.getD (gy * g.wb.toNat + gx / 8) 0).getLsbD (7 - gx % 8) = true ∧ u = col + gx ∧ v = row + gy

/-- `x` and `err` of the circle's loop after `k` iterations, where `y = k` (R171). -/
def circleState (r : Nat) : Nat → Int × Int
  | 0 => (r, 1 - r)
  | k + 1 =>
    let x := (circleState r k).1
    let err := (circleState r k).2
    let y : Int := k + 1
    if err < 0 then (x, err + 2 * y + 1) else (x - 1, err + 2 * (y - (x - 1)) + 1)

/-- The points of a circle in paint order: the eight of each iteration that the loop runs (R171). -/
def circleOrder (cx cy : Int) (r : Nat) : List (Int × Int) :=
  (List.range (r + 1)).flatMap fun (k : Nat) =>
    if (k : Int) ≤ (circleState r k).1 then mirrorPoints cx cy (circleState r k).1 k else []

/-- The points a command paints, in paint order (R251); none for a command that paints no pixel one by one, and none where
operand validation raises first (R258). -/
def paintOrder (s : State) : Instr → List (Int × Int)
  | .setPixel _ x y => [(sext16 x, sext16 y)]
  | .hrun _ x1 x2 t y =>
    rectOrder (min (sext16 x1) (sext16 x2)) (spanCount (min (sext16 x1) (sext16 x2)) (max (sext16 x1) (sext16 x2)))
      (sext16 y) (zext16 t)
  | .vrun _ x y1 y2 =>
    columnOrder (sext16 x) (min (sext16 y1) (sext16 y2))
      (spanCount (min (sext16 y1) (sext16 y2)) (max (sext16 y1) (sext16 y2)))
  | .fillRect _ xMin yMin xMax yMax =>
    if ValidRect (sext16 xMin) (sext16 yMin) (sext16 xMax) (sext16 yMax) then
      rectOrder (sext16 xMin) (spanCount (sext16 xMin) (sext16 xMax)) (sext16 yMin) (spanCount (sext16 yMin) (sext16 yMax))
    else []
  | .drawRect _ xMin yMin xMax yMax =>
    if ValidRect (sext16 xMin) (sext16 yMin) (sext16 xMax) (sext16 yMax) then
      rowOrder (sext16 yMin) (sext16 xMin) (spanCount (sext16 xMin) (sext16 xMax)) ++
        rowOrder (sext16 yMax) (sext16 xMin) (spanCount (sext16 xMin) (sext16 xMax)) ++
        columnOrder (sext16 xMin) (sext16 yMin) (spanCount (sext16 yMin) (sext16 yMax)) ++
        columnOrder (sext16 xMax) (sext16 yMin) (spanCount (sext16 yMin) (sext16 yMax))
    else []
  | .line x1 y1 x2 y2 => lineOrder s.params.lineEndInclusive (sext16 x1) (sext16 y1) (sext16 x2) (sext16 y2)
  | .circle cx cy r => if sext16 r < 0 then [] else circleOrder (sext16 cx) (sext16 cy) (sext16 r).toNat
  | .drawChar font ch => textOrder s.params font [ch] s.col s.row
  | .drawString font text => textOrder s.params font text s.col s.row
  | .fill _ | .setCursor _ _ | .write | .clearScreen | .toggleVcom => []

/-- The command, executed in this state, answers the same state with exactly the pixels of `A` painted in colour `c`. -/
def PaintsExactly (i : Instr) (s : State) (c : Colour) (A : Int → Int → Prop) : Prop :=
  ∃ fb, exec i s = .next { s with fb := fb } ∧ Painted s.params c A s.fb fb

/-- Two commands end alike: in the same state, or both in PIXEL_OUT_OF_BOUNDS with states that differ at most in what the spec
leaves unspecified there, the framebuffer and the cursor (R256), and in the model's own count of draws (log 9). -/
def SameEnd (a b : Host.Outcome State Fault Refusal) : Prop :=
  ∃ t u, a = .next t ∧ b = .next u ∧
    (t = u ∨ t.fault = true ∧ t.faultCode = 2 ∧ t = { u with fb := t.fb, col := t.col, row := t.row, draws := t.draws })

/-! ### Packets and actions -/

/-- `encode(OP, c, imm, p0, p1, p2, p3)` as R86 writes it: `[(OP << 24) | (c << 16) | imm, (p0 << 16) | p1, (p2 << 16) | p3]`. -/
def specPacket (op : Byte) (c : Bool) (imm p0 p1 p2 p3 : Half) : List Word :=
  [(op.setWidth 32 <<< 24) ||| ((BitVec.ofBool c).setWidth 32 <<< 16) ||| imm.setWidth 32,
   (p0.setWidth 32 <<< 16) ||| p1.setWidth 32, (p2.setWidth 32 <<< 16) ||| p3.setWidth 32]

/-- The four checks of R77 on a packet, on the number each field is. -/
def LegalPacket : List Word → Prop
  | [] => False
  | h :: rest =>
    h.toNat / 2 ^ 24 ∈ [0x01, 0x02, 0x03, 0x04, 0x05, 0x06, 0x07, 0x08, 0x09, 0x0A, 0x0B, 0x10, 0x11, 0x12] ∧
      h.toNat / 2 ^ 17 % 2 ^ 7 = 0 ∧
      rest.length + 1 = if h.toNat / 2 ^ 24 = 0x0A then 3 + (h.toNat % 2 ^ 16 + 3) / 4 else 3

/-- `FAULT_INFO` of an illegal packet as a number, `{min(L, 0xFFFF), OP}`, 0 for an empty packet (R77, R250). -/
def illegalNumber : List Word → Nat
  | [] => 0
  | h :: rest => min (rest.length + 1) 0xFFFF * 2 ^ 16 + h.toNat / 2 ^ 24

/-- The opcode value XACT holds (R32). -/
def xactNumber : TransportOp → Half
  | .write => 0x0010
  | .clearScreen => 0x0011
  | .toggleVcom => 0x0012

/-- DRAW_CHAR or DRAW_STRING, the text commands that read and advance the cursor (R28). -/
def textCommand : Instr → Bool
  | .drawChar _ _ | .drawString _ _ => true
  | .fill _ | .setPixel _ _ _ | .hrun _ _ _ _ _ | .vrun _ _ _ _ | .fillRect _ _ _ _ _ | .drawRect _ _ _ _ _ => false
  | .line _ _ _ _ | .circle _ _ _ | .setCursor _ _ | .write | .clearScreen | .toggleVcom => false

/-- The commands that may change the cursor: the text commands and SET_CURSOR (R28). -/
def cursorCommand : Instr → Bool
  | .setCursor _ _ => true
  | i => textCommand i

/-- The drawing commands of R104. -/
def drawingCommand : Instr → Bool
  | .write | .clearScreen | .toggleVcom => false
  | .fill _ | .setPixel _ _ _ | .hrun _ _ _ _ _ | .vrun _ _ _ _ | .fillRect _ _ _ _ _ | .drawRect _ _ _ _ _ => true
  | .line _ _ _ _ | .circle _ _ _ | .drawChar _ _ | .drawString _ _ | .setCursor _ _ => true

/-- The action submits a packet that decodes to a command of the kind `kind`. -/
def submits (kind : Instr → Bool) : Action → Bool
  | .submit w =>
    match decode w with
    | .ok i => kind i
    | .error _ => false
  | .readReg _ | .readFB _ | .writeFB _ _ | .core | .tick | .bus _ _ | .reset => false

/-- `t` is `s` but for what the agents around the core hold: the schedule, the bus levels and the host's last answer. -/
def SameCore (s t : State) : Prop :=
  t = { s with schedule := t.schedule, busAccepts := t.busAccepts, busIdle := t.busIdle, reply := t.reply }

/-- The core is ready for a command, and the bus accepts every byte and reports idle at once. -/
abbrev Ready (s : State) : Prop :=
  s.fault = false ∧ s.busy = false ∧ s.xact = none ∧ s.busAccepts = true ∧ s.busIdle = true

end Sys2Proof.Machine
end

