-- ==== Sys2Proof/Certificates/Slice0/Obligations.lean ====
section
/-! DEFINITION. The statements about the machine, each with the rules of the spec it formalises. A premise
`s.fb.wf s.params.fbBytes` is the framebuffer's canonical form, which every step keeps (`StepKeepsTheCoreInvariant`). -/

open Sys2Proof Sys2Proof.Machine

/-! ### Encoding (`30_encoding.md`) -/

/-- Decoding the packet of a well-formed command gives the command back, with every operand at every value. -/
def Obligations.DecodingAnEncodedCommandGivesItBack : Prop :=
  ∀ i : Instr, i.wf = true → decode (encode i) = .ok i

/-- One written-out packet for each opcode decodes to its command: for DRAW_CHAR a packet laid out by hand from the header and
operand fields of R72 and R75, which `95_test_vectors.md` section 2 does not hold, and for every other opcode a packet of that section
(E1 to E9, E12, E13). -/
def Obligations.WrittenOutPacketsDecode : Prop :=
  decode [0x010000FF, 0, 0] = .ok (.fill 0xFF) ∧
  decode [0x02000000, 0x00050002, 0] = .ok (.setPixel .fg 5 2) ∧
  decode [0x03000000, 0x00060011, 0x00010004] = .ok (.hrun .fg 6 17 1 4) ∧
  decode [0x04010000, 0, 0x00020000] = .ok (.vrun .bg 0 0 2) ∧
  decode [0x05000000, 0x000A000A, 0x00140014] = .ok (.fillRect .fg 10 10 20 20) ∧
  decode [0x06000000, 0, 0x005F005F] = .ok (.drawRect .fg 0 0 95 95) ∧
  decode [0x07000000, 0, 0x00050002] = .ok (.line 0 0 5 2) ∧
  decode [0x08000000, 0x00300030, 0xFFFF0000] = .ok (.circle 48 48 0xFFFF) ∧
  decode [0x09000741, 0, 0] = .ok (.drawChar 7 0x41) ∧
  decode [0x0A000003, 0x00070000, 0, 0x48692100] = .ok (.drawString 7 [0x48, 0x69, 0x21]) ∧
  decode [0x0B000000, 0x0002000A, 0] = .ok (.setCursor 2 10) ∧
  decode [0x10000000, 0, 0] = .ok .write ∧
  decode [0x11000000, 0, 0] = .ok .clearScreen ∧
  decode [0x12000000, 0, 0] = .ok .toggleVcom

/-- R75, R73, R79: the packet of three words built from any fields as R86 writes it decodes to the command its opcode names, each
operand from its field, whatever the fields the opcode ignores hold. -/
def Obligations.EachOpcodeReadsItsFieldsAndIgnoresTheRest : Prop :=
  ∀ (c : Bool) (imm p0 p1 p2 p3 : Half),
    let colour : Colour := if c then .bg else .fg
    decode (specPacket 0x01 c imm p0 p1 p2 p3) = .ok (.fill (imm.setWidth 8)) ∧
    decode (specPacket 0x02 c imm p0 p1 p2 p3) = .ok (.setPixel colour p0 p1) ∧
    decode (specPacket 0x03 c imm p0 p1 p2 p3) = .ok (.hrun colour p0 p1 p2 p3) ∧
    decode (specPacket 0x04 c imm p0 p1 p2 p3) = .ok (.vrun colour p0 p1 p2) ∧
    decode (specPacket 0x05 c imm p0 p1 p2 p3) = .ok (.fillRect colour p0 p1 p2 p3) ∧
    decode (specPacket 0x06 c imm p0 p1 p2 p3) = .ok (.drawRect colour p0 p1 p2 p3) ∧
    decode (specPacket 0x07 c imm p0 p1 p2 p3) = .ok (.line p0 p1 p2 p3) ∧
    decode (specPacket 0x08 c imm p0 p1 p2 p3) = .ok (.circle p0 p1 p2) ∧
    decode (specPacket 0x09 c imm p0 p1 p2 p3) = .ok (.drawChar ((imm >>> 8).setWidth 8) (imm.setWidth 8)) ∧
    decode (specPacket 0x0B c imm p0 p1 p2 p3) = .ok (.setCursor p0 p1) ∧
    decode (specPacket 0x10 c imm p0 p1 p2 p3) = .ok .write ∧
    decode (specPacket 0x11 c imm p0 p1 p2 p3) = .ok .clearScreen ∧
    decode (specPacket 0x12 c imm p0 p1 p2 p3) = .ok .toggleVcom

/-- R82: the characters of a DRAW_STRING stand in its text words, four to a word, the first in the most significant byte; the
slots after the last character are ignored (R79), and with `n = 0` there are no text words and the string is empty. -/
def Obligations.TextWordsHoldTheCharactersInOrder : Prop :=
  ∀ (c : Bool) (n p0 p1 p2 p3 : Half) (text : List Word), text.length = (n.toNat + 3) / 4 →
    ∃ chars : List Byte,
      decode (specPacket 0x0A c n p0 p1 p2 p3 ++ text) = .ok (.drawString (p0.setWidth 8) chars) ∧
        chars.length = n.toNat ∧
        ∀ i < n.toNat, chars[i]? = some (((text.getD (i / 4) 0) >>> (24 - 8 * (i % 4))).setWidth 8)

/-- R76, R10: signed fields are the two's-complement value of their 16 bits, unsigned ones their value, none scaled or shifted. -/
def Obligations.OperandFieldsExtendToIntegers : Prop :=
  ∀ v : Half,
    sext16 v = (if v.toNat < 32768 then (v.toNat : Int) else (v.toNat : Int) - 65536) ∧
      -32768 ≤ sext16 v ∧ sext16 v ≤ 32767 ∧ zext16 v = v.toNat ∧ zext16 v ≤ 65535

/-- R77, R78: at FAULT = 0 and BUSY = 0, a packet that passes the four checks decodes to a command that is executed, and any other
list of words raises ILLEGAL_COMMAND with `{min(L, 0xFFFF), OP}` and changes nothing else. -/
def Obligations.IllegalPacketsRaiseAndLegalOnesExecute : Prop :=
  ∀ (w : List Word) (s : State), s.fault = false → s.busy = false →
    (LegalPacket w → ∃ i, decode w = .ok i ∧ i.wf = true ∧ act (.submit w) s = exec i s) ∧
    (¬ LegalPacket w → ∃ t, act (.submit w) s = .next t ∧ FaultEntered 1 (BitVec.ofNat 32 (illegalNumber w)) s t)

/-- R70: the step in which the host submits a packet that decodes, at FAULT = 0 and BUSY = 0, is `exec` of its command with the
packet taken from the schedule. The second clause, that the step of a state made by `withFetchWord` runs the command of the table
word, is about the model's own choices: where a program stands (log 2) and which packet a table word is (log 20), both DESIGN CHOICE. -/
def Obligations.StepRunsTheDecodedPacket : Prop :=
  (∀ (s : State) (w : List Word) (rest : List Action) (i : Instr),
    s.schedule = .submit w :: rest → decode w = .ok i → s.fault = false → s.busy = false →
      step s = exec i { s with schedule := rest }) ∧
  (∀ (s : State) (nbits w : Nat) (i : Instr),
    decodeTableWord nbits w = some i → s.fault = false → s.busy = false →
      step (s.withFetchWord nbits w) = exec i s)

/-- R84: each pseudo-instruction assembles to the packet of the one command it stands for; and (R83, R86) whatever a form
assembles to decodes to its command. -/
def Obligations.AssembledFormsDecodeToTheirCommands : Prop :=
  (∀ (p : Params) (x1 x2 x y : Int) (c : Colour),
    Asm.assemble p .fillWhite = Asm.assemble p (.fill 0xFF) ∧
    Asm.assemble p .fillBlack = Asm.assemble p (.fill 0x00) ∧
    Asm.assemble p (.hline x1 x2 y c) = Asm.assemble p (.hrun x1 x2 1 y c) ∧
    Asm.assemble p (.ink x y) = Asm.assemble p (.setPixel x y .fg) ∧
    Asm.assemble p (.erase x y) = Asm.assemble p (.setPixel x y .bg) ∧
    Asm.assemble p .home = Asm.assemble p (.setCursor p.leftMargin.toNat 0) ∧
    Asm.assemble p .refresh = Asm.assemble p .write) ∧
  (∀ (p : Params) (a : Asm) (w : List Word), a.assemble p = some w → decode w = .ok (a.command p))

/-! ### The parameter set (`00_scope.md`) -/

/-- R8, R190: exactly the parameter sets that meet the constraints are accepted, and an accepted one keeps the panel size. -/
def Obligations.ExactlyTheLegalParameterSetsAreAccepted : Prop :=
  ∀ r : RawParams,
    let byte := fun v : Int => 0 ≤ v ∧ v ≤ 255
    let half := fun v : Int => 0 ≤ v ∧ v ≤ 65535
    let glyph := fun g : RawGlyph => g.h ≤ 255 ∧ g.wb ≤ 255 ∧ g.pw ≤ 255 ∧ g.bm.length = g.h * g.wb
    (r.accept.isSome = true ↔
      ((0 < r.width ∧ r.width % 8 = 0 ∧ r.width ≤ 32767) ∧ 1 ≤ r.height ∧ r.height ≤ 255) ∧
      (byte r.writeLineCode ∧ byte r.clearScreenCode ∧ byte r.changeVcomCode ∧ byte r.vcomFlag) ∧
      (half r.leftMargin ∧ half r.charMargin ∧ half r.lineMargin) ∧
      glyph r.otherGlyph ∧ ∀ e ∈ r.glyphs, glyph e.glyph) ∧
    ∀ p, r.accept = some p → (p.width : Int) = r.width ∧ (p.height : Int) = r.height

/-! ### Faults, the tick and the command port (`60_exceptions.md`) -/

/-- R257, R255: a halted core is changed by no action but reset: every step leaves FAULT, its code and its information word, the
framebuffer, the cursor, the transport and the trace as they are; reset clears FAULT. That an action without a step, and the halted
core's own turn, answer a next state at all is the model's choice (logs 10 and 11, DEDUCED). -/
def Obligations.OnlyResetLeavesTheHaltedState : Prop :=
  (∀ s : State, s.fault = true → s.schedule.head? ≠ some .reset → ∃ t, step s = .next t ∧ SameCore s t) ∧
  (∀ s : State, s.schedule.head? = some .reset → ∃ t, step s = .next t ∧ t.fault = false)

/-- R254: while a transaction is in flight, a packet, whatever it holds, and an in-range framebuffer write raise COMMAND_OVERRUN;
an in-range framebuffer read and a register read are answered and are no overrun. -/
def Obligations.BusyCoreRefusesPacketsAndWrites : Prop :=
  ∀ (s : State) (x : Xact), s.fault = false → s.busy = true → s.xact = some x →
    (∀ w, ∃ t, act (.submit w) s = .next t ∧ FaultEntered 6 (0x0000#16 ++ xactNumber x.op) s t) ∧
    (∀ (off : Int) (v : Byte), 0 ≤ off → off < s.params.fbBytes →
      ∃ t, act (.writeFB off v) s = .next t ∧ FaultEntered 6 (0x0001#16 ++ xactNumber x.op) s t) ∧
    (∀ off : Int, 0 ≤ off → off < s.params.fbBytes →
      act (.readFB off) s = .next { s with reply := some (.byte (s.fb.read off.toNat)) }) ∧
    (∀ i, act (.readReg i) s = .next { s with reply := some (.register (readReg i s)) })

/-- R226, R253: a tick does nothing while halted; while busy it raises TRANSPORT_OVERLAP and does not toggle VCOM; otherwise it does
what a submitted TOGGLE_VCOM packet does. -/
def Obligations.TickTogglesOverlapsOrIsIgnored : Prop :=
  ∀ s : State,
    (s.fault = true → act .tick s = .next s) ∧
    (∀ x, s.fault = false → s.busy = true → s.xact = some x →
      ∃ t, act .tick s = .next t ∧ FaultEntered 5 (0x0000#16 ++ xactNumber x.op) s t ∧ t.vcom = s.vcom) ∧
    (s.fault = false → s.busy = false → act .tick s = act (.submit [0x12000000, 0, 0]) s)

/-- R255, R256: a step that takes a fault drops the transaction and clears BUSY, keeps CS, TRACE, VCOM, SKIP and the parameters,
and sets one of the seven codes. Only after PIXEL_OUT_OF_BOUNDS (code 2) may the framebuffer differ, and the cursor only where the
faulting command is a text command (R256's sentence, which the model follows over R104's, log 14). -/
def Obligations.AFaultChangesOnlyWhatFaultEntryChanges : Prop :=
  ∀ s t : State, step s = .next t → s.fault = false → t.fault = true →
    (t.xact = none ∧ t.busy = false ∧ t.cs = s.cs ∧ t.trace = s.trace ∧ t.vcom = s.vcom ∧ t.skip = s.skip ∧
      t.params = s.params) ∧
    (1 ≤ t.faultCode.toNat ∧ t.faultCode.toNat ≤ 7) ∧
    (t.faultCode ≠ 2 → t.fb = s.fb ∧ t.col = s.col ∧ t.row = s.row) ∧
    ((t.col = s.col ∧ t.row = s.row) ∨ ∃ a, s.schedule.head? = some a ∧ submits textCommand a = true)

/-- R251: a command that would paint an out-of-bounds pixel reports the first one in its paint order, `{y[15:0], x[15:0]}`, for all
nine painting commands; a negative radius is reported by its low 16 bits. -/
def Obligations.TheFirstOutOfBoundsPixelIsReported : Prop :=
  (∀ (i : Instr) (s : State) (q : Int × Int), s.fb.wf s.params.fbBytes →
    FirstOutside s.params (paintOrder s i) q →
      ∃ t, exec i s = .next t ∧ (if textCommand i then TextPixelFault q.1 q.2 s t else PixelFault q.1 q.2 s t)) ∧
  (∀ (cx cy r : Half) (s : State), sext16 r < 0 →
    ∃ t, exec (.circle cx cy r) s = .next t ∧ t.fault = true ∧ t.faultCode = 4 ∧ t.faultInfo = 0x0000#16 ++ r)

/-- R130, R170: an inverted rectangle raises INVALID_RECT and a negative radius INVALID_RADIUS, before anything is painted. That the
framebuffer keeps its contents is R256's sentence, which the model follows over R104's (log 14). -/
def Obligations.InvalidOperandsRaiseBeforePainting : Prop :=
  (∀ (c : Colour) (xMin yMin xMax yMax : Half) (s : State),
    (sext16 xMax < sext16 xMin ∨ sext16 yMax < sext16 yMin) →
      (∃ t, exec (.fillRect c xMin yMin xMax yMax) s = .next t ∧ FaultEntered 3 0x00000005 s t) ∧
      (∃ t, exec (.drawRect c xMin yMin xMax yMax) s = .next t ∧ FaultEntered 3 0x00000006 s t)) ∧
  (∀ (cx cy r : Half) (s : State), sext16 r < 0 →
    ∃ t, exec (.circle cx cy r) s = .next t ∧ FaultEntered 4 (0x0000#16 ++ r) s t)

/-- The example of R259: a tick and a WRITE packet offered together at BUSY = 0 give one run for each order: the toggle first, and
its transaction makes the WRITE an overrun; or the WRITE first, and the tick is an overlap. A skipped toggle leaves the WRITE to be
accepted. Of the host's actions it covers WRITE alone; that the order is the schedule's is the model's choice (log 1). -/
def Obligations.TickAndWriteAdmitBothOrders : Prop :=
  ∀ (s : State) (rest : List Action), s.fault = false → s.busy = false →
    (s.skip = false → s.schedule = .tick :: .submit [0x10000000, 0, 0] :: rest →
      ∃ t, runFor 2 s = .next t ∧ t.vcom = !s.vcom ∧ t.fault = true ∧ t.faultCode = 6 ∧
        t.faultInfo = 0x00000012) ∧
    (s.skip = true → s.schedule = .tick :: .submit [0x10000000, 0, 0] :: rest →
      ∃ t x, runFor 2 s = .next t ∧ t.vcom = !s.vcom ∧ t.fault = false ∧ t.busy = true ∧
        t.xact = some x ∧ x.op = .write) ∧
    (s.schedule = .submit [0x10000000, 0, 0] :: .tick :: rest →
      ∃ t, runFor 2 s = .next t ∧ t.vcom = s.vcom ∧ t.fault = true ∧ t.faultCode = 5 ∧
        t.faultInfo = 0x00000010)

/-! ### The host's reads and writes (`10_state.md`, `20_memory.md`) -/

/-- R57: the host's framebuffer window, in the order of its conditions. The model's choices are that an action which R57 gives no
step leaves the state as it is (the first two clauses, log 10, DEDUCED), and that the byte read stands in `reply` (log 13). -/
def Obligations.FramebufferWindowReadsAndWritesOneByte : Prop :=
  ∀ (s : State) (off : Int) (v : Byte), s.fb.wf s.params.fbBytes →
    let inRange := 0 ≤ off ∧ off < s.params.fbBytes
    (s.fault = true → act (.writeFB off v) s = .next s) ∧
    (s.fault = true → ¬ inRange → act (.readFB off) s = .next s) ∧
    (inRange → act (.readFB off) s = .next { s with reply := some (.byte (s.fb.read off.toNat)) }) ∧
    (s.fault = false → ¬ inRange →
      (∃ t, act (.readFB off) s = .next t ∧ FaultEntered 7 (BitVec.ofInt 32 off) s t) ∧
      (∃ t, act (.writeFB off v) s = .next t ∧ FaultEntered 7 (BitVec.ofInt 32 off) s t)) ∧
    (∀ x, s.fault = false → inRange → s.busy = true → s.xact = some x →
      ∃ t, act (.writeFB off v) s = .next t ∧ FaultEntered 6 (0x0001#16 ++ xactNumber x.op) s t) ∧
    (s.fault = false → inRange → s.busy = false →
      ∃ fb, act (.writeFB off v) s = .next { s with fb := fb } ∧ fb.wf s.params.fbBytes ∧
        ∀ a, fb.read a = if a = off.toNat then v else s.fb.read a)

/-- R25, R34: what each register index reads, reserved bits and reserved indices 0, and that a read changes nothing but the host's
answer, at any time. -/
def Obligations.RegistersReadAsMapped : Prop :=
  ∀ (s : State) (i : Byte),
    (∃ v : Word, act (.readReg i) s = .next { s with reply := some (.register v) } ∧ v = readReg i s) ∧
    (readReg 0 s).toNat = s.busy.toNat + 2 * s.fault.toNat + 4 * s.cs.toNat + 256 * s.faultCode.toNat ∧
    readReg 1 s = s.faultInfo ∧
    (readReg 2 s).toNat = s.vcom.toNat + 2 * s.skip.toNat ∧
    (readReg 3 s).toNat = s.col.toNat + 65536 * s.row.toNat ∧
    (readReg 4 s).toNat = s.params.width + 65536 * s.params.height ∧
    (5 ≤ i.toNat → readReg i s = 0)

/-- R33: CONFIG holds `W` and `H` and never changes; the parameters of the core never change either (R7, R21). -/
def Obligations.ConfigNeverChanges : Prop :=
  ∀ s t : State, step s = .next t →
    t.params = s.params ∧ readReg 4 t = readReg 4 s ∧
      (readReg 4 s).extractLsb' 0 16 = BitVec.ofNat 16 s.params.width ∧
      (readReg 4 s).extractLsb' 16 16 = BitVec.ofNat 16 s.params.height

/-- R50, R51, R52: pixel `(8 * k + i, y)` is bit `7 - i` of byte `y * ROW_BYTES + k`, and every bit of the framebuffer is exactly one
in-bounds pixel. -/
def Obligations.EveryFramebufferBitIsOnePixel : Prop :=
  (∀ (p : Params) (fb : Memory) (k i y : Nat), i < 8 →
    pix p fb ((8 * k + i : Nat) : Int) y = (fb.read (y * p.rowBytes + k)).getLsbD (7 - i)) ∧
  (∀ (p : Params) (a b : Nat), a < p.fbBytes → b < 8 →
    ∃! q : Int × Int, InBounds p q.1 q.2 ∧ pixelOff p q.1 q.2 = a ∧ 7 - q.1.toNat % 8 = b)

/-! ### FILL and SET_PIXEL (`40_framebuffer.md`) -/

/-- R100: FILL writes every byte of the framebuffer with the value and changes nothing else. -/
def Obligations.FillWritesEveryByte : Prop :=
  ∀ (v : Byte) (s : State),
    ∃ fb, exec (.fill v) s = .next { s with fb := fb } ∧ fb.wf s.params.fbBytes ∧
      ∀ off < s.params.fbBytes, fb.read off = v

/-- R102, R54: SET_PIXEL on an in-bounds pixel makes that one bit of that one byte the colour and changes nothing else, and doing it
again changes nothing; out of bounds it raises PIXEL_OUT_OF_BOUNDS with `{y[15:0], x[15:0]}`. -/
def Obligations.SetPixelPaintsOneBitOrFaults : Prop :=
  ∀ (c : Colour) (x y : Half) (s : State), s.fb.wf s.params.fbBytes →
    (InBounds s.params (sext16 x) (sext16 y) →
      PaintsExactly (.setPixel c x y) s c (fun u v => u = sext16 x ∧ v = sext16 y) ∧
      ∀ t, exec (.setPixel c x y) s = .next t → exec (.setPixel c x y) t = .next t) ∧
    (¬ InBounds s.params (sext16 x) (sext16 y) →
      ∃ t, exec (.setPixel c x y) s = .next t ∧ PixelFault (sext16 x) (sext16 y) s t)

/-- R103: foreground and then background leaves the pixel background and every other bit as it was; where it was background before,
the whole state is restored. -/
def Obligations.PixelBlackThenWhiteRestores : Prop :=
  ∀ (x y : Half) (s : State), s.fb.wf s.params.fbBytes → InBounds s.params (sext16 x) (sext16 y) →
    ∃ s1 s2, exec (.setPixel .fg x y) s = .next s1 ∧ exec (.setPixel .bg x y) s1 = .next s2 ∧
      pix s2.params s2.fb (sext16 x) (sext16 y) = true ∧
      (∀ u v, InBounds s.params u v → ¬ (u = sext16 x ∧ v = sext16 y) →
        pix s2.params s2.fb u v = pix s.params s.fb u v) ∧
      (pix s.params s.fb (sext16 x) (sext16 y) = true → s2 = s)

/-! ### Runs and rectangles (`41_axis_runs.md`) -/

/-- R120, R133: which columns of a byte the edge masks select, and that a masked byte gives exactly its selected lanes the colour. -/
def Obligations.EdgeMasksSelectTheirLanes : Prop :=
  (∀ lo i : Nat, i < 8 → ((firstMask (lo : Int)).getLsbD (7 - i) = true ↔ lo % 8 ≤ i)) ∧
  (∀ hi i : Nat, i < 8 → ((lastMask (hi : Int)).getLsbD (7 - i) = true ↔ i ≤ hi % 8)) ∧
  (∀ (c : Colour) (m old : Byte) (i : Nat), i < 8 →
    (maskByte c m old).getLsbD i = if m.getLsbD i then c.bit else old.getLsbD i)

/-- R123: a completed HRUN paints exactly the columns `min(x1, x2)..max(x1, x2)` of the rows `y..y + t - 1`; with thickness 0 it
paints nothing and cannot fault (R122). -/
def Obligations.HrunCoversExactlyItsRectangle : Prop :=
  ∀ (c : Colour) (x1 x2 t y : Half) (s : State), s.fb.wf s.params.fbBytes →
    (AllInBounds s.params (RunPixels (sext16 x1) (sext16 x2) t.toNat (sext16 y)) →
      PaintsExactly (.hrun c x1 x2 t y) s c (RunPixels (sext16 x1) (sext16 x2) t.toNat (sext16 y))) ∧
    (t = 0 → exec (.hrun c x1 x2 t y) s = .next s)

/-- R125: VRUN paints exactly the rows `min(y1, y2)..max(y1, y2)` of its column, and the order of the bounds does not matter. -/
def Obligations.VrunCoversExactlyItsColumn : Prop :=
  ∀ (c : Colour) (x y1 y2 : Half) (s : State), s.fb.wf s.params.fbBytes →
    (AllInBounds s.params (ColumnPixels (sext16 x) (sext16 y1) (sext16 y2)) →
      PaintsExactly (.vrun c x y1 y2) s c (ColumnPixels (sext16 x) (sext16 y1) (sext16 y2))) ∧
    SameEnd (exec (.vrun c x y1 y2) s) (exec (.vrun c x y2 y1) s)

/-- R128: FILL_RECT on a valid rectangle in bounds paints exactly its pixels, bounds inclusive. -/
def Obligations.FillRectCoversExactlyItsRectangle : Prop :=
  ∀ (c : Colour) (xMin yMin xMax yMax : Half) (s : State), s.fb.wf s.params.fbBytes →
    sext16 xMin ≤ sext16 xMax → sext16 yMin ≤ sext16 yMax →
    AllInBounds s.params (RectPixels (sext16 xMin) (sext16 yMin) (sext16 xMax) (sext16 yMax)) →
      PaintsExactly (.fillRect c xMin yMin xMax yMax) s c
        (RectPixels (sext16 xMin) (sext16 yMin) (sext16 xMax) (sext16 yMax))

/-- R128: FILL_RECT does what `HRUN xMin, xMax, yMax - yMin + 1, yMin, c` does whenever that thickness fits 16 bits, in every state;
out of bounds both raise the same fault. -/
def Obligations.FillRectIsAHorizontalRun : Prop :=
  ∀ (c : Colour) (xMin yMin xMax yMax t : Half) (s : State),
    sext16 xMin ≤ sext16 xMax → sext16 yMin ≤ sext16 yMax → (t.toNat : Int) = sext16 yMax - sext16 yMin + 1 →
      SameEnd (exec (.fillRect c xMin yMin xMax yMax) s) (exec (.hrun c xMin xMax t yMin) s)

/-- R129: FILL_RECT in foreground and then in background leaves every pixel of the rectangle background and every other bit as it
was. -/
def Obligations.RectangleBlackThenWhiteRestores : Prop :=
  ∀ (xMin yMin xMax yMax : Half) (s : State), s.fb.wf s.params.fbBytes →
    sext16 xMin ≤ sext16 xMax → sext16 yMin ≤ sext16 yMax →
    AllInBounds s.params (RectPixels (sext16 xMin) (sext16 yMin) (sext16 xMax) (sext16 yMax)) →
      ∃ s1 s2, exec (.fillRect .fg xMin yMin xMax yMax) s = .next s1 ∧
        exec (.fillRect .bg xMin yMin xMax yMax) s1 = .next s2 ∧ s2 = { s with fb := s2.fb } ∧
        ∀ u v, InBounds s.params u v →
          pix s.params s2.fb u v =
            (pix s.params s.fb u v || decide ((sext16 xMin ≤ u ∧ u ≤ sext16 xMax) ∧ sext16 yMin ≤ v ∧ v ≤ sext16 yMax))

/-- R131: DRAW_RECT on a valid rectangle in bounds paints exactly its outline; the interior is untouched. -/
def Obligations.DrawRectPaintsExactlyTheOutline : Prop :=
  ∀ (c : Colour) (xMin yMin xMax yMax : Half) (s : State), s.fb.wf s.params.fbBytes →
    sext16 xMin ≤ sext16 xMax → sext16 yMin ≤ sext16 yMax →
    AllInBounds s.params (OutlinePixels (sext16 xMin) (sext16 yMin) (sext16 xMax) (sext16 yMax)) →
      PaintsExactly (.drawRect c xMin yMin xMax yMax) s c
        (OutlinePixels (sext16 xMin) (sext16 yMin) (sext16 xMax) (sext16 yMax))

/-! ### LINE (`42_line.md`) -/

/-- R153: LINE paints exactly the points `P_k` of the closed form, and `(x2, y2)` where `LINE_END_INCLUSIVE` is set, in foreground. -/
def Obligations.LinePaintsTheClosedForm : Prop :=
  ∀ (x1 y1 x2 y2 : Half) (s : State), s.fb.wf s.params.fbBytes →
    let dx := sext16 x2 - sext16 x1
    let dy := sext16 y2 - sext16 y1
    let n := max dx.natAbs dy.natAbs
    let m := min dx.natAbs dy.natAbs
    let A := fun u v : Int =>
      (∃ k : Nat, k < n ∧
        (dy.natAbs ≤ dx.natAbs → u = sext16 x1 + k * dx.sign ∧ v = sext16 y1 + minorSteps n m k * dy.sign) ∧
        (dx.natAbs < dy.natAbs → u = sext16 x1 + minorSteps n m k * dx.sign ∧ v = sext16 y1 + k * dy.sign)) ∨
      (s.params.lineEndInclusive = true ∧ u = sext16 x2 ∧ v = sext16 y2)
    AllInBounds s.params A → PaintsExactly (.line x1 y1 x2 y2) s .fg A

/-- R154, R155: the loop paints `max(|dx|, |dy|)` distinct pixels, starts at `(x1, y1)`, never paints `(x2, y2)` unless
`LINE_END_INCLUSIVE` is set and then paints it last; a zero-length LINE does nothing without it, and with it paints its point. -/
def Obligations.LineStartsAtItsStartAndOmitsItsEnd : Prop :=
  (∀ x1 y1 x2 y2 : Int,
    (linePoints false x1 y1 x2 y2).length = max (x2 - x1).natAbs (y2 - y1).natAbs ∧
    (linePoints false x1 y1 x2 y2).Nodup ∧
    (x2, y2) ∉ linePoints false x1 y1 x2 y2 ∧
    ((x1, y1) ≠ (x2, y2) → (linePoints false x1 y1 x2 y2).head? = some (x1, y1)) ∧
    linePoints true x1 y1 x2 y2 = linePoints false x1 y1 x2 y2 ++ [(x2, y2)]) ∧
  (∀ (x y : Half) (s : State), s.params.lineEndInclusive = false → exec (.line x y x y) s = .next s) ∧
  (∀ (x y : Half) (s : State), s.params.lineEndInclusive = true → s.fb.wf s.params.fbBytes →
    InBounds s.params (sext16 x) (sext16 y) →
      PaintsExactly (.line x y x y) s .fg (fun u v => u = sext16 x ∧ v = sext16 y))

/-- R156: an axis-aligned or 45° line paints the points one major step apart, in order, with the end point where
`LINE_END_INCLUSIVE` is set. -/
def Obligations.AxisAlignedAndDiagonalLines : Prop :=
  ∀ (endInclusive : Bool) (x1 y1 x2 y2 : Int),
    let dx := x2 - x1
    let dy := y2 - y1
    let last := if endInclusive then [(x2, y2)] else []
    (dy = 0 → linePoints endInclusive x1 y1 x2 y2 =
      (List.range dx.natAbs).map (fun (k : Nat) => (x1 + (k : Int) * dx.sign, y1)) ++ last) ∧
    (dx = 0 → linePoints endInclusive x1 y1 x2 y2 =
      (List.range dy.natAbs).map (fun (k : Nat) => (x1, y1 + (k : Int) * dy.sign)) ++ last) ∧
    (dx.natAbs = dy.natAbs → linePoints endInclusive x1 y1 x2 y2 =
      (List.range dx.natAbs).map (fun (k : Nat) => (x1 + (k : Int) * dx.sign, y1 + (k : Int) * dy.sign)) ++ last)

/-! ### CIRCLE (`43_circle.md`) -/

/-- R171: CIRCLE with `r >= 0` paints exactly the eight mirror points of each iteration of its loop, in foreground. -/
def Obligations.CirclePaintsItsMirrorPoints : Prop :=
  ∀ (cx cy r : Half) (s : State), s.fb.wf s.params.fbBytes → 0 ≤ sext16 r →
    let A := fun u v : Int => ∃ k x : Int, 0 ≤ k ∧ k ≤ x ∧ x = (circleState (sext16 r).toNat k.toNat).1 ∧
      (((u = sext16 cx + x ∨ u = sext16 cx - x) ∧ (v = sext16 cy + k ∨ v = sext16 cy - k)) ∨
        ((u = sext16 cx + k ∨ u = sext16 cx - k) ∧ (v = sext16 cy + x ∨ v = sext16 cy - x)))
    AllInBounds s.params A → PaintsExactly (.circle cx cy r) s .fg A

/-- R172: a circle of radius 0 paints exactly its centre. -/
def Obligations.ZeroRadiusPaintsTheCentre : Prop :=
  ∀ (cx cy : Half) (s : State), s.fb.wf s.params.fbBytes → InBounds s.params (sext16 cx) (sext16 cy) →
    PaintsExactly (.circle cx cy 0) s .fg (fun u v => u = sext16 cx ∧ v = sext16 cy)

/-- R174: on the 96 × 96 framebuffer `CIRCLE 48, 48, r` with `r` in `0..47` completes without a fault, and every point it paints lies
within `r` of the centre, in `1..95`. -/
def Obligations.CentredCirclesFitThePanel : Prop :=
  ∀ (r : Half) (s : State), s.fb.wf s.params.fbBytes → s.params.width = 96 → s.params.height = 96 → r.toNat ≤ 47 →
    ∃ A, PaintsExactly (.circle 48 48 r) s .fg A ∧
      ∀ u v, A u v → (48 - (r.toNat : Int) ≤ u ∧ u ≤ 48 + r.toNat ∧ 48 - (r.toNat : Int) ≤ v ∧ v ≤ 48 + r.toNat) ∧
        1 ≤ u ∧ u ≤ 95 ∧ 1 ≤ v ∧ v ≤ 95

/-- R173: the point set is symmetric about the centre under both reflections and the exchange of the axes, and moves with the
centre; for `r = 1, 2, 3` it is the set the rule lists. -/
def Obligations.CirclePointSetIsSymmetric : Prop :=
  (∀ (cx cy : Int) (r : Nat) (u v : Int),
    ((cx + u, cy + v) ∈ circlePoints cx cy r ↔ (u, v) ∈ circlePoints 0 0 r) ∧
    ((u, v) ∈ circlePoints 0 0 r → (-u, v) ∈ circlePoints 0 0 r ∧ (u, -v) ∈ circlePoints 0 0 r ∧ (v, u) ∈ circlePoints 0 0 r)) ∧
  (∀ u v : Int,
    ((u, v) ∈ circlePoints 0 0 1 ↔ (u.natAbs, v.natAbs) ∈ [(1, 0), (0, 1)]) ∧
    ((u, v) ∈ circlePoints 0 0 2 ↔ (u.natAbs, v.natAbs) ∈ [(2, 0), (0, 2), (2, 1), (1, 2)]) ∧
    ((u, v) ∈ circlePoints 0 0 3 ↔ (u.natAbs, v.natAbs) ∈ [(3, 0), (0, 3), (3, 1), (1, 3), (2, 2)]))

/-- The circle drawn is the ideal one rounded: with `r >= 1`, `(u, v)` about the centre is painted exactly when, for the larger `X`
and the smaller `Y` of `|u|` and `|v|`, `X` is the integer nearest to `sqrt(r² - Y²)`, that is `X² - X < r² - Y² <= X² + X`. It
follows from the loop of R171; the spec states it nowhere. -/
def Obligations.CirclePaintsTheNearestPoints : Prop :=
  ∀ (r : Nat) (u v : Int), 1 ≤ r →
    let X : Int := max u.natAbs v.natAbs
    let Y : Int := min u.natAbs v.natAbs
    (u, v) ∈ circlePoints 0 0 r ↔ X * X - X < (r : Int) * r - Y * Y ∧ (r : Int) * r - Y * Y ≤ X * X + X

/-! ### Text (`44_text.md`) -/

/-- R191, R192, R194: DRAW_CHAR with its set pixels in bounds paints exactly them, in foreground, and then advances the cursor by
`pw`, or wraps it when `ncol + pw + CHAR_MARGIN > W`; nothing else changes. -/
def Obligations.DrawCharBlitsAndAdvances : Prop :=
  ∀ (font ch : Byte) (s : State), s.fb.wf s.params.fbBytes →
    let g := s.params.font.glyph ch font
    let ncol := s.col.toNat + g.pw.toNat
    let A := GlyphPixels g s.col.toNat s.row.toNat
    AllInBounds s.params A →
      ∃ t, exec (.drawChar font ch) s = .next t ∧ Painted s.params .fg A s.fb t.fb ∧
        (s.params.width < ncol + g.pw.toNat + s.params.charMargin.toNat →
          t = { s with
            fb := t.fb, col := s.params.leftMargin,
            row := BitVec.ofNat 16 (s.row.toNat + g.h.toNat + s.params.lineMargin.toNat) }) ∧
        (ncol + g.pw.toNat + s.params.charMargin.toNat ≤ s.params.width →
          t = { s with fb := t.fb, col := BitVec.ofNat 16 ncol })

/-- R193: a completed DRAW_CHAR only clears bits, and none under a clear glyph bit; the same glyph drawn again at the same cursor
leaves the same framebuffer. -/
def Obligations.GlyphsOverlayWithoutErasing : Prop :=
  ∀ (font ch : Byte) (s t : State), s.fb.wf s.params.fbBytes → s.fault = false →
    exec (.drawChar font ch) s = .next t → t.fault = false →
      (∀ u v, InBounds s.params u v → pix s.params t.fb u v = true → pix s.params s.fb u v = true) ∧
      (∀ u v, InBounds s.params u v → ¬ GlyphPixels (s.params.font.glyph ch font) s.col.toNat s.row.toNat u v →
        pix s.params t.fb u v = pix s.params s.fb u v) ∧
      exec (.drawChar font ch) { t with col := s.col, row := s.row } = .next t

/-- R198: DRAW_STRING is DRAW_CHAR of each character in turn, each with the cursor the one before left; the first that faults ends
the command with its fault, and the empty string changes nothing. -/
def Obligations.DrawStringDrawsItsCharactersInTurn : Prop :=
  (∀ (font : Byte) (s : State), exec (.drawString font []) s = .next s) ∧
  (∀ (font ch : Byte) (text : List Byte) (s t : State), s.fault = false → exec (.drawChar font ch) s = .next t →
    (t.fault = false → SameEnd (exec (.drawString font (ch :: text)) s) (exec (.drawString font text) t)) ∧
    (t.fault = true → SameEnd (exec (.drawString font (ch :: text)) s) (.next t)))

/-- DRAW_STRING with every set pixel of every character in bounds completes: it paints exactly those pixels and leaves the cursor
after the last character (R194, R198). -/
def Obligations.DrawStringCompletesInBounds : Prop :=
  ∀ (font : Byte) (text : List Byte) (s : State), s.fb.wf s.params.fbBytes →
    AllInBounds s.params (fun u v => (u, v) ∈ textOrder s.params font text s.col s.row) →
      ∃ fb, exec (.drawString font text) s = .next { s with
          fb := fb, col := (textCursor s.params font text s.col s.row).1,
          row := (textCursor s.params font text s.col s.row).2 } ∧
        Painted s.params .fg (fun u v => (u, v) ∈ textOrder s.params font text s.col s.row) s.fb fb

/-- R199, R28: the cursor changes only in a step that resets the core or submits DRAW_CHAR, DRAW_STRING or SET_CURSOR. -/
def Obligations.TheCursorPersistsBetweenTextCommands : Prop :=
  ∀ s t : State, step s = .next t → ¬ (t.col = s.col ∧ t.row = s.row) →
    ∃ a, s.schedule.head? = some a ∧ (a = .reset ∨ submits cursorCommand a = true)

/-- R203: SET_CURSOR sets the cursor to any value, and the CURSOR register then reads `{row, col}`; nothing else changes. -/
def Obligations.SetCursorSetsTheCursor : Prop :=
  ∀ (col row : Half) (s : State),
    ∃ t, exec (.setCursor col row) s = .next t ∧ t = { s with col := col, row := row } ∧ readReg 3 t = row ++ col

/-- R104: a drawing command ends in one step, never sets BUSY, never touches CS, XACT, TRACE, VCOM or SKIP, and the cursor only where
it is a text command or SET_CURSOR. -/
def Obligations.DrawingCommandsLeaveTheTransportAlone : Prop :=
  ∀ (i : Instr) (s : State), drawingCommand i = true → s.fault = false → s.busy = false → s.xact = none →
    ∃ t, exec i s = .next t ∧ t.busy = false ∧ t.xact = none ∧ t.cs = s.cs ∧ t.trace = s.trace ∧ t.vcom = s.vcom ∧
      t.skip = s.skip ∧ t.params = s.params ∧ (cursorCommand i = false → t.col = s.col ∧ t.row = s.row)

/-! ### The display transport (`45_transport.md`) -/

/-- R213, R215, R216, R217: WRITE starts a transaction of exactly `1 + H * (1 + ROW_BYTES + 1) + 1` bytes: the control byte, for each
line its reversed address, its row's bytes in order, reversed where the option says so, and a zero trailer, and a last zero. -/
def Obligations.WriteTransmitsTheFrame : Prop :=
  ∀ s : State, ∃ b : List Byte,
    exec .write s = .next { s with
      busy := true,
      xact := some { op := .write, events := [.csAssert] ++ b.map .byte ++ [.waitIdle, .delay, .csDeassert] } } ∧
    b.length = 1 + s.params.height * (1 + s.params.rowBytes + 1) + 1 ∧
    b[0]? = some (s.params.writeLineCode ^^^ (if s.vcom then s.params.vcomFlag else 0)) ∧
    (∀ k < s.params.height,
      let base := 1 + k * (1 + s.params.rowBytes + 1)
      let row := if s.params.scanOrder = .normal then k else s.params.height - 1 - k
      b[base]? = some (reverse8 (BitVec.ofNat 8 (k + 1))) ∧
      (∀ j < s.params.rowBytes, b[base + 1 + j]? = some
        (if s.params.dataBitReverse then reverse8 (s.fb.read (row * s.params.rowBytes + j))
          else s.fb.read (row * s.params.rowBytes + j))) ∧
      b[base + 1 + s.params.rowBytes]? = some 0) ∧
    b[b.length - 1]? = some 0

/-- R218, R219: CLEAR_SCREEN starts a transaction of its control byte and one zero; the framebuffer, VCOM and all else keep their
values. -/
def Obligations.ClearScreenLeavesTheFramebuffer : Prop :=
  ∀ s : State, exec .clearScreen s = .next { s with
    busy := true,
    xact := some { op := .clearScreen, events :=
      [.csAssert, .byte (s.params.clearScreenCode ^^^ (if s.vcom then s.params.vcomFlag else 0)), .byte 0x00,
       .waitIdle, .delay, .csDeassert] } }

/-- R222: TOGGLE_VCOM flips VCOM; with SKIP = 0 it starts a transaction whose control byte carries the new polarity, and with
SKIP = 1 it clears SKIP and sends nothing. -/
def Obligations.ToggleVcomFlipsAndTransmitsUnlessSkipped : Prop :=
  ∀ s : State,
    (s.skip = false → exec .toggleVcom s = .next { s with
      vcom := !s.vcom, busy := true,
      xact := some { op := .toggleVcom, events :=
        [.csAssert, .byte (s.params.changeVcomCode ^^^ (if s.vcom then 0 else s.params.vcomFlag)), .byte 0x00,
         .waitIdle, .delay, .csDeassert] } }) ∧
    (s.skip = true → exec .toggleVcom s = .next { s with vcom := !s.vcom, skip := false })

/-- R225: the core's own step emits the head event if the bus allows it; CsAssert sets CS and CsDeassert clears it; the last event
also ends the transaction, clears BUSY and does the completion action: SKIP is set after WRITE and CLEAR_SCREEN (R214, R218) and
cleared after TOGGLE_VCOM (R222). The model's choices are that a step which must wait leaves the state as it is (log 11, DEDUCED)
and that what the bus allows is two bits of State (log 12). -/
def Obligations.TransactionStepEmitsOneEvent : Prop :=
  ∀ (s : State) (op : TransportOp) (e : BusEvent) (rest : List BusEvent),
    s.schedule = [] → s.fault = false → s.xact = some { op := op, events := e :: rest } →
    let allowed := (∀ b, e = .byte b → s.busAccepts = true) ∧ (e = .waitIdle → s.busIdle = true)
    (allowed → step s = .next { s with
      trace := s.trace ++ [e],
      cs := if e = .csAssert then true else if e = .csDeassert then false else s.cs,
      xact := if rest = [] then none else some { op := op, events := rest },
      busy := if rest = [] then false else s.busy,
      skip := if rest = [] then decide (op ≠ .toggleVcom) else s.skip }) ∧
    (¬ allowed → step s = .next s)

/-- R225, R62: with a bus that accepts every byte and reports idle at once and no other agent acting, each transport command ends as
many steps after its acceptance as it has events, with all of them in TRACE in order, BUSY and CS 0 and its completion action
done. -/
def Obligations.TransportCommandsCompleteOnAReadyBus : Prop :=
  ∀ (i : Instr) (s t : State) (x : Xact), drawingCommand i = false → Ready s → s.schedule = [] → s.cs = false →
    exec i s = .next t → t.xact = some x →
      runFor x.events.length t = .next { t with
        trace := s.trace ++ x.events, xact := none, busy := false, cs := false, skip := decide (i ≠ .toggleVcom) }

/-- R291: a transaction that waits for a bus that never allows its next event waits for ever, with BUSY still 1. That the wait is
a run of steps which change nothing is the model's choice (log 11, DEDUCED), and so are the two bits of the bus (log 12). -/
def Obligations.AStalledBusHangsTheCore : Prop :=
  ∀ (s : State) (x : Xact) (e : BusEvent) (rest : List BusEvent) (n : Nat),
    s.schedule = [] → s.fault = false → s.busy = true → s.xact = some x → x.events = e :: rest →
    ((∃ b, e = .byte b) ∧ s.busAccepts = false ∨ e = .waitIdle ∧ s.busIdle = false) →
      runFor n s = .next s

/-- R223, where nothing else stands between the commands: after a WRITE or CLEAR_SCREEN has completed, the next tick flips VCOM and
clears SKIP but sends nothing, while two ticks one after the other both transmit, provided SKIP = 0 before the first. The runs are of
fixed schedules, on a bus that allows every event (logs 1 and 12). -/
def Obligations.ARefreshSilencesTheNextToggle : Prop :=
  let silent := fun (s : State) (n : Nat) => ∃ t : State,
    runFor (n + 2) s = .next t ∧ t.trace.length = s.trace.length + n ∧
      t.vcom = !s.vcom ∧ t.skip = false ∧ t.busy = false ∧ t.fault = false
  (∀ (s : State) (n : Nat), Ready s → s.cs = false → n = 1 + s.params.height * (1 + s.params.rowBytes + 1) + 1 + 4 →
    s.schedule = Action.submit [0x10000000, 0, 0] :: (List.replicate n Action.core ++ [Action.tick]) → silent s n) ∧
  (∀ s : State, Ready s → s.cs = false →
    s.schedule = Action.submit [0x11000000, 0, 0] :: (List.replicate 6 Action.core ++ [Action.tick]) → silent s 6) ∧
  (∀ s : State, Ready s → s.cs = false → s.skip = false →
    s.schedule =
      Action.tick :: (List.replicate 6 Action.core ++ (Action.tick :: List.replicate 6 Action.core)) →
      ∃ (t : State) (b1 b2 : Byte), runFor 14 s = .next t ∧
        t.vcom = s.vcom ∧ t.skip = false ∧ t.busy = false ∧ t.fault = false ∧
        t.trace = s.trace ++ transaction [b1, 0] ++ transaction [b2, 0])

/-- R211: bit `i` of `reverse8(v)` is bit `7 - i` of `v`, and `reverse8` is its own inverse. -/
def Obligations.ReverseEightReversesTheBits : Prop :=
  ∀ v : Byte, (∀ i < 8, (reverse8 v).getLsbD i = v.getLsbD (7 - i)) ∧ reverse8 (reverse8 v) = v

/-- R26: VCOM changes only in a step that resets the core, delivers a tick or submits TOGGLE_VCOM. -/
def Obligations.OnlyToggleVcomWritesVcom : Prop :=
  ∀ s t : State, step s = .next t → t.vcom ≠ s.vcom →
    ∃ a, s.schedule.head? = some a ∧
      (a = .reset ∨ a = .tick ∨ submits (fun i => decide (i = .toggleVcom)) a = true)

/-- R63: no framebuffer byte changes while a transaction is in flight, short of a reset. -/
def Obligations.TheFramebufferIsStableWhileBusy : Prop :=
  ∀ s t : State, step s = .next t → s.busy = true → s.schedule.head? ≠ some .reset → t.fb = s.fb

/-- R30, R31: TRACE is append-only, one event a step, and is emptied only by reset; CS changes only with a CsAssert or CsDeassert
event, or by reset. -/
def Obligations.TraceIsAppendOnly : Prop :=
  ∀ s t : State, step s = .next t → s.schedule.head? ≠ some .reset →
    (t.trace = s.trace ∧ t.cs = s.cs) ∨
    (∃ e, t.trace = s.trace ++ [e] ∧ t.cs = if e = .csAssert then true else if e = .csDeassert then false else s.cs)

/-! ### Reset and the invariant (`70_reset_and_hazards.md`) -/

/-- R280, R281: reset from any state gives the reset state, drops a transaction in flight with no event emitted for it, and keeps the
parameters; the machine's own reset state is one too. -/
def Obligations.ResetGivesTheResetState : Prop :=
  (∀ s : State, ∃ t, act .reset s = .next t ∧ ResetState t ∧ t.params = s.params) ∧ ResetState State.reset

/-- The invariant holds right after reset. -/
def Obligations.TheCoreInvariantHoldsAtReset : Prop := CoreInv State.reset

/-- Every step keeps the invariant: the canonical framebuffer, BUSY as R29 says, a halted core without a transaction, the fault
fields as R29 and R250 say, CS as R31 says, and the bus output as R228 and R229 say. -/
def Obligations.StepKeepsTheCoreInvariant : Prop :=
  ∀ s t : State, CoreInv s → step s = .next t → CoreInv t

/-- A state with the invariant always has a next step, whatever action is scheduled. This is the model's choice: an action without
a step is dropped and a waiting core stays as it is (logs 10 and 11, DEDUCED), and the one state where the core's step stops is none
the invariant admits (log 16). The second clause is R290's: where a run ends well, XACT is none and CS is 0. -/
def Obligations.ConsistentStatesAlwaysStep : Prop :=
  (∀ s : State, CoreInv s → ∃ t, step s = .next t) ∧
  (∀ s : State, CoreInv s → EndsWell s → s.xact = none ∧ s.cs = false)
end

