-- ==== Sys2Proof/Laws/Memory.lean ====
section
/-! SUPPORT. Memory: a read after a write, the canonical form kept by every operation, and equal memories are equal data. -/

namespace Sys2Proof.Machine

@[simp] theorem Memory.read_nil (a : Nat) : Memory.read [] a = Config.unwritten := rfl

theorem Memory.read_cons (b : Nat) (v : Byte) (m : Memory) (a : Nat) :
    Memory.read ((b, v) :: m) a = if a = b then v else Memory.read m a := rfl

/-- An offset below every entry reads as unlisted. -/
theorem Memory.read_unlisted (m : Memory) (a : Nat) (h : ∀ c ∈ m, c.1 ≠ a) : m.read a = Config.unwritten := by
  induction m with
  | nil => rfl
  | cons c m ih =>
    obtain ⟨b, v⟩ := c
    have hb : a ≠ b := fun e => h (b, v) (by simp) e.symm
    simp only [Memory.read_cons, hb, if_false]
    exact ih fun c hc => h c (List.mem_cons_of_mem _ hc)

theorem Memory.wf_nil (n : Nat) : Memory.wf n [] := by simp [Memory.wf]

theorem Memory.wf_tail {n : Nat} {c : Host.Cell} {m : Memory} (h : Memory.wf n (c :: m)) : Memory.wf n m :=
  ⟨(List.pairwise_cons.1 h.1).2, fun d hd => h.2 d (List.mem_cons_of_mem _ hd)⟩

/-- An offset with no byte reads as unlisted. -/
theorem Memory.read_outside {n : Nat} {m : Memory} (h : Memory.wf n m) {a : Nat} (ha : n ≤ a) :
    m.read a = Config.unwritten :=
  Memory.read_unlisted m a fun c hc e => by have := (h.2 c hc).1; omega

theorem Memory.read_put (a : Nat) (v : Byte) (m : Memory) (x : Nat) (h : x = a → ∀ c ∈ m, c.1 ≠ a) :
    (Memory.put a v m).read x = if x = a then v else m.read x := by
  unfold Memory.put
  split
  · split
    · subst x; rw [Memory.read_unlisted m a (h rfl)]; exact Eq.symm ‹_›
    · rfl
  · exact Memory.read_cons a v m x

/-- A read after a write, in a canonical memory. -/
theorem Memory.read_write {n : Nat} {m : Memory} (h : Memory.wf n m) (a : Nat) (v : Byte) (x : Nat) :
    (m.write a v).read x = if x = a then v else m.read x := by
  induction m with
  | nil => exact Memory.read_put a v [] x (by simp)
  | cons c m ih =>
    obtain ⟨b, u⟩ := c
    have above : ∀ d ∈ m, b < d.1 := (List.pairwise_cons.1 h.1).1
    simp only [Memory.write]
    split
    · refine Memory.read_put a v _ x fun _ c hc => ?_
      rcases List.mem_cons.1 hc with rfl | hc
      · simp only [ne_eq]; omega
      · have := above c hc; omega
    · split
      · subst b
        rw [Memory.read_put a v m x fun _ c hc => by have := above c hc; omega, Memory.read_cons]
        split <;> simp_all
      · rw [Memory.read_cons, ih (Memory.wf_tail h), Memory.read_cons]
        split
        · subst x; rw [if_neg (by omega)]
        · rfl

@[simp] theorem Memory.read_write_same {n : Nat} {m : Memory} (h : Memory.wf n m) (a : Nat) (v : Byte) :
    (m.write a v).read a = v := by rw [Memory.read_write h, if_pos rfl]

theorem Memory.read_write_other {n : Nat} {m : Memory} (h : Memory.wf n m) {a x : Nat} (v : Byte) (hx : x ≠ a) :
    (m.write a v).read x = m.read x := by rw [Memory.read_write h, if_neg hx]

theorem Memory.wf_put {n a : Nat} {v : Byte} {m : Memory} (h : Memory.wf n m) (ha : a < n) (above : ∀ c ∈ m, a < c.1) :
    Memory.wf n (Memory.put a v m) := by
  unfold Memory.put
  split
  · exact h
  · refine ⟨List.pairwise_cons.2 ⟨above, h.1⟩, fun c hc => ?_⟩
    rcases List.mem_cons.1 hc with rfl | hc
    · exact ⟨ha, ‹_›⟩
    · exact h.2 c hc

theorem Memory.mem_put {a : Nat} {v : Byte} {m : Memory} {c : Host.Cell} (h : c ∈ Memory.put a v m) :
    c.1 = a ∨ c ∈ m := by
  unfold Memory.put at h
  split at h
  · exact .inr h
  · rcases List.mem_cons.1 h with rfl | h
    · exact .inl rfl
    · exact .inr h

theorem Memory.mem_write {a : Nat} {v : Byte} {m : Memory} {c : Host.Cell} (h : c ∈ m.write a v) : c.1 = a ∨ c ∈ m := by
  induction m with
  | nil => exact Memory.mem_put h
  | cons d m ih =>
    obtain ⟨b, u⟩ := d
    simp only [Memory.write] at h
    split at h
    · exact Memory.mem_put h
    · split at h
      · rcases Memory.mem_put h with h | h
        · exact .inl h
        · exact .inr (List.mem_cons_of_mem _ h)
      · rcases List.mem_cons.1 h with rfl | h
        · exact .inr (by simp)
        · exact (ih h).imp_right (List.mem_cons_of_mem _)

/-- A write keeps the canonical form. -/
theorem Memory.wf_write {n a : Nat} {m : Memory} (h : Memory.wf n m) (v : Byte) (ha : a < n) :
    Memory.wf n (m.write a v) := by
  induction m with
  | nil => exact Memory.wf_put (Memory.wf_nil n) ha (by simp)
  | cons c m ih =>
    obtain ⟨b, u⟩ := c
    have above : ∀ d ∈ m, b < d.1 := (List.pairwise_cons.1 h.1).1
    simp only [Memory.write]
    split
    · refine Memory.wf_put h ha fun c hc => ?_
      rcases List.mem_cons.1 hc with rfl | hc
      · assumption
      · have := above c hc; omega
    · split
      · exact Memory.wf_put (Memory.wf_tail h) ha fun c hc => by have := above c hc; omega
      · refine ⟨List.pairwise_cons.2 ⟨fun c hc => ?_, (ih (Memory.wf_tail h)).1⟩, fun c hc => ?_⟩
        · rcases Memory.mem_write hc with e | hc
          · rw [e]; show b < a; omega
          · exact above c hc
        · rcases List.mem_cons.1 hc with rfl | hc
          · exact h.2 (b, u) (by simp)
          · exact (ih (Memory.wf_tail h)).2 c hc

theorem Memory.mem_build {f : Nat → Byte} {n a : Nat} {c : Host.Cell} (h : c ∈ Memory.build f n a) :
    a ≤ c.1 ∧ c.1 < a + n := by
  induction n generalizing a with
  | zero => simp [Memory.build] at h
  | succ n ih =>
    rcases Memory.mem_put h with e | h
    · omega
    · have := ih h; omega

theorem Memory.wf_build (f : Nat → Byte) (n a N : Nat) (h : a + n ≤ N) : Memory.wf N (Memory.build f n a) := by
  induction n generalizing a with
  | zero => exact Memory.wf_nil N
  | succ n ih =>
    exact Memory.wf_put (ih (a + 1) (by omega)) (by omega) fun c hc => by have := Memory.mem_build hc; omega

/-- The built memory holds `f x` at each of its offsets, and nothing elsewhere. -/
theorem Memory.read_build (f : Nat → Byte) (n a x : Nat) :
    (Memory.build f n a).read x = if a ≤ x ∧ x < a + n then f x else Config.unwritten := by
  induction n generalizing a with
  | zero => rw [if_neg (by omega)]; rfl
  | succ n ih =>
    rw [Memory.build, Memory.read_put a (f a) _ x fun _ c hc => by have := Memory.mem_build hc; omega, ih]
    by_cases hx : x = a
    · subst x; rw [if_pos rfl, if_pos (by omega)]
    · rw [if_neg hx]
      by_cases hin : a ≤ x ∧ x < a + (n + 1)
      · rw [if_pos hin, if_pos (by omega)]
      · rw [if_neg hin, if_neg (by omega)]

/-- A drawn framebuffer is canonical, whatever the free values are. -/
theorem Memory.wf_draw (p : Params) (k : Nat) : Memory.wf p.fbBytes (Memory.draw p k) :=
  Memory.wf_build _ _ _ _ (by omega)

theorem Memory.wf_writeRun {N : Nat} (v : Byte) (n a : Nat) {m : Memory} (h : Memory.wf N m) (ha : a + n ≤ N) :
    Memory.wf N (Memory.writeRun v n a m) := by
  induction n generalizing a m with
  | zero => exact h
  | succ n ih => exact ih (a + 1) (Memory.wf_write h v (by omega)) (by omega)

theorem Memory.read_writeRun {N : Nat} (v : Byte) (n a : Nat) {m : Memory} (h : Memory.wf N m) (ha : a + n ≤ N) (x : Nat) :
    (Memory.writeRun v n a m).read x = if a ≤ x ∧ x < a + n then v else m.read x := by
  induction n generalizing a m with
  | zero => rw [if_neg (by omega)]; rfl
  | succ n ih =>
    rw [Memory.writeRun, ih (a + 1) (Memory.wf_write h v (by omega)) (by omega), Memory.read_write h]
    by_cases hx : x = a
    · subst x; simp
    · by_cases hin : a ≤ x ∧ x < a + (n + 1)
      · rw [if_pos (by omega), if_pos hin]
      · rw [if_neg (by omega), if_neg hx, if_neg hin]

/-- Canonical memories that read alike are equal. -/
theorem Memory.ext_read {n : Nat} {m m' : Memory} (h : Memory.wf n m) (h' : Memory.wf n m')
    (same : ∀ a, m.read a = m'.read a) : m = m' := by
  induction m generalizing m' with
  | nil =>
    cases m' with
    | nil => rfl
    | cons c m' =>
      have := same c.1
      obtain ⟨b, v⟩ := c
      simp only [Memory.read_nil, Memory.read_cons, if_true] at this
      exact absurd this.symm (h'.2 (b, v) (by simp)).2
  | cons c m ih =>
    obtain ⟨b, v⟩ := c
    have above : ∀ d ∈ m, b < d.1 := (List.pairwise_cons.1 h.1).1
    have hv : v ≠ Config.unwritten := (h.2 (b, v) (by simp)).2
    cases m' with
    | nil =>
      have := same b
      simp only [Memory.read_nil, Memory.read_cons, if_true] at this
      exact absurd this hv
    | cons c' m' =>
      obtain ⟨b', v'⟩ := c'
      have above' : ∀ d ∈ m', b' < d.1 := (List.pairwise_cons.1 h'.1).1
      have hv' : v' ≠ Config.unwritten := (h'.2 (b', v') (by simp)).2
      have hbb : b = b' := by
        rcases lt_trichotomy b b' with lt | e | lt
        · have := same b
          rw [Memory.read_cons, if_pos rfl, Memory.read_unlisted ((b', v') :: m') b fun d hd => by
            rcases List.mem_cons.1 hd with rfl | hd
            · simp only [ne_eq]; omega
            · have := above' d hd; omega] at this
          exact absurd this hv
        · exact e
        · have := same b'
          rw [Memory.read_cons (b := b'), if_pos rfl, Memory.read_unlisted ((b, v) :: m) b' fun d hd => by
            rcases List.mem_cons.1 hd with rfl | hd
            · simp only [ne_eq]; omega
            · have := above d hd; omega] at this
          exact absurd this.symm hv'
      subst hbb
      have hvv : v = v' := by have := same b; simpa [Memory.read_cons] using this
      subst hvv
      refine congrArg _ (ih (Memory.wf_tail h) (Memory.wf_tail h') fun a => ?_)
      by_cases ha : a = b
      · subst ha
        rw [Memory.read_unlisted m a fun d hd => by have := above d hd; omega,
          Memory.read_unlisted m' a fun d hd => by have := above' d hd; omega]
      · have := same a; simpa [Memory.read_cons, ha] using this

end Sys2Proof.Machine
end

