-- ==== Sys2Proof/Laws/Pixels.lean ====
section
/-! SUPPORT. Pixels: their addresses, the effect of a masked byte, and what `paint` and `paintAll` do. -/

namespace Sys2Proof.Machine

/-! ### Addresses (R50) -/

theorem pixelOff_lt {p : Params} {x y : Int} (h : InBounds p x y) : pixelOff p x y < p.fbBytes := by
  obtain ⟨hx0, hx, hy0, hy⟩ := h
  have h1 : x.toNat / 8 < p.rowBytes := by
    have : p.width = 8 * p.rowBytes := rfl
    omega
  have h2 : y.toNat + 1 ≤ p.height := by omega
  calc y.toNat * p.rowBytes + x.toNat / 8 < y.toNat * p.rowBytes + p.rowBytes := by omega
    _ = (y.toNat + 1) * p.rowBytes := by ring
    _ ≤ p.height * p.rowBytes := Nat.mul_le_mul_right _ h2

/-- Two in-bounds pixels share a byte exactly when they share the row and the 8-pixel span. -/
theorem pixelOff_eq_iff {p : Params} {x y u v : Int} (h : InBounds p x y) (h' : InBounds p u v) :
    pixelOff p x y = pixelOff p u v ↔ y = v ∧ x.toNat / 8 = u.toNat / 8 := by
  obtain ⟨hx0, hx, hy0, hy⟩ := h
  obtain ⟨hu0, hu, hv0, hv⟩ := h'
  have w : p.width = 8 * p.rowBytes := rfl
  have h1 : x.toNat / 8 < p.rowBytes := by omega
  have h2 : u.toNat / 8 < p.rowBytes := by omega
  constructor
  · intro e
    have e : y.toNat * p.rowBytes + x.toNat / 8 = v.toNat * p.rowBytes + u.toNat / 8 := e
    have hr : 0 < p.rowBytes := by omega
    have q : y.toNat = v.toNat := by
      have := congrArg (· / p.rowBytes) e
      simpa [Nat.mul_comm _ p.rowBytes, Nat.mul_add_div hr, Nat.div_eq_of_lt h1, Nat.div_eq_of_lt h2] using this
    rw [q] at e
    exact ⟨by omega, by omega⟩
  · rintro ⟨rfl, e⟩
    simp only [pixelOff, e]

/-- Distinct in-bounds pixels are distinct bits of the framebuffer. -/
theorem pixel_eq_iff {p : Params} {x y u v : Int} (h : InBounds p x y) (h' : InBounds p u v) :
    (pixelOff p x y = pixelOff p u v ∧ x.toNat % 8 = u.toNat % 8) ↔ (x = u ∧ y = v) := by
  rw [pixelOff_eq_iff h h']
  obtain ⟨hx0, -⟩ := h
  obtain ⟨hu0, -⟩ := h'
  constructor
  · rintro ⟨⟨rfl, e⟩, e'⟩
    exact ⟨by omega, rfl⟩
  · rintro ⟨rfl, rfl⟩
    exact ⟨⟨rfl, rfl⟩, rfl⟩

/-! ### Masked bytes (R54, R121) -/

/-- A lane whose mask bit is 1 takes the colour, and every other lane keeps its value (R133). -/
theorem maskByte_getLsbD (c : Colour) (m old : Byte) (i : Nat) (hi : i < 8) :
    (maskByte c m old).getLsbD i = if m.getLsbD i then c.bit else old.getLsbD i := by
  cases c <;> simp only [maskByte, Colour.bit, BitVec.getLsbD_and, BitVec.getLsbD_or, BitVec.getLsbD_not, hi, decide_true,
    Bool.true_and] <;> cases m.getLsbD i <;> simp

theorem getLsbD_0x80 (i : Nat) : (0x80#8).getLsbD i = decide (i = 7) := by
  by_cases h : i < 8
  · have : ∀ j : Fin 8, (0x80#8).getLsbD j = decide (j.val = 7) := by decide
    exact this ⟨i, h⟩
  · rw [BitVec.getLsbD_of_ge _ _ (by omega)]
    symm; simpa using (by omega : ¬ i = 7)

/-- The single-pixel mask selects the pixel's bit (R51). -/
theorem pixelMask_getLsbD (x : Int) (i : Nat) (hi : i < 8) :
    (pixelMask x).getLsbD i = decide (i = 7 - x.toNat % 8) := by
  rw [pixelMask, BitVec.getLsbD_ushiftRight, getLsbD_0x80]
  exact decide_eq_decide.2 (by omega)

theorem wf_applyMask {n : Nat} {c : Colour} {m : Byte} {off : Nat} {fb : Memory} (h : fb.wf n) (ho : off < n) :
    (applyMask c m off fb).wf n := Memory.wf_write h _ ho

/-- What a masked byte does to each pixel. -/
theorem pix_applyMask {n : Nat} {p : Params} {c : Colour} {m : Byte} {off : Nat} {fb : Memory} (h : fb.wf n) (x y : Int) :
    pix p (applyMask c m off fb) x y =
      if pixelOff p x y = off ∧ m.getLsbD (7 - x.toNat % 8) = true then c.bit else pix p fb x y := by
  unfold pix applyMask
  rw [Memory.read_write h]
  by_cases e : pixelOff p x y = off
  · rw [if_pos e, maskByte_getLsbD _ _ _ _ (by omega), e]
    simp
  · rw [if_neg e, if_neg (by tauto)]

/-! ### What is painted -/

theorem Painted.refl {p : Params} {c : Colour} {fb : Memory} (h : fb.wf p.fbBytes) :
    Painted p c (fun _ _ => False) fb fb :=
  ⟨h, fun _ _ _ => ⟨False.elim, fun _ => rfl⟩, fun _ _ => rfl⟩

/-- The set painted may be named otherwise. -/
theorem Painted.congr {p : Params} {c : Colour} {A B : Int → Int → Prop} {fb fb' : Memory}
    (h : Painted p c A fb fb') (e : ∀ x y, A x y ↔ B x y) : Painted p c B fb fb' := by
  have : A = B := by funext x y; exact propext (e x y)
  exact this ▸ h

/-- Painting one set and then another in the same colour paints their union. -/
theorem Painted.trans {p : Params} {c : Colour} {A B : Int → Int → Prop} {fb fb1 fb2 : Memory}
    (h1 : Painted p c A fb fb1) (h2 : Painted p c B fb1 fb2) : Painted p c (fun x y => A x y ∨ B x y) fb fb2 := by
  refine ⟨h2.1, fun x y hb => ⟨fun hab => ?_, fun hab => ?_⟩, fun a ha => ?_⟩
  · by_cases b : B x y
    · exact (h2.2.1 x y hb).1 b
    · rw [(h2.2.1 x y hb).2 b]
      exact (h1.2.1 x y hb).1 (hab.resolve_right b)
  · rw [(h2.2.1 x y hb).2 fun b => hab (.inr b), (h1.2.1 x y hb).2 fun a => hab (.inl a)]
  · rw [h2.2.2 a fun x y b => ha x y (.inr b), h1.2.2 a fun x y b => ha x y (.inl b)]

/-- A framebuffer is determined by its pixels: two canonical ones with the same in-bounds pixels are equal. -/
theorem fb_ext {p : Params} {fb fb' : Memory} (h : fb.wf p.fbBytes) (h' : fb'.wf p.fbBytes)
    (same : ∀ x y, InBounds p x y → pix p fb x y = pix p fb' x y) : fb = fb' := by
  refine Memory.ext_read h h' fun a => ?_
  by_cases ha : a < p.fbBytes
  · have hr : 0 < p.rowBytes := Nat.pos_of_ne_zero fun e => by
      simp only [Params.fbBytes, e, Nat.mul_zero] at ha; omega
    refine BitVec.eq_of_getLsbD_eq fun i hi => ?_
    obtain ⟨q, r, hq, hr', ha'⟩ : ∃ q r, q < p.height ∧ r < p.rowBytes ∧ q * p.rowBytes + r = a :=
      ⟨a / p.rowBytes, a % p.rowBytes, Nat.div_lt_of_lt_mul (by rw [Nat.mul_comm]; exact ha), Nat.mod_lt _ hr,
        Nat.div_add_mod' a p.rowBytes⟩
    have w : p.width = 8 * p.rowBytes := rfl
    have key := same ((8 * r + (7 - i) : Nat) : Int) (q : Int) ⟨by omega, by omega, by omega, by omega⟩
    have off : pixelOff p ((8 * r + (7 - i) : Nat) : Int) (q : Int) = a := by
      have d : (8 * r + (7 - i)) / 8 = r := by omega
      simp only [pixelOff, Int.toNat_natCast, d, ha']
    have bit : 7 - (8 * r + (7 - i)) % 8 = i := by omega
    simpa only [pix, off, Int.toNat_natCast, bit] using key
  · rw [Memory.read_outside h (by omega), Memory.read_outside h' (by omega)]

/-! ### Paint (R54) -/

theorem paint_ok {p : Params} {c : Colour} {x y : Int} {fb : Memory} (h : fb.wf p.fbBytes) (hb : InBounds p x y) :
    ∃ fb', paint p c x y fb = .ok fb' ∧ Painted p c (fun u v => u = x ∧ v = y) fb fb' := by
  refine ⟨_, if_pos hb, wf_applyMask h (pixelOff_lt hb), fun u v huv => ?_, fun a ha => ?_⟩
  · rw [pix_applyMask h, pixelMask_getLsbD _ _ (by omega)]
    have key : (pixelOff p u v = pixelOff p x y ∧ decide (7 - u.toNat % 8 = 7 - x.toNat % 8) = true) ↔ (u = x ∧ v = y) := by
      rw [← pixel_eq_iff huv hb, decide_eq_true_iff]
      exact and_congr_right fun _ => ⟨fun _ => by omega, fun _ => by omega⟩
    exact ⟨fun e => if_pos (key.2 e), fun e => if_neg fun k => e (key.1 k)⟩
  · exact Memory.read_write_other h _ fun e => ha x y ⟨rfl, rfl⟩ e.symm

theorem paint_error {p : Params} {c : Colour} {x y : Int} {fb : Memory} (hb : ¬ InBounds p x y) :
    paint p c x y fb = .error (outOfBounds x y) := if_neg hb

/-- Painting points that are all in bounds paints exactly them. -/
theorem paintAll_ok {p : Params} {c : Colour} {pts : List (Int × Int)} {fb : Memory} (h : fb.wf p.fbBytes)
    (hb : ∀ q ∈ pts, InBounds p q.1 q.2) :
    ∃ fb', paintAll p c pts fb = .ok fb' ∧ Painted p c (fun x y => (x, y) ∈ pts) fb fb' := by
  induction pts generalizing fb with
  | nil => exact ⟨fb, rfl, (Painted.refl h).congr (by simp)⟩
  | cons q pts ih =>
    obtain ⟨x, y⟩ := q
    obtain ⟨fb1, e1, p1⟩ := paint_ok (c := c) h (hb (x, y) (by simp))
    obtain ⟨fb2, e2, p2⟩ := ih p1.1 fun q hq => hb q (by simp [hq])
    refine ⟨fb2, by simp only [paintAll, e1, e2], (p1.trans p2).congr fun u v => ?_⟩
    simp

/-- The first point out of bounds is the one reported (R251). -/
theorem paintAll_error {p : Params} {c : Colour} {pts : List (Int × Int)} {q : Int × Int} {fb : Memory}
    (h : FirstOutside p pts q) : paintAll p c pts fb = .error (outOfBounds q.1 q.2) := by
  obtain ⟨before, after, rfl, hin, hout⟩ := h
  induction before generalizing fb with
  | nil => simp only [List.nil_append, paintAll, paint_error hout]
  | cons r before ih =>
    obtain ⟨x, y⟩ := r
    have hr : InBounds p x y := hin (x, y) (by simp)
    simp only [List.cons_append, paintAll, paint, if_pos hr]
    exact ih fun r hr => hin r (by simp [hr])

/-- Points that are not all in bounds have a first one that is not. -/
theorem firstOutside_or_all (p : Params) (pts : List (Int × Int)) :
    (∀ q ∈ pts, InBounds p q.1 q.2) ∨ ∃ q, FirstOutside p pts q := by
  induction pts with
  | nil => exact .inl (by simp)
  | cons q pts ih =>
    by_cases hq : InBounds p q.1 q.2
    · rcases ih with all | ⟨r, before, after, e, hin, hout⟩
      · refine .inl fun r hr => ?_
        rcases List.mem_cons.1 hr with rfl | hr
        · exact hq
        · exact all r hr
      · refine .inr ⟨r, q :: before, after, by rw [e]; rfl, fun r hr => ?_, hout⟩
        rcases List.mem_cons.1 hr with rfl | hr
        · exact hq
        · exact hin r hr
    · exact .inr ⟨q, [], pts, rfl, by simp, hq⟩

/-- Painting keeps the canonical form whenever it completes. -/
theorem paintAll_wf {p : Params} {c : Colour} {pts : List (Int × Int)} {fb fb' : Memory} (h : fb.wf p.fbBytes)
    (e : paintAll p c pts fb = .ok fb') : fb'.wf p.fbBytes := by
  rcases firstOutside_or_all p pts with all | ⟨q, hq⟩
  · obtain ⟨fb1, e1, p1⟩ := paintAll_ok (c := c) h all
    rw [e1] at e
    cases e
    exact p1.1
  · rw [paintAll_error hq] at e
    cases e

/-- Painting raises nothing but PIXEL_OUT_OF_BOUNDS. -/
theorem paintAll_error_kind {p : Params} {c : Colour} {pts : List (Int × Int)} {fb : Memory} {r : Raise}
    (e : paintAll p c pts fb = .error r) : ∃ x y, r = outOfBounds x y := by
  induction pts generalizing fb with
  | nil => cases e
  | cons q pts ih =>
    obtain ⟨x, y⟩ := q
    unfold paintAll paint at e
    split at e
    · exact ih e
    · rename_i h
      split at h
      · cases h
      · cases h; cases e; exact ⟨x, y, rfl⟩

/-- Two framebuffers with the same pixels of a framebuffer painted are equal. -/
theorem Painted.unique {p : Params} {c : Colour} {A : Int → Int → Prop} {fb fb1 fb2 : Memory} (h1 : Painted p c A fb fb1)
    (h2 : Painted p c A fb fb2) : fb1 = fb2 := by
  refine fb_ext h1.1 h2.1 fun x y hb => ?_
  by_cases k : A x y
  · rw [(h1.2.1 x y hb).1 k, (h2.2.1 x y hb).1 k]
  · rw [(h1.2.1 x y hb).2 k, (h2.2.1 x y hb).2 k]

/-- Painting pixels that already have the colour changes nothing. -/
theorem Painted.again {p : Params} {c : Colour} {A : Int → Int → Prop} {fb fb1 : Memory} (h : Painted p c A fb fb1) :
    Painted p c A fb1 fb1 :=
  ⟨h.1, fun x y hb => ⟨fun k => (h.2.1 x y hb).1 k, fun _ => rfl⟩, fun _ _ => rfl⟩

end Sys2Proof.Machine
end

