-- ==== Sys2Proof/Laws/Circle.lean ====
section
/-! SUPPORT. CIRCLE: the loop ends within its bound, its points stay within the radius, form a symmetric set and move with the
centre. -/

namespace Sys2Proof.Machine

theorem circleLoop_done {cx cy x y err : Int} (k : Nat) (h : x < y) : circleLoop cx cy k x y err = [] := by
  cases k with
  | zero => rfl
  | succ k => rw [circleLoop, if_neg (by omega)]

/-- More iterations than `x - y + 1` change nothing: the loop has ended by then (R171). -/
theorem circleLoop_enough {cx cy x y err : Int} {k : Nat} (j : Nat) (h : x - y < k) :
    circleLoop cx cy (k + j) x y err = circleLoop cx cy k x y err := by
  induction k generalizing x y err with
  | zero => rw [circleLoop_done _ (by omega), circleLoop_done _ (by omega)]
  | succ k ih =>
    rw [Nat.succ_add, circleLoop, circleLoop]
    split
    · congr 1
      split
      · exact ih (by omega)
      · exact ih (by omega)
    · rfl

theorem mem_mirrorPoints {cx cy x y u v : Int} : (u, v) ∈ mirrorPoints cx cy x y ↔
    ((u = cx + x ∨ u = cx - x) ∧ (v = cy + y ∨ v = cy - y)) ∨ ((u = cx + y ∨ u = cx - y) ∧ (v = cy + x ∨ v = cy - x)) := by
  simp only [mirrorPoints, List.mem_cons, Prod.mk.injEq, List.not_mem_nil, or_false]
  omega

/-- The points of a loop, as offsets from the centre: each iteration's mirror points. -/
theorem mem_circleLoop {cx cy x y err u v : Int} {k : Nat} : (u, v) ∈ circleLoop cx cy k x y err ↔
    (u - cx, v - cy) ∈ circleLoop 0 0 k x y err := by
  induction k generalizing x y err with
  | zero => simp [circleLoop]
  | succ k ih =>
    rw [circleLoop, circleLoop]
    split
    · rw [List.mem_append, List.mem_append, mem_mirrorPoints, mem_mirrorPoints]
      refine or_congr (by omega) ?_
      split
      · exact ih
      · exact ih
    · simp

/-- A loop's point set about the origin is symmetric under both reflections and the exchange of the axes (R173). -/
theorem circleLoop_symmetric {x y err u v : Int} {k : Nat} (h : (u, v) ∈ circleLoop 0 0 k x y err) :
    (-u, v) ∈ circleLoop 0 0 k x y err ∧ (u, -v) ∈ circleLoop 0 0 k x y err ∧ (v, u) ∈ circleLoop 0 0 k x y err := by
  induction k generalizing x y err with
  | zero => simp [circleLoop] at h
  | succ k ih =>
    rw [circleLoop] at h ⊢
    split at h
    · rename_i hxy
      rw [if_pos hxy]
      simp only [List.mem_append, mem_mirrorPoints] at h ⊢
      rcases h with h | h
      · exact ⟨.inl (by omega), .inl (by omega), .inl (by omega)⟩
      · split at h
        · rename_i herr
          rw [if_pos herr]
          obtain ⟨a, b, c⟩ := ih h
          exact ⟨.inr a, .inr b, .inr c⟩
        · rename_i herr
          rw [if_neg herr]
          obtain ⟨a, b, c⟩ := ih h
          exact ⟨.inr a, .inr b, .inr c⟩
    · simp at h

/-- No point of a loop is further from the centre, along either axis, than the `x` it starts with. -/
theorem circleLoop_within {cx cy x y err u v : Int} {k : Nat} (hy : 0 ≤ y) (h : (u, v) ∈ circleLoop cx cy k x y err) :
    (cx - x ≤ u ∧ u ≤ cx + x) ∧ cy - x ≤ v ∧ v ≤ cy + x := by
  induction k generalizing x y err with
  | zero => simp [circleLoop] at h
  | succ k ih =>
    rw [circleLoop] at h
    split at h
    · rw [List.mem_append, mem_mirrorPoints] at h
      rcases h with h | h
      · omega
      · split at h
        · exact ih (by omega) h
        · have := ih (by omega) h
          omega
    · simp at h

/-! ### The loop by iterations (R171) -/

theorem circleState_le (r k : Nat) : (circleState r (k + 1)).1 ≤ (circleState r k).1 := by
  simp only [circleState]; split <;> simp

/-- `x` is at most the radius throughout the loop. -/
theorem circleState_le_radius (r k : Nat) : (circleState r k).1 ≤ r := by
  induction k with
  | zero => exact Int.le_refl _
  | succ k ih => exact Int.le_trans (circleState_le r k) ih

/-- What the loop paints from its `k`-th iteration on. -/
theorem circleLoop_eq_order (cx cy : Int) (r j k : Nat) :
    circleLoop cx cy j (circleState r k).1 k (circleState r k).2 =
      (List.range j).flatMap fun (i : Nat) =>
        if ((k + i : Nat) : Int) ≤ (circleState r (k + i)).1 then mirrorPoints cx cy (circleState r (k + i)).1 ((k + i : Nat) : Int)
        else [] := by
  induction j generalizing k with
  | zero => rfl
  | succ j ih =>
    rw [List.range_succ_eq_map, List.flatMap_cons, List.flatMap_map, circleLoop, Nat.add_zero]
    have tail := ih (k + 1)
    have shift : (fun i : Nat => if ((k + i.succ : Nat) : Int) ≤ (circleState r (k + i.succ)).1 then
          mirrorPoints cx cy (circleState r (k + i.succ)).1 ((k + i.succ : Nat) : Int) else []) =
        fun i : Nat => if ((k + 1 + i : Nat) : Int) ≤ (circleState r (k + 1 + i)).1 then
          mirrorPoints cx cy (circleState r (k + 1 + i)).1 ((k + 1 + i : Nat) : Int) else [] := by
      funext i; rw [show k + i.succ = k + 1 + i by omega]
    rw [shift, ← tail]
    split
    · congr 1
      simp only [circleState]
      split <;> (push_cast; rfl)
    · rename_i h
      rw [circleLoop_done, List.nil_append]
      have := circleState_le r k
      push_cast; omega

/-- CIRCLE paints the points of its iterations, in order. -/
theorem circlePoints_eq (cx cy : Int) (r : Nat) : circlePoints cx cy r = circleOrder cx cy r := by
  have := circleLoop_eq_order cx cy r (r + 1) 0
  simpa only [circlePoints, circleOrder, circleState, Nat.zero_add, Nat.cast_zero] using this

end Sys2Proof.Machine
end

