-- ==== Sys2Proof/Laws/Line.lean ====
section
/-! SUPPORT. LINE: the loop of R152 paints the closed form of R153, in its order. -/

namespace Sys2Proof.Machine

/-- The point after `k` major steps of a line with set-up `g`. -/
def lineAt (g : LineAxes) (x1 y1 : Int) (k : Nat) : Int × Int :=
  (x1 + k * g.ax + minorSteps g.n g.m k * g.mx, y1 + k * g.ay + minorSteps g.n g.m k * g.my)

/-- The error term after `k` iterations, `n - 2*m*k + 2*n*s_k`, lies in `0 .. 2*n - 1` (R153). -/
theorem minorSteps_error (n m k : Nat) :
    (n : Int) - 2 * m * k + 2 * n * minorSteps n m k = ((n : Int) - 2 * m * k) % (2 * n) := by
  have := Int.emod_def ((n : Int) - 2 * m * k) (2 * n)
  rw [minorSteps, this]; ring

/-- One more major step takes a minor step exactly when the error term becomes negative (R152). -/
theorem minorSteps_succ (n m k : Nat) (hn : 0 < n) (hm : m ≤ n) :
    minorSteps n m (k + 1) =
      minorSteps n m k + if (n : Int) - 2 * m * k + 2 * n * minorSteps n m k - 2 * m < 0 then 1 else 0 := by
  have h0 := Int.emod_nonneg ((n : Int) - 2 * m * k) (by omega : (2 * n : Int) ≠ 0)
  have h1 := Int.emod_lt_of_pos ((n : Int) - 2 * m * k) (by omega : (0 : Int) < 2 * n)
  rw [← minorSteps_error n m k] at h0 h1
  have e : (n : Int) - 2 * m * ((k + 1 : Nat) : Int) = (n : Int) - 2 * m * k - 2 * m := by push_cast; ring
  have unique : ∀ s : Int, 0 ≤ (n : Int) - 2 * m * k - 2 * m + 2 * n * s →
      (n : Int) - 2 * m * k - 2 * m + 2 * n * s < 2 * n → -(((n : Int) - 2 * m * k - 2 * m) / (2 * n)) = s := by
    intro s l u
    have : ((n : Int) - 2 * m * k - 2 * m) / (2 * n) = -s := by
      rw [Int.ediv_eq_iff_of_pos (by omega)]
      constructor <;> nlinarith
    omega
  rw [minorSteps, e]
  split
  · rename_i hneg
    exact unique _ (by nlinarith) (by nlinarith)
  · rename_i hneg
    rw [Int.add_zero]
    exact unique _ (by omega) (by omega)

/-- The loop from its `k`-th state on paints the closed form from its `k`-th point on. -/
theorem lineLoop_eq (g : LineAxes) (hn : 0 < g.n) (hm : g.m ≤ g.n) (endInclusive : Bool) (x1 y1 : Int) (j k : Nat) :
    lineLoop g endInclusive j (lineAt g x1 y1 k).1 (lineAt g x1 y1 k).2
        ((g.n : Int) - 2 * g.m * k + 2 * g.n * minorSteps g.n g.m k) =
      (List.range j).map (fun i => lineAt g x1 y1 (k + i)) ++ if endInclusive then [lineAt g x1 y1 (k + j)] else [] := by
  induction j generalizing k with
  | zero => rfl
  | succ j ih =>
    have step := minorSteps_succ g.n g.m k hn hm
    rw [List.range_succ_eq_map, List.map_cons, List.map_map, List.cons_append, lineLoop, Nat.add_zero]
    congr 1
    have tail := ih (k + 1)
    have shift : (List.range j).map ((fun i => lineAt g x1 y1 (k + i)) ∘ Nat.succ) =
        (List.range j).map (fun i => lineAt g x1 y1 (k + 1 + i)) :=
      List.map_congr_left fun i _ => by simp only [Function.comp_apply, Nat.succ_eq_add_one]; congr 1; omega
    rw [shift, show k + (j + 1) = k + 1 + j by omega, ← tail]
    simp only
    split
    · rename_i hneg
      rw [if_pos hneg] at step
      simp only [lineAt, step]
      congr 1 <;> (push_cast; ring)
    · rename_i hneg
      rw [if_neg hneg] at step
      simp only [lineAt, step]
      congr 1 <;> (push_cast; ring)

@[simp] theorem minorSteps_zero (n m : Nat) (hn : 0 < n) : minorSteps n m 0 = 0 := by
  have : ((n : Int) - 2 * m * (0 : Nat)) / (2 * n) = 0 := by
    rw [Int.ediv_eq_zero_of_lt] <;> push_cast <;> omega
  rw [minorSteps, this]; rfl

/-- `s_n = m`: the final point is the end point (R153). -/
theorem minorSteps_end (n m : Nat) (hn : 0 < n) : minorSteps n m n = m := by
  have : ((n : Int) - 2 * m * n) / (2 * n) = -m := by
    rw [Int.ediv_eq_iff_of_pos (by omega)]
    constructor <;> nlinarith
  rw [minorSteps, this]; ring

theorem mul_sign_natAbs (a : Int) : (a.natAbs : Int) * a.sign = a := by
  rw [Int.mul_comm]; exact Int.sign_mul_natAbs a

/-- LINE paints the closed form of R153, in order, with the end point where `LINE_END_INCLUSIVE` is set. -/
theorem linePoints_eq (endInclusive : Bool) (x1 y1 x2 y2 : Int) :
    linePoints endInclusive x1 y1 x2 y2 = lineOrder endInclusive x1 y1 x2 y2 := by
  unfold linePoints lineOrder
  by_cases major : (y2 - y1).natAbs ≤ (x2 - x1).natAbs
  · rw [Nat.max_eq_left major]
    by_cases hn : (x2 - x1).natAbs = 0
    · have hx : x2 = x1 := by omega
      have hy : y2 = y1 := by omega
      subst hx hy
      simp [lineAxes, lineLoop]
    · have pos : 0 < (x2 - x1).natAbs := by omega
      have eq := lineLoop_eq (lineAxes x1 y1 x2 y2) (by simp only [lineAxes, if_pos major]; exact pos)
        (by simp only [lineAxes, if_pos major]; exact major) endInclusive x1 y1 (x2 - x1).natAbs 0
      simp only [lineAxes, if_pos major, lineAt, Nat.zero_add, minorSteps_zero _ _ pos, Nat.cast_zero, Int.zero_mul,
        Int.mul_zero, Int.add_zero, Int.sub_zero, minorSteps_end _ _ pos, mul_sign_natAbs] at eq ⊢
      rw [eq]
      congr 1
      · refine List.map_congr_left fun k _ => ?_
        simp only [linePoint, if_pos major]
      · rw [show x1 + (x2 - x1) = x2 by ring, show y1 + (y2 - y1) = y2 by ring]
  · rw [Nat.max_eq_right (by omega)]
    have pos : 0 < (y2 - y1).natAbs := by omega
    have eq := lineLoop_eq (lineAxes x1 y1 x2 y2) (by simp only [lineAxes, if_neg major]; exact pos)
      (by simp only [lineAxes, if_neg major]; omega) endInclusive x1 y1 (y2 - y1).natAbs 0
    simp only [lineAxes, if_neg major, lineAt, Nat.zero_add, minorSteps_zero _ _ pos, Nat.cast_zero, Int.zero_mul,
      Int.mul_zero, Int.add_zero, Int.sub_zero, minorSteps_end _ _ pos, mul_sign_natAbs] at eq ⊢
    rw [eq]
    congr 1
    · refine List.map_congr_left fun k _ => ?_
      simp only [linePoint, if_neg major]
    · rw [show x1 + (x2 - x1) = x2 by ring, show y1 + (y2 - y1) = y2 by ring]

end Sys2Proof.Machine
end

