-- ==== Sys2Proof/Laws/PerInstr.lean ====
section
/-! SUPPORT. The encoding, instruction by instruction: what the decoder reads from the encoder's words. -/

namespace Sys2Proof

/-! ### The fields of an encoded packet (R72, R73, R82, R86) -/

@[simp] theorem headerOp_encode (op : Opcode) (c : Colour) (imm : Half) :
    headerOp (headerWord op c imm) = op.code := by
  refine BitVec.eq_of_getLsbD_eq fun i hi => ?_
  simp only [headerOp, headerWord, BitVec.getLsbD_extractLsb', BitVec.getLsbD_append, hi, decide_true, Bool.true_and]
  rw [if_neg (by omega), if_neg (by omega), if_neg (by omega)]
  congr 1; omega

@[simp] theorem headerRsv_encode (op : Opcode) (c : Colour) (imm : Half) :
    headerRsv (headerWord op c imm) = 0 := by
  refine BitVec.eq_of_getLsbD_eq fun i hi => ?_
  simp only [headerRsv, headerWord, BitVec.getLsbD_extractLsb', BitVec.getLsbD_append, hi, decide_true, Bool.true_and]
  rw [if_neg (by omega), if_neg (by omega), if_pos (by omega)]
  simp

@[simp] theorem headerC_encode (op : Opcode) (c : Colour) (imm : Half) :
    headerC (headerWord op c imm) = c := by
  have bit : (headerWord op c imm).getLsbD 16 = c.bit := by
    rw [headerWord, BitVec.getLsbD_append, if_neg (by omega), BitVec.getLsbD_append, if_pos (by omega)]
    cases c <;> decide
  rw [headerC, bit]
  cases c <;> rfl

@[simp] theorem headerImm_encode (op : Opcode) (c : Colour) (imm : Half) :
    headerImm (headerWord op c imm) = imm := by
  refine BitVec.eq_of_getLsbD_eq fun i hi => ?_
  simp only [headerImm, headerWord, BitVec.getLsbD_extractLsb', BitVec.getLsbD_append, hi, decide_true, Bool.true_and]
  rw [if_pos (by omega), Nat.zero_add]

@[simp] theorem highHalf_append (a b : Half) : highHalf (a ++ b) = a := by
  refine BitVec.eq_of_getLsbD_eq fun i hi => ?_
  simp only [highHalf, BitVec.getLsbD_extractLsb', BitVec.getLsbD_append, hi, decide_true, Bool.true_and]
  rw [if_neg (by omega)]
  congr 1; omega

@[simp] theorem lowHalf_append (a b : Half) : lowHalf (a ++ b) = b := by
  refine BitVec.eq_of_getLsbD_eq fun i hi => ?_
  simp only [lowHalf, BitVec.getLsbD_extractLsb', BitVec.getLsbD_append, hi, decide_true, Bool.true_and]
  rw [if_pos (by omega), Nat.zero_add]

@[simp] theorem highByte_append (a b : Byte) : highByte (a ++ b) = a := by
  refine BitVec.eq_of_getLsbD_eq fun i hi => ?_
  simp only [highByte, BitVec.getLsbD_extractLsb', BitVec.getLsbD_append, hi, decide_true, Bool.true_and]
  rw [if_neg (by omega)]
  congr 1; omega

@[simp] theorem lowByte_append (a b : Byte) : lowByte (a ++ b) = b := by
  refine BitVec.eq_of_getLsbD_eq fun i hi => ?_
  simp only [lowByte, BitVec.getLsbD_extractLsb', BitVec.getLsbD_append, hi, decide_true, Bool.true_and]
  rw [if_pos (by omega), Nat.zero_add]

@[simp] theorem lowByte_setWidth (a : Byte) : lowByte (a.setWidth 16) = a := by
  refine BitVec.eq_of_getLsbD_eq fun i hi => ?_
  simp only [lowByte, BitVec.getLsbD_extractLsb', BitVec.getLsbD_setWidth, hi, decide_true, Bool.true_and, Nat.zero_add]
  simp; omega

@[simp] theorem wordChars_charsWord (a b c d : Byte) : wordChars (charsWord a b c d) = [a, b, c, d] := by
  simp only [wordChars, charsWord, List.cons.injEq, and_true]
  refine ⟨?_, ?_, ?_, ?_⟩ <;> refine BitVec.eq_of_getLsbD_eq fun i hi => ?_ <;>
    simp only [BitVec.getLsbD_extractLsb', BitVec.getLsbD_append, hi, decide_true, Bool.true_and]
  · rw [if_neg (by omega), if_neg (by omega), if_neg (by omega)]; congr 1; omega
  · rw [if_neg (by omega), if_neg (by omega), if_pos (by omega)]; congr 1; omega
  · rw [if_neg (by omega), if_pos (by omega)]; congr 1; omega
  · rw [if_pos (by omega), Nat.zero_add]

@[simp] theorem textWords_length (text : List Byte) : (textWords text).length = (text.length + 3) / 4 := by
  induction text using textWords.induct with
  | case1 | case2 | case3 | case4 => simp [textWords]
  | case5 a b c d rest ih => simp only [textWords, List.length_cons, ih]; omega

/-- The text words hold the string, and after it only the unused slots of the last word. -/
theorem textWords_chars (text : List Byte) : ∃ pad, (textWords text).flatMap wordChars = text ++ pad := by
  induction text using textWords.induct with
  | case1 => exact ⟨[], rfl⟩
  | case2 a => exact ⟨[0, 0, 0], by simp [textWords]⟩
  | case3 a b => exact ⟨[0, 0], by simp [textWords]⟩
  | case4 a b c => exact ⟨[0], by simp [textWords]⟩
  | case5 a b c d rest ih => obtain ⟨pad, ih⟩ := ih; exact ⟨pad, by simp [textWords, ih]⟩

/-- Reading a string back from its text words (R82). -/
@[simp] theorem textChars_textWords (text : List Byte) : textChars text.length (textWords text) = text := by
  obtain ⟨pad, e⟩ := textWords_chars text
  rw [textChars, e, List.take_left]

@[simp] theorem ofCode_code (op : Opcode) : Opcode.ofCode op.code = some op := by cases op <;> decide

/-- A three-word packet decodes to the command its opcode and fields name. -/
theorem decode_encodeWords (op : Opcode) (c : Colour) (imm p0 p1 p2 p3 : Half) (h : packetLength op imm = 3) :
    decode (encodeWords op c imm p0 p1 p2 p3) =
      .ok (commandOf op (headerWord op c imm) (p0 ++ p1) (p2 ++ p3) []) := by
  simp [decode, encodeWords, h]

namespace Laws.Encoding

/-- A well-formed command is read back from its packet (R77, R86). -/
def Statement (i : Instr) : Prop := i.wf = true → decode (encode i) = .ok i

theorem fill (v : Byte) : Statement (.fill v) := fun _ => by
  rw [encode, decode_encodeWords _ _ _ _ _ _ _ rfl]; simp [commandOf]

theorem setPixel (c : Colour) (x y : Half) : Statement (.setPixel c x y) := fun _ => by
  rw [encode, decode_encodeWords _ _ _ _ _ _ _ rfl]; simp [commandOf]

theorem hrun (c : Colour) (x1 x2 thickness y : Half) : Statement (.hrun c x1 x2 thickness y) := fun _ => by
  rw [encode, decode_encodeWords _ _ _ _ _ _ _ rfl]; simp [commandOf]

theorem vrun (c : Colour) (x y1 y2 : Half) : Statement (.vrun c x y1 y2) := fun _ => by
  rw [encode, decode_encodeWords _ _ _ _ _ _ _ rfl]; simp [commandOf]

theorem fillRect (c : Colour) (xMin yMin xMax yMax : Half) : Statement (.fillRect c xMin yMin xMax yMax) := fun _ => by
  rw [encode, decode_encodeWords _ _ _ _ _ _ _ rfl]; simp [commandOf]

theorem drawRect (c : Colour) (xMin yMin xMax yMax : Half) : Statement (.drawRect c xMin yMin xMax yMax) := fun _ => by
  rw [encode, decode_encodeWords _ _ _ _ _ _ _ rfl]; simp [commandOf]

theorem line (x1 y1 x2 y2 : Half) : Statement (.line x1 y1 x2 y2) := fun _ => by
  rw [encode, decode_encodeWords _ _ _ _ _ _ _ rfl]; simp [commandOf]

theorem circle (cx cy r : Half) : Statement (.circle cx cy r) := fun _ => by
  rw [encode, decode_encodeWords _ _ _ _ _ _ _ rfl]; simp [commandOf]

theorem drawChar (font ch : Byte) : Statement (.drawChar font ch) := fun _ => by
  rw [encode, decode_encodeWords _ _ _ _ _ _ _ rfl]; simp [commandOf]

theorem drawString (font : Byte) (text : List Byte) : Statement (.drawString font text) := fun h => by
  have fits : text.length < 65536 := by simp only [Instr.wf, decide_eq_true_eq] at h; omega
  have count : (BitVec.ofNat 16 text.length).toNat = text.length := by
    rw [BitVec.toNat_ofNat, Nat.mod_eq_of_lt fits]
  simp [encode, encodeWords, decode, commandOf, count, packetLength]
  omega

theorem setCursor (col row : Half) : Statement (.setCursor col row) := fun _ => by
  rw [encode, decode_encodeWords _ _ _ _ _ _ _ rfl]; simp [commandOf]

theorem write : Statement .write := fun _ => by
  rw [encode, decode_encodeWords _ _ _ _ _ _ _ rfl]; simp [commandOf]

theorem clearScreen : Statement .clearScreen := fun _ => by
  rw [encode, decode_encodeWords _ _ _ _ _ _ _ rfl]; simp [commandOf]

theorem toggleVcom : Statement .toggleVcom := fun _ => by
  rw [encode, decode_encodeWords _ _ _ _ _ _ _ rfl]; simp [commandOf]

end Laws.Encoding

end Sys2Proof
end

