-- ==== Sys2Proof/Laws/Packets.lean ====
section
/-! SUPPORT. The fields of any packet as numbers, the packet of `specPacket` as the encoder's words, and the characters of
text words. -/

namespace Sys2Proof.Machine

/-! ### Header fields as numbers (R72) -/

theorem headerOp_toNat (h : Word) : (headerOp h).toNat = h.toNat / 2^24 := by
  have := h.isLt
  simp [headerOp, BitVec.extractLsb'_toNat, Nat.shiftRight_eq_div_pow]; omega

theorem headerRsv_toNat (h : Word) : (headerRsv h).toNat = h.toNat / 2^17 % 2^7 := by
  simp [headerRsv, BitVec.extractLsb'_toNat, Nat.shiftRight_eq_div_pow]

theorem headerImm_toNat (h : Word) : (headerImm h).toNat = h.toNat % 2^16 := by
  simp [headerImm, BitVec.extractLsb'_toNat]

/-- An opcode is found only under its own code (R74). -/
theorem code_of_ofCode (b : Byte) (op : Opcode) (h : Opcode.ofCode b = some op) : op.code = b := by
  have := List.find?_some h
  simpa using this

/-! ### The packet of R86 -/

theorem header_eq_append (op : Byte) (c : Bool) (imm : Half) :
   ((op.setWidth 32 <<< 24) ||| ((BitVec.ofBool c).setWidth 32 <<< 16) ||| imm.setWidth 32 : Word) = (op ++ (0 : BitVec 7) ++ BitVec.ofBool c ++ imm : BitVec 32) := by
  refine BitVec.eq_of_getLsbD_eq fun i hi => ?_
  have e := BitVec.getLsbD_of_ge imm i
  have e2 := BitVec.getLsbD_of_ge (BitVec.ofBool c) (i-16)
  simp only [BitVec.getLsbD_or, BitVec.getLsbD_shiftLeft, BitVec.getLsbD_setWidth, BitVec.getLsbD_append, hi, decide_true, Bool.true_and]
  by_cases k : i < 16
  · have : i < 24 := by omega
    simp [k, this]
  · by_cases k2 : i - 16 < 1
    · have : i < 24 := by omega
      have h3 : i - 16 < 32 := by omega
      simp [k, k2, this, h3, e (by omega)]
    · by_cases k3 : i < 24
      · have h3 : i - 16 - 1 < 7 := by omega
        simp [k, k2, k3, h3, e (by omega), e2 (by omega)]
      · have h3 : ¬ i - 16 - 1 < 7 := by omega
        have h4 : i - 24 < 32 := by omega
        have h5 : i - 16 - 1 - 7 = i - 24 := by omega
        simp [k, k2, k3, h3, h4, h5, e (by omega), e2 (by omega)]

theorem pair_append (a b : Half) : ((a.setWidth 32 <<< 16) ||| b.setWidth 32 : Word) = (a ++ b : Word) := by
  refine BitVec.eq_of_getLsbD_eq fun i hi => ?_
  have e := BitVec.getLsbD_of_ge b i
  simp only [BitVec.getLsbD_or, BitVec.getLsbD_shiftLeft, BitVec.getLsbD_setWidth, BitVec.getLsbD_append, hi, decide_true, Bool.true_and]
  by_cases k : i < 16
  · simp [k]
  · have h3 : i - 16 < 32 := by omega
    simp [k, h3, e (by omega)]

theorem specPacket_eq (op : Opcode) (c : Bool) (imm p0 p1 p2 p3 : Half) :
    specPacket op.code c imm p0 p1 p2 p3 = encodeWords op (if c then .bg else .fg) imm p0 p1 p2 p3 := by
  simp only [specPacket, encodeWords, header_eq_append, pair_append, headerWord]
  cases c <;> rfl

theorem lowByte_eq (v : Half) : lowByte v = v.setWidth 8 := by
  refine BitVec.eq_of_getLsbD_eq fun i hi => ?_
  simp only [lowByte, BitVec.getLsbD_extractLsb', BitVec.getLsbD_setWidth, Nat.zero_add]

theorem highByte_eq (v : Half) : highByte v = (v >>> 8).setWidth 8 := by
  refine BitVec.eq_of_getLsbD_eq fun i hi => ?_
  simp only [highByte, BitVec.getLsbD_extractLsb', BitVec.getLsbD_setWidth, BitVec.getLsbD_ushiftRight]

/-! ### Text words (R82) -/

theorem length_wordChars (t : List Word) : (t.flatMap wordChars).length = 4 * t.length := by
  induction t with
  | nil => rfl
  | cons w t ih => simp only [List.flatMap_cons, List.length_append, ih, List.length_cons]; simp [wordChars]; omega

theorem getElem?_wordChars (t : List Word) (i : Nat) (h : i < 4 * t.length) :
    (t.flatMap wordChars)[i]? = some (((t.getD (i / 4) 0) >>> (24 - 8 * (i % 4))).setWidth 8) := by
  induction t generalizing i with
  | nil => simp at h
  | cons w t ih =>
    rw [List.flatMap_cons]
    by_cases k : i < 4
    · rw [List.getElem?_append_left (by simpa [wordChars] using k)]
      have hx : ∀ j : Nat, w.extractLsb' j 8 = (w >>> j).setWidth 8 := fun j => by
        refine BitVec.eq_of_getLsbD_eq fun i hi => ?_
        simp only [BitVec.getLsbD_extractLsb', BitVec.getLsbD_setWidth, BitVec.getLsbD_ushiftRight]
      have : i = 0 ∨ i = 1 ∨ i = 2 ∨ i = 3 := by omega
      rcases this with rfl | rfl | rfl | rfl <;> simp [wordChars, hx]
    · rw [List.getElem?_append_right (by simpa [wordChars] using k)]
      simp only [List.length_cons] at h
      have := ih (i - 4) (by omega)
      simp only [wordChars, List.length_cons, List.length_nil] at this ⊢
      rw [this, show i / 4 = (i-4)/4 + 1 by omega, List.getD_cons_succ, show (i - 4) % 4 = i % 4 by omega]

end Sys2Proof.Machine
end

