-- ==== Sys2Proof/Laws/State.lean ====
section
/-! SUPPORT. What each named update of State does to each field: one lemma per field per update. -/

namespace Sys2Proof.Machine

/-! ### Fault entry -/

@[simp] theorem State.raise_fb (r : Raise) (s : State) : (s.raise r).fb = s.fb := rfl
@[simp] theorem State.raise_vcom (r : Raise) (s : State) : (s.raise r).vcom = s.vcom := rfl
@[simp] theorem State.raise_skip (r : Raise) (s : State) : (s.raise r).skip = s.skip := rfl
@[simp] theorem State.raise_col (r : Raise) (s : State) : (s.raise r).col = s.col := rfl
@[simp] theorem State.raise_row (r : Raise) (s : State) : (s.raise r).row = s.row := rfl
@[simp] theorem State.raise_busy (r : Raise) (s : State) : (s.raise r).busy = false := rfl
@[simp] theorem State.raise_fault (r : Raise) (s : State) : (s.raise r).fault = true := rfl
@[simp] theorem State.raise_faultCode (r : Raise) (s : State) : (s.raise r).faultCode = r.kind.code := rfl
@[simp] theorem State.raise_faultInfo (r : Raise) (s : State) : (s.raise r).faultInfo = r.info := rfl
@[simp] theorem State.raise_cs (r : Raise) (s : State) : (s.raise r).cs = s.cs := rfl
@[simp] theorem State.raise_xact (r : Raise) (s : State) : (s.raise r).xact = none := rfl
@[simp] theorem State.raise_trace (r : Raise) (s : State) : (s.raise r).trace = s.trace := rfl
@[simp] theorem State.raise_params (r : Raise) (s : State) : (s.raise r).params = s.params := rfl
@[simp] theorem State.raise_schedule (r : Raise) (s : State) : (s.raise r).schedule = s.schedule := rfl
@[simp] theorem State.raise_busAccepts (r : Raise) (s : State) : (s.raise r).busAccepts = s.busAccepts := rfl
@[simp] theorem State.raise_busIdle (r : Raise) (s : State) : (s.raise r).busIdle = s.busIdle := rfl
@[simp] theorem State.raise_reply (r : Raise) (s : State) : (s.raise r).reply = s.reply := rfl
@[simp] theorem State.raise_draws (r : Raise) (s : State) : (s.raise r).draws = s.draws := rfl

/-! ### The schedule -/

@[simp] theorem State.withSchedule_fb (s : State) (rest : List Action) : (s.withSchedule rest).fb = s.fb := rfl
@[simp] theorem State.withSchedule_vcom (s : State) (rest : List Action) : (s.withSchedule rest).vcom = s.vcom := rfl
@[simp] theorem State.withSchedule_skip (s : State) (rest : List Action) : (s.withSchedule rest).skip = s.skip := rfl
@[simp] theorem State.withSchedule_col (s : State) (rest : List Action) : (s.withSchedule rest).col = s.col := rfl
@[simp] theorem State.withSchedule_row (s : State) (rest : List Action) : (s.withSchedule rest).row = s.row := rfl
@[simp] theorem State.withSchedule_busy (s : State) (rest : List Action) : (s.withSchedule rest).busy = s.busy := rfl
@[simp] theorem State.withSchedule_fault (s : State) (rest : List Action) : (s.withSchedule rest).fault = s.fault := rfl
@[simp] theorem State.withSchedule_faultCode (s : State) (rest : List Action) : (s.withSchedule rest).faultCode = s.faultCode := rfl
@[simp] theorem State.withSchedule_faultInfo (s : State) (rest : List Action) : (s.withSchedule rest).faultInfo = s.faultInfo := rfl
@[simp] theorem State.withSchedule_cs (s : State) (rest : List Action) : (s.withSchedule rest).cs = s.cs := rfl
@[simp] theorem State.withSchedule_xact (s : State) (rest : List Action) : (s.withSchedule rest).xact = s.xact := rfl
@[simp] theorem State.withSchedule_trace (s : State) (rest : List Action) : (s.withSchedule rest).trace = s.trace := rfl
@[simp] theorem State.withSchedule_params (s : State) (rest : List Action) : (s.withSchedule rest).params = s.params := rfl
@[simp] theorem State.withSchedule_schedule (s : State) (rest : List Action) : (s.withSchedule rest).schedule = rest := rfl
@[simp] theorem State.withSchedule_busAccepts (s : State) (rest : List Action) : (s.withSchedule rest).busAccepts = s.busAccepts := rfl
@[simp] theorem State.withSchedule_busIdle (s : State) (rest : List Action) : (s.withSchedule rest).busIdle = s.busIdle := rfl
@[simp] theorem State.withSchedule_reply (s : State) (rest : List Action) : (s.withSchedule rest).reply = s.reply := rfl
@[simp] theorem State.withSchedule_draws (s : State) (rest : List Action) : (s.withSchedule rest).draws = s.draws := rfl

/-! ### A packet placed for the next step -/

@[simp] theorem State.withFetchWord_fb (s : State) (nbits w : Nat) : (s.withFetchWord nbits w).fb = s.fb := rfl
@[simp] theorem State.withFetchWord_vcom (s : State) (nbits w : Nat) : (s.withFetchWord nbits w).vcom = s.vcom := rfl
@[simp] theorem State.withFetchWord_skip (s : State) (nbits w : Nat) : (s.withFetchWord nbits w).skip = s.skip := rfl
@[simp] theorem State.withFetchWord_col (s : State) (nbits w : Nat) : (s.withFetchWord nbits w).col = s.col := rfl
@[simp] theorem State.withFetchWord_row (s : State) (nbits w : Nat) : (s.withFetchWord nbits w).row = s.row := rfl
@[simp] theorem State.withFetchWord_busy (s : State) (nbits w : Nat) : (s.withFetchWord nbits w).busy = s.busy := rfl
@[simp] theorem State.withFetchWord_fault (s : State) (nbits w : Nat) : (s.withFetchWord nbits w).fault = s.fault := rfl
@[simp] theorem State.withFetchWord_faultCode (s : State) (nbits w : Nat) : (s.withFetchWord nbits w).faultCode = s.faultCode := rfl
@[simp] theorem State.withFetchWord_faultInfo (s : State) (nbits w : Nat) : (s.withFetchWord nbits w).faultInfo = s.faultInfo := rfl
@[simp] theorem State.withFetchWord_cs (s : State) (nbits w : Nat) : (s.withFetchWord nbits w).cs = s.cs := rfl
@[simp] theorem State.withFetchWord_xact (s : State) (nbits w : Nat) : (s.withFetchWord nbits w).xact = s.xact := rfl
@[simp] theorem State.withFetchWord_trace (s : State) (nbits w : Nat) : (s.withFetchWord nbits w).trace = s.trace := rfl
@[simp] theorem State.withFetchWord_params (s : State) (nbits w : Nat) : (s.withFetchWord nbits w).params = s.params := rfl
@[simp] theorem State.withFetchWord_schedule (s : State) (nbits w : Nat) : (s.withFetchWord nbits w).schedule = .submit (tablePacket nbits w) :: s.schedule := rfl
@[simp] theorem State.withFetchWord_busAccepts (s : State) (nbits w : Nat) : (s.withFetchWord nbits w).busAccepts = s.busAccepts := rfl
@[simp] theorem State.withFetchWord_busIdle (s : State) (nbits w : Nat) : (s.withFetchWord nbits w).busIdle = s.busIdle := rfl
@[simp] theorem State.withFetchWord_reply (s : State) (nbits w : Nat) : (s.withFetchWord nbits w).reply = s.reply := rfl
@[simp] theorem State.withFetchWord_draws (s : State) (nbits w : Nat) : (s.withFetchWord nbits w).draws = s.draws := rfl

/-! ### A transaction starts -/

@[simp] theorem State.startTransaction_fb (op : TransportOp) (bytes : List Byte) (s : State) : (s.startTransaction op bytes).fb = s.fb := rfl
@[simp] theorem State.startTransaction_vcom (op : TransportOp) (bytes : List Byte) (s : State) : (s.startTransaction op bytes).vcom = s.vcom := rfl
@[simp] theorem State.startTransaction_skip (op : TransportOp) (bytes : List Byte) (s : State) : (s.startTransaction op bytes).skip = s.skip := rfl
@[simp] theorem State.startTransaction_col (op : TransportOp) (bytes : List Byte) (s : State) : (s.startTransaction op bytes).col = s.col := rfl
@[simp] theorem State.startTransaction_row (op : TransportOp) (bytes : List Byte) (s : State) : (s.startTransaction op bytes).row = s.row := rfl
@[simp] theorem State.startTransaction_busy (op : TransportOp) (bytes : List Byte) (s : State) : (s.startTransaction op bytes).busy = true := rfl
@[simp] theorem State.startTransaction_fault (op : TransportOp) (bytes : List Byte) (s : State) : (s.startTransaction op bytes).fault = s.fault := rfl
@[simp] theorem State.startTransaction_faultCode (op : TransportOp) (bytes : List Byte) (s : State) : (s.startTransaction op bytes).faultCode = s.faultCode := rfl
@[simp] theorem State.startTransaction_faultInfo (op : TransportOp) (bytes : List Byte) (s : State) : (s.startTransaction op bytes).faultInfo = s.faultInfo := rfl
@[simp] theorem State.startTransaction_cs (op : TransportOp) (bytes : List Byte) (s : State) : (s.startTransaction op bytes).cs = s.cs := rfl
@[simp] theorem State.startTransaction_xact (op : TransportOp) (bytes : List Byte) (s : State) : (s.startTransaction op bytes).xact = some { op := op, events := transaction bytes } := rfl
@[simp] theorem State.startTransaction_trace (op : TransportOp) (bytes : List Byte) (s : State) : (s.startTransaction op bytes).trace = s.trace := rfl
@[simp] theorem State.startTransaction_params (op : TransportOp) (bytes : List Byte) (s : State) : (s.startTransaction op bytes).params = s.params := rfl
@[simp] theorem State.startTransaction_schedule (op : TransportOp) (bytes : List Byte) (s : State) : (s.startTransaction op bytes).schedule = s.schedule := rfl
@[simp] theorem State.startTransaction_busAccepts (op : TransportOp) (bytes : List Byte) (s : State) : (s.startTransaction op bytes).busAccepts = s.busAccepts := rfl
@[simp] theorem State.startTransaction_busIdle (op : TransportOp) (bytes : List Byte) (s : State) : (s.startTransaction op bytes).busIdle = s.busIdle := rfl
@[simp] theorem State.startTransaction_reply (op : TransportOp) (bytes : List Byte) (s : State) : (s.startTransaction op bytes).reply = s.reply := rfl
@[simp] theorem State.startTransaction_draws (op : TransportOp) (bytes : List Byte) (s : State) : (s.startTransaction op bytes).draws = s.draws := rfl

/-! ### VCOM flips -/

@[simp] theorem State.flipVcom_fb (s : State) : (s.flipVcom).fb = s.fb := rfl
@[simp] theorem State.flipVcom_vcom (s : State) : (s.flipVcom).vcom = !s.vcom := rfl
@[simp] theorem State.flipVcom_skip (s : State) : (s.flipVcom).skip = s.skip := rfl
@[simp] theorem State.flipVcom_col (s : State) : (s.flipVcom).col = s.col := rfl
@[simp] theorem State.flipVcom_row (s : State) : (s.flipVcom).row = s.row := rfl
@[simp] theorem State.flipVcom_busy (s : State) : (s.flipVcom).busy = s.busy := rfl
@[simp] theorem State.flipVcom_fault (s : State) : (s.flipVcom).fault = s.fault := rfl
@[simp] theorem State.flipVcom_faultCode (s : State) : (s.flipVcom).faultCode = s.faultCode := rfl
@[simp] theorem State.flipVcom_faultInfo (s : State) : (s.flipVcom).faultInfo = s.faultInfo := rfl
@[simp] theorem State.flipVcom_cs (s : State) : (s.flipVcom).cs = s.cs := rfl
@[simp] theorem State.flipVcom_xact (s : State) : (s.flipVcom).xact = s.xact := rfl
@[simp] theorem State.flipVcom_trace (s : State) : (s.flipVcom).trace = s.trace := rfl
@[simp] theorem State.flipVcom_params (s : State) : (s.flipVcom).params = s.params := rfl
@[simp] theorem State.flipVcom_schedule (s : State) : (s.flipVcom).schedule = s.schedule := rfl
@[simp] theorem State.flipVcom_busAccepts (s : State) : (s.flipVcom).busAccepts = s.busAccepts := rfl
@[simp] theorem State.flipVcom_busIdle (s : State) : (s.flipVcom).busIdle = s.busIdle := rfl
@[simp] theorem State.flipVcom_reply (s : State) : (s.flipVcom).reply = s.reply := rfl
@[simp] theorem State.flipVcom_draws (s : State) : (s.flipVcom).draws = s.draws := rfl

/-! ### An event is emitted -/

@[simp] theorem State.emit_fb (e : BusEvent) (s : State) : (s.emit e).fb = s.fb := rfl
@[simp] theorem State.emit_vcom (e : BusEvent) (s : State) : (s.emit e).vcom = s.vcom := rfl
@[simp] theorem State.emit_skip (e : BusEvent) (s : State) : (s.emit e).skip = s.skip := rfl
@[simp] theorem State.emit_col (e : BusEvent) (s : State) : (s.emit e).col = s.col := rfl
@[simp] theorem State.emit_row (e : BusEvent) (s : State) : (s.emit e).row = s.row := rfl
@[simp] theorem State.emit_busy (e : BusEvent) (s : State) : (s.emit e).busy = s.busy := rfl
@[simp] theorem State.emit_fault (e : BusEvent) (s : State) : (s.emit e).fault = s.fault := rfl
@[simp] theorem State.emit_faultCode (e : BusEvent) (s : State) : (s.emit e).faultCode = s.faultCode := rfl
@[simp] theorem State.emit_faultInfo (e : BusEvent) (s : State) : (s.emit e).faultInfo = s.faultInfo := rfl
@[simp] theorem State.emit_xact (e : BusEvent) (s : State) : (s.emit e).xact = s.xact := rfl
@[simp] theorem State.emit_trace (e : BusEvent) (s : State) : (s.emit e).trace = s.trace ++ [e] := rfl
@[simp] theorem State.emit_params (e : BusEvent) (s : State) : (s.emit e).params = s.params := rfl
@[simp] theorem State.emit_schedule (e : BusEvent) (s : State) : (s.emit e).schedule = s.schedule := rfl
@[simp] theorem State.emit_busAccepts (e : BusEvent) (s : State) : (s.emit e).busAccepts = s.busAccepts := rfl
@[simp] theorem State.emit_busIdle (e : BusEvent) (s : State) : (s.emit e).busIdle = s.busIdle := rfl
@[simp] theorem State.emit_reply (e : BusEvent) (s : State) : (s.emit e).reply = s.reply := rfl
@[simp] theorem State.emit_draws (e : BusEvent) (s : State) : (s.emit e).draws = s.draws := rfl

@[simp] theorem State.emit_cs_csAssert (s : State) : (s.emit .csAssert).cs = true := rfl
@[simp] theorem State.emit_cs_csDeassert (s : State) : (s.emit .csDeassert).cs = false := rfl
@[simp] theorem State.emit_cs_byte (b : Byte) (s : State) : (s.emit (.byte b)).cs = s.cs := rfl
@[simp] theorem State.emit_cs_waitIdle (s : State) : (s.emit .waitIdle).cs = s.cs := rfl
@[simp] theorem State.emit_cs_delay (s : State) : (s.emit .delay).cs = s.cs := rfl

/-! ### Reset -/

@[simp] theorem resetCore_fb (s : State) : (resetCore s).fb = Memory.draw s.params s.draws := rfl
@[simp] theorem resetCore_vcom (s : State) : (resetCore s).vcom = Config.freeVcom s.draws := rfl
@[simp] theorem resetCore_skip (s : State) : (resetCore s).skip = false := rfl
@[simp] theorem resetCore_col (s : State) : (resetCore s).col = s.params.cursorResetCol := rfl
@[simp] theorem resetCore_row (s : State) : (resetCore s).row = s.params.cursorResetRow := rfl
@[simp] theorem resetCore_busy (s : State) : (resetCore s).busy = false := rfl
@[simp] theorem resetCore_fault (s : State) : (resetCore s).fault = false := rfl
@[simp] theorem resetCore_faultCode (s : State) : (resetCore s).faultCode = 0 := rfl
@[simp] theorem resetCore_faultInfo (s : State) : (resetCore s).faultInfo = 0 := rfl
@[simp] theorem resetCore_cs (s : State) : (resetCore s).cs = false := rfl
@[simp] theorem resetCore_xact (s : State) : (resetCore s).xact = none := rfl
@[simp] theorem resetCore_trace (s : State) : (resetCore s).trace = [] := rfl
@[simp] theorem resetCore_params (s : State) : (resetCore s).params = s.params := rfl
@[simp] theorem resetCore_schedule (s : State) : (resetCore s).schedule = s.schedule := rfl
@[simp] theorem resetCore_busAccepts (s : State) : (resetCore s).busAccepts = s.busAccepts := rfl
@[simp] theorem resetCore_busIdle (s : State) : (resetCore s).busIdle = s.busIdle := rfl
@[simp] theorem resetCore_reply (s : State) : (resetCore s).reply = s.reply := rfl
@[simp] theorem resetCore_draws (s : State) : (resetCore s).draws = s.draws + 1 := rfl

/-- Taking a placed packet back out of the schedule leaves the state as it was. -/
@[simp] theorem State.withFetchWord_withSchedule (s : State) (nbits w : Nat) :
    (s.withFetchWord nbits w).withSchedule s.schedule = s := rfl

end Sys2Proof.Machine
end

