-- ==== Sys2Proof/Laws/Transport.lean ====
section
/-! SUPPORT. The transport: bit reversal, the bytes of a WRITE by position, the frame of a transaction, and what the core's own
step does. -/

namespace Sys2Proof.Machine

/-- Bit `i` of `reverse8(v)` is bit `7 - i` of `v` (R211). -/
theorem reverse8_getLsbD (v : Byte) (i : Nat) (hi : i < 8) : (reverse8 v).getLsbD i = v.getLsbD (7 - i) := by
  have all : ∀ n : Fin 256, ∀ j : Fin 8,
      (reverse8 (BitVec.ofFin (w := 8) n)).getLsbD j = (BitVec.ofFin (w := 8) n).getLsbD (7 - j.val) := by
    decide +kernel
  exact all v.toFin ⟨i, hi⟩

/-- `reverse8` is its own inverse (R211). -/
theorem reverse8_reverse8 (v : Byte) : reverse8 (reverse8 v) = v := by
  refine BitVec.eq_of_getLsbD_eq fun i hi => ?_
  rw [reverse8_getLsbD _ _ hi, reverse8_getLsbD _ _ (by omega)]
  congr 1; omega

/-! ### The bytes of a WRITE (R213, R217) -/

@[simp] theorem writeLine_length (p : Params) (fb : Memory) (k : Nat) : (writeLine p fb k).length = p.rowBytes + 2 := by
  simp [writeLine]

theorem flatMap_range_length (f : Nat → List Byte) (n len : Nat) (h : ∀ k, (f k).length = len) :
    ((List.range n).flatMap f).length = n * len := by
  simp [List.length_flatMap, h]

/-- The `j`-th byte of the `k`-th of equally long pieces. -/
theorem flatMap_range_getElem? (f : Nat → List Byte) (n len k j : Nat) (h : ∀ k, (f k).length = len) (hk : k < n)
    (hj : j < len) : ((List.range n).flatMap f)[k * len + j]? = (f k)[j]? := by
  induction n generalizing k f with
  | zero => omega
  | succ n ih =>
    rw [List.range_succ_eq_map, List.flatMap_cons, List.flatMap_map]
    cases k with
    | zero => rw [Nat.zero_mul, Nat.zero_add, List.getElem?_append_left (by rw [h]; exact hj)]
    | succ k =>
      rw [List.getElem?_append_right (by rw [h, Nat.succ_mul]; omega), h,
        show (k + 1) * len + j - len = k * len + j by rw [Nat.succ_mul]; omega]
      exact ih (fun k => f k.succ) k (fun k => h _) (by omega)

theorem writeBytes_length (p : Params) (fb : Memory) (vcom : Bool) :
    (writeBytes p fb vcom).length = 1 + p.height * (1 + p.rowBytes + 1) + 1 := by
  simp only [writeBytes, List.length_append, List.length_cons, List.length_nil,
    flatMap_range_length _ _ (p.rowBytes + 2) (writeLine_length p fb)]
  ring

/-- The `j`-th byte of the `k`-th line stands at `1 + k * (1 + ROW_BYTES + 1) + j`. -/
theorem writeBytes_line (p : Params) (fb : Memory) (vcom : Bool) (k j : Nat) (hk : k < p.height) (hj : j < p.rowBytes + 2) :
    (writeBytes p fb vcom)[1 + k * (1 + p.rowBytes + 1) + j]? = (writeLine p fb k)[j]? := by
  have inside : k * (p.rowBytes + 2) + j < p.height * (p.rowBytes + 2) := by
    calc k * (p.rowBytes + 2) + j < k * (p.rowBytes + 2) + (p.rowBytes + 2) := by omega
      _ = (k + 1) * (p.rowBytes + 2) := by ring
      _ ≤ p.height * (p.rowBytes + 2) := Nat.mul_le_mul_right _ (by omega)
  rw [writeBytes, show 1 + k * (1 + p.rowBytes + 1) + j = (k * (p.rowBytes + 2) + j) + 1 by ring, List.cons_append,
    List.getElem?_cons_succ, List.getElem?_append_left
      (by rw [flatMap_range_length _ _ (p.rowBytes + 2) (writeLine_length p fb)]; exact inside),
    flatMap_range_getElem? _ _ (p.rowBytes + 2) _ _ (writeLine_length p fb) hk hj]

/-! ### Transactions (R225, R229) -/

theorem transaction_ne_nil (bytes : List Byte) : transaction bytes ≠ [] := by simp [transaction]

/-- Where a transaction has been emitted up to an event and that event was the last, the event is `CsDeassert`; where more is to
come, what has been emitted is not empty afterwards and CS is asserted. -/
theorem transaction_split {bytes : List Byte} {done rest : List BusEvent} {e : BusEvent}
    (h : done ++ e :: rest = transaction bytes) :
    (rest = [] → e = .csDeassert) ∧ (rest ≠ [] → e ≠ .csDeassert) ∧ (done = [] → e = .csAssert) ∧
      (done ≠ [] → e ≠ .csAssert) := by
  have head : ∀ d : BusEvent, ∀ ds, d :: ds = transaction bytes → d = .csAssert := fun d ds k => by
    simp only [transaction, List.cons_append, List.nil_append, List.cons.injEq] at k
    exact k.1
  have tails : ∀ d : BusEvent, ∀ ds, d :: ds = transaction bytes →
      ds = (bytes.map BusEvent.byte ++ [.waitIdle, .delay]) ++ [.csDeassert] := fun d ds k => by
    simp only [transaction, List.cons_append, List.nil_append, List.cons.injEq] at k
    simpa using k.2
  have inner : ∀ d ∈ bytes.map BusEvent.byte ++ [.waitIdle, .delay], d ≠ .csAssert ∧ d ≠ .csDeassert := by
    intro d hd
    simp only [List.mem_append, List.mem_map, List.mem_cons, List.not_mem_nil, or_false] at hd
    rcases hd with ⟨b, -, rfl⟩ | rfl | rfl <;> simp
  cases done with
  | nil =>
    have e0 := head e rest h
    have t0 := tails e rest h
    refine ⟨fun hr => ?_, fun _ => by rw [e0]; simp, fun _ => e0, fun k => absurd rfl k⟩
    rw [hr] at t0; simp at t0
  | cons d done =>
    have t0 := tails d (done ++ e :: rest) h
    rcases List.eq_nil_or_concat rest with rfl | ⟨rest', r, rfl⟩
    · have := List.append_inj' t0 rfl
      have e1 : e = .csDeassert := by simpa using this.2
      exact ⟨fun _ => e1, fun k => absurd rfl k, by simp, fun _ => by rw [e1]; simp⟩
    · rw [List.concat_eq_append, ← List.cons_append, ← List.append_assoc] at t0
      have := List.append_inj' t0 rfl
      have mem : e ∈ bytes.map BusEvent.byte ++ [.waitIdle, .delay] := by rw [← this.1]; simp
      exact ⟨fun k => by simp at k, fun _ => (inner e mem).2, by simp, fun _ => (inner e mem).1⟩

/-! ### The core's own step (R225) -/

/-- Everything a transaction step can do: nothing, or the emission of the head event with more to come, or the emission of the
last event with the completion action. -/
theorem coreStep_cases {s t : State} (h : coreStep s = .next t) :
    t = s ∨ ∃ op e rest, s.fault = false ∧ s.xact = some { op := op, events := e :: rest } ∧ e.enabled s = true ∧
      ((rest ≠ [] ∧ t = { s.emit e with xact := some { op := op, events := rest } }) ∨
        (rest = [] ∧ t = { s.emit e with xact := none, busy := false, skip := op.skipAfter })) := by
  unfold coreStep at h
  split at h
  · injection h with h; exact .inl h.symm
  · split at h
    · injection h with h; exact .inl h.symm
    · rename_i hf _ x hx
      obtain ⟨op, events⟩ := x
      split at h
      · cases h
      · rename_i e rest he
        simp only at he
        subst he
        injection h with h
        split at h
        · rename_i en
          refine .inr ⟨op, e, rest, by simpa using hf, hx, en, ?_⟩
          cases rest with
          | nil => exact .inr ⟨rfl, h.symm⟩
          | cons r rest => exact .inl ⟨by simp, h.symm⟩
        · exact .inl h.symm

/-- The core's own step stops only in a state with an empty transaction. -/
theorem coreStep_next {s : State} (h : ∀ x, s.xact = some x → x.events ≠ []) : ∃ t, coreStep s = .next t := by
  unfold coreStep
  split
  · exact ⟨_, rfl⟩
  · split
    · exact ⟨_, rfl⟩
    · rename_i x hx
      split
      · exact absurd ‹_› (h x hx)
      · exact ⟨_, rfl⟩

end Sys2Proof.Machine
end

