-- ==== Sys2Proof/Laws/Run.lean ====
section
/-! SUPPORT. Runs of several steps, and a transaction drained on a bus that accepts every byte and reports idle at once. -/

namespace Sys2Proof.Machine

@[simp] theorem runFor_zero (s : State) : runFor 0 s = .next s := rfl

theorem runFor_succ {s t : State} (n : Nat) (h : step s = .next t) : runFor (n + 1) s = runFor n t := by
  rw [runFor, h]

/-- A run in two parts. -/
theorem runFor_add {s t : State} {m : Nat} (n : Nat) (h : runFor m s = .next t) : runFor (m + n) s = runFor n t := by
  induction m generalizing s with
  | zero => cases h; rw [Nat.zero_add]
  | succ m ih =>
    rw [Nat.succ_add]
    rw [runFor] at h ⊢
    split at h
    · exact ih h
    · cases h
    · cases h

/-- CS after some events (R225). -/
def csAfter (cs : Bool) : List BusEvent → Bool
  | [] => cs
  | e :: es => csAfter (match e with | .csAssert => true | .csDeassert => false | .byte _ | .waitIdle | .delay => cs) es

theorem csAfter_emit (s : State) (e : BusEvent) (es : List BusEvent) : csAfter (s.emit e).cs es = csAfter s.cs (e :: es) := by
  cases e <;> rfl

/-- Where a ready bus allows every event, the core's step emits the next one. -/
theorem coreStep_ready {s : State} {op : TransportOp} {e : BusEvent} {rest : List BusEvent} (hf : s.fault = false)
    (hx : s.xact = some { op := op, events := e :: rest }) (ha : s.busAccepts = true) (hi : s.busIdle = true) :
    coreStep s = .next (s.advance op e rest) := by
  have : e.enabled s = true := by cases e <;> simp [BusEvent.enabled, ha, hi]
  simp [coreStep, hf, hx, this]

/-- A transaction drained: as many steps as it has events, each the core's own, whether the schedule names the core for each of
them (and then goes on with `later`) or names nobody at all. -/
theorem runFor_drain (later : List Action) (op : TransportOp) (es : List BusEvent) (s : State) (hne : es ≠ [])
    (hs : s.schedule = List.replicate es.length Action.core ++ later ∨ (s.schedule = [] ∧ later = [])) (hf : s.fault = false)
    (hx : s.xact = some { op := op, events := es }) (ha : s.busAccepts = true) (hi : s.busIdle = true) :
    runFor es.length s = .next { s with
      trace := s.trace ++ es, xact := none, busy := false, cs := csAfter s.cs es, skip := op.skipAfter, schedule := later } := by
  induction es generalizing s with
  | nil => exact absurd rfl hne
  | cons e rest ih =>
    obtain ⟨q, st, hq⟩ : ∃ q, step s = .next (State.advance op e rest (s.withSchedule q)) ∧
        (q = List.replicate rest.length Action.core ++ later ∨ (q = [] ∧ later = [])) := by
      rcases hs with hs | ⟨hs, hl⟩
      · rw [List.length_cons, List.replicate_succ, List.cons_append] at hs
        refine ⟨_, ?_, .inl rfl⟩
        simp only [step, nextStep, hs, act]
        exact coreStep_ready hf hx ha hi
      · refine ⟨[], ?_, .inr ⟨rfl, hl⟩⟩
        have same : s.withSchedule [] = s := by cases s; cases hs; rfl
        rw [same]
        simp only [step, nextStep, hs]
        exact coreStep_ready hf hx ha hi
    rw [List.length_cons, runFor_succ _ st]
    cases rest with
    | nil =>
      have : q = later := by rcases hq with hq | ⟨hq, hl⟩ <;> simp_all
      subst this
      simp only [List.length_nil, runFor_zero, State.advance]
      cases e <;> rfl
    | cons r rest =>
      rw [ih (State.advance op e (r :: rest) (s.withSchedule q)) (by simp) hq hf rfl ha hi]
      simp only [State.advance, State.emit, List.append_assoc, List.cons_append, List.nil_append]
      cases e <;> rfl

/-- CS is deasserted after a whole transaction (R31). -/
theorem csAfter_transaction (cs : Bool) (bytes : List Byte) : csAfter cs (transaction bytes) = false := by
  simp only [transaction, List.cons_append, List.nil_append, csAfter]
  generalize true = b
  induction bytes with
  | nil => rfl
  | cons x xs ih => exact ih

end Sys2Proof.Machine
end

