-- ==== Sys2Proof/Laws/Runs.lean ====
section
/-! SUPPORT. Runs and rectangles: the edge masks, and what `rowSpan` and `rowSpans` do, on their pixels and in their order. -/

namespace Sys2Proof.Machine

theorem getLsbD_0xFF (i : Nat) : (0xFF#8).getLsbD i = decide (i < 8) := by
  by_cases h : i < 8
  · have : ∀ j : Fin 8, (0xFF#8).getLsbD j = decide (j.val < 8) := by decide
    exact this ⟨i, h⟩
  · rw [BitVec.getLsbD_of_ge _ _ (by omega)]
    symm; simpa using (by omega : 8 ≤ i)

/-- `firstMask` selects columns `lo & 7` to 7 (R120). -/
theorem firstMask_getLsbD (lo : Int) (i : Nat) (hi : i < 8) :
    (firstMask lo).getLsbD i = decide (lo.toNat % 8 ≤ 7 - i) := by
  rw [firstMask, BitVec.getLsbD_ushiftRight, getLsbD_0xFF]
  exact decide_eq_decide.2 (by omega)

/-- `lastMask` selects columns 0 to `hi & 7` (R120). -/
theorem lastMask_getLsbD (hi : Int) (i : Nat) (h : i < 8) :
    (lastMask hi).getLsbD i = decide (7 - i ≤ hi.toNat % 8) := by
  rw [lastMask, BitVec.getLsbD_shiftLeft, getLsbD_0xFF]
  by_cases e : 7 - i ≤ hi.toNat % 8
  · simp [h, e]; omega
  · simp [h, e]; omega

/-! ### Paint orders -/

theorem FirstOutside.append_left {p : Params} {A B : List (Int × Int)} {q : Int × Int} (h : FirstOutside p A q) :
    FirstOutside p (A ++ B) q := by
  obtain ⟨before, after, rfl, hin, hout⟩ := h
  exact ⟨before, after ++ B, by simp, hin, hout⟩

/-- The first point out of bounds of two orders in turn is that of the first, or, where all of the first is in bounds, that of
the second. -/
theorem firstOutside_append {p : Params} {A B : List (Int × Int)} {q : Int × Int} (h : FirstOutside p (A ++ B) q) :
    FirstOutside p A q ∨ ((∀ r ∈ A, InBounds p r.1 r.2) ∧ FirstOutside p B q) := by
  obtain ⟨before, after, e, hin, hout⟩ := h
  induction A generalizing before with
  | nil => exact .inr ⟨by simp, before, after, e, hin, hout⟩
  | cons r A ih =>
    cases before with
    | nil =>
      simp only [List.nil_append, List.cons_append, List.cons.injEq] at e
      obtain ⟨rfl, -⟩ := e
      exact .inl ⟨[], A, rfl, by simp, hout⟩
    | cons r' before =>
      simp only [List.cons_append, List.cons.injEq] at e
      obtain ⟨rfl, e⟩ := e
      have hr := hin r (by simp)
      rcases ih before e fun s hs => hin s (by simp [hs]) with ⟨b, a, rfl, hb, ho⟩ | ⟨hA, hB⟩
      · refine .inl ⟨r :: b, a, rfl, fun s hs => ?_, ho⟩
        rcases List.mem_cons.1 hs with rfl | hs
        · exact hr
        · exact hb s hs
      · refine .inr ⟨fun s hs => ?_, hB⟩
        rcases List.mem_cons.1 hs with rfl | hs
        · exact hr
        · exact hA s hs

theorem rowOrder_succ (y lo : Int) (n : Nat) : rowOrder y lo (n + 1) = (lo, y) :: rowOrder y (lo + 1) n := by
  simp only [rowOrder, List.range_succ_eq_map, List.map_cons, List.map_map]
  congr 1
  · simp
  · refine List.map_congr_left fun i _ => ?_
    simp only [Function.comp_apply, Prod.mk.injEq, and_true]
    push_cast; ring

theorem mem_rowOrder {y lo u v : Int} {n : Nat} : (u, v) ∈ rowOrder y lo n ↔ lo ≤ u ∧ u < lo + n ∧ v = y := by
  simp only [rowOrder, List.mem_map, List.mem_range, Prod.mk.injEq]
  constructor
  · rintro ⟨i, hi, rfl, rfl⟩; exact ⟨by omega, by omega, rfl⟩
  · rintro ⟨h1, h2, rfl⟩; exact ⟨(u - lo).toNat, by omega, by omega, rfl⟩

theorem rectOrder_succ (lo : Int) (n : Nat) (y : Int) (m : Nat) :
    rectOrder lo n y (m + 1) = rowOrder y lo n ++ rectOrder lo n (y + 1) m := by
  simp only [rectOrder, List.range_succ_eq_map, List.flatMap_cons, List.flatMap_map]
  congr 1
  · simp
  · congr 1; funext i; push_cast; congr 1; ring

theorem mem_rectOrder {lo y u v : Int} {n m : Nat} :
    (u, v) ∈ rectOrder lo n y m ↔ (lo ≤ u ∧ u < lo + n) ∧ y ≤ v ∧ v < y + m := by
  simp only [rectOrder, List.mem_flatMap, List.mem_range, mem_rowOrder]
  constructor
  · rintro ⟨j, hj, h1, h2, rfl⟩; exact ⟨⟨h1, h2⟩, by omega, by omega⟩
  · rintro ⟨⟨h1, h2⟩, h3, h4⟩; exact ⟨(v - y).toNat, by omega, h1, h2, by omega⟩

theorem columnPoints_eq (x y : Int) (n : Nat) : columnPoints x n y = columnOrder x y n := by
  induction n generalizing y with
  | zero => rfl
  | succ n ih =>
    simp only [columnPoints, ih, columnOrder, List.range_succ_eq_map, List.map_cons, List.map_map]
    congr 1
    · simp
    · refine List.map_congr_left fun i _ => ?_
      simp only [Function.comp_apply, Prod.mk.injEq, true_and]
      push_cast; ring

theorem mem_columnOrder {x y u v : Int} {n : Nat} : (u, v) ∈ columnOrder x y n ↔ u = x ∧ y ≤ v ∧ v < y + n := by
  simp only [columnOrder, List.mem_map, List.mem_range, Prod.mk.injEq]
  constructor
  · rintro ⟨i, hi, rfl, rfl⟩; exact ⟨rfl, by omega, by omega⟩
  · rintro ⟨rfl, h1, h2⟩; exact ⟨(v - y).toNat, by omega, rfl, by omega⟩

/-! ### One row (R121) -/

theorem firstOutside_none {p : Params} {y x : Int} {n : Nat} (h : ∀ q ∈ rowOrder y x n, InBounds p q.1 q.2) :
    firstOutside p y n x = none := by
  induction n generalizing x with
  | zero => rfl
  | succ n ih =>
    rw [rowOrder_succ] at h
    rw [firstOutside, if_pos (h (x, y) (by simp))]
    exact ih fun q hq => h q (by simp [hq])

theorem firstOutside_some {p : Params} {y x : Int} {n : Nat} {q : Int × Int} (h : FirstOutside p (rowOrder y x n) q) :
    firstOutside p y n x = some q.1 ∧ q.2 = y := by
  induction n generalizing x with
  | zero => obtain ⟨b, a, e, -⟩ := h; simp [rowOrder] at e
  | succ n ih =>
    rw [rowOrder_succ, ← List.singleton_append] at h
    rcases firstOutside_append h with ⟨b, a, e, hb, ho⟩ | ⟨hin, ht⟩
    · cases b with
      | nil =>
        simp only [List.nil_append, List.cons.injEq] at e
        obtain ⟨rfl, -⟩ := e
        exact ⟨if_neg ho, rfl⟩
      | cons r b => simp at e
    · rw [firstOutside, if_pos (hin (x, y) (by simp))]
      exact ih ht

/-- A masked byte paints the pixels of the mask in that byte (R133). -/
theorem applyMask_painted {p : Params} {c : Colour} {m : Byte} {x y : Int} {fb : Memory} (h : fb.wf p.fbBytes)
    (hb : InBounds p x y) (hm : m.getLsbD (7 - x.toNat % 8) = true) :
    Painted p c (fun u v => 0 ≤ u ∧ v = y ∧ u.toNat / 8 = x.toNat / 8 ∧ m.getLsbD (7 - u.toNat % 8) = true) fb
      (applyMask c m (pixelOff p x y) fb) := by
  refine ⟨wf_applyMask h (pixelOff_lt hb), fun u v huv => ?_, fun a ha => ?_⟩
  · have key : (pixelOff p u v = pixelOff p x y ∧ m.getLsbD (7 - u.toNat % 8) = true) ↔
        0 ≤ u ∧ v = y ∧ u.toNat / 8 = x.toNat / 8 ∧ m.getLsbD (7 - u.toNat % 8) = true := by
      rw [pixelOff_eq_iff huv hb, and_assoc]
      exact ⟨fun k => ⟨huv.1, k⟩, And.right⟩
    rw [pix_applyMask h]
    exact ⟨fun hA => if_pos (key.2 hA), fun hA => if_neg fun k => hA (key.1 k)⟩
  · exact Memory.read_write_other h _ fun k => ha x y ⟨hb.1, rfl, rfl, hm⟩ k.symm

/-- Whole bytes of a row, written with a byte of the colour, paint all their pixels. -/
theorem writeRun_painted {p : Params} {c : Colour} {y : Int} {whole : Byte} {n b : Nat} {fb : Memory} (h : fb.wf p.fbBytes)
    (hy0 : 0 ≤ y) (hy : y < p.height) (hn : b + n ≤ p.rowBytes) (bits : ∀ i < 8, whole.getLsbD i = c.bit) :
    Painted p c (fun u v => 0 ≤ u ∧ v = y ∧ b ≤ u.toNat / 8 ∧ u.toNat / 8 < b + n) fb
      (Memory.writeRun whole n (y.toNat * p.rowBytes + b) fb) := by
  have w : p.width = 8 * p.rowBytes := rfl
  have top : y.toNat * p.rowBytes + (b + n) ≤ p.fbBytes := by
    calc y.toNat * p.rowBytes + (b + n) ≤ y.toNat * p.rowBytes + p.rowBytes := by omega
      _ = (y.toNat + 1) * p.rowBytes := by ring
      _ ≤ p.height * p.rowBytes := Nat.mul_le_mul_right _ (by omega)
  have run : y.toNat * p.rowBytes + b + n ≤ p.fbBytes := by omega
  have reads := Memory.read_writeRun whole n (y.toNat * p.rowBytes + b) h run
  refine ⟨Memory.wf_writeRun whole _ _ h run, fun u v huv => ?_, fun a ha => ?_⟩
  · have key : (y.toNat * p.rowBytes + b ≤ pixelOff p u v ∧ pixelOff p u v < y.toNat * p.rowBytes + b + n) ↔
        0 ≤ u ∧ v = y ∧ b ≤ u.toNat / 8 ∧ u.toNat / 8 < b + n := by
      constructor
      · rintro ⟨k1, k2⟩
        obtain ⟨j, hj⟩ : ∃ j, pixelOff p u v = y.toNat * p.rowBytes + j :=
          ⟨pixelOff p u v - y.toNat * p.rowBytes, by omega⟩
        have hjy : InBounds p ((8 * j : Nat) : Int) y := ⟨by omega, by omega, hy0, hy⟩
        have off : pixelOff p ((8 * j : Nat) : Int) y = y.toNat * p.rowBytes + j := by
          simp only [pixelOff, Int.toNat_natCast]; omega
        obtain ⟨e1, e2⟩ := (pixelOff_eq_iff huv hjy).1 (hj.trans off.symm)
        rw [Int.toNat_natCast] at e2
        exact ⟨huv.1, e1, by omega, by omega⟩
      · rintro ⟨-, rfl, k1, k2⟩
        have : pixelOff p u v = v.toNat * p.rowBytes + u.toNat / 8 := rfl
        omega
    unfold pix
    rw [reads]
    refine ⟨fun hA => ?_, fun hA => by rw [if_neg fun k => hA (key.1 k)]⟩
    rw [if_pos (key.2 hA)]
    exact bits _ (by omega)
  · rw [reads, if_neg]
    rintro ⟨k1, k2⟩
    refine ha ((8 * (a - y.toNat * p.rowBytes) : Nat) : Int) y ⟨by omega, rfl, ?_, ?_⟩ ?_
    · rw [Int.toNat_natCast]; omega
    · rw [Int.toNat_natCast]; omega
    · simp only [pixelOff, Int.toNat_natCast]; omega

/-- The bytes of a row span paint exactly its columns. -/
theorem spanBytes_painted {p : Params} {c : Colour} {y lo hi : Int} {fb : Memory} (h : fb.wf p.fbBytes) (hlo : 0 ≤ lo)
    (hle : lo ≤ hi) (hhi : hi < p.width) (hy0 : 0 ≤ y) (hy : y < p.height) :
    Painted p c (fun u v => (lo ≤ u ∧ u ≤ hi) ∧ v = y) fb (spanBytes p c y lo hi fb) := by
  have w : p.width = 8 * p.rowBytes := rfl
  have inL : InBounds p lo y := ⟨hlo, by omega, hy0, hy⟩
  have inH : InBounds p hi y := ⟨by omega, hhi, hy0, hy⟩
  have first : ∀ u : Int, (firstMask lo).getLsbD (7 - u.toNat % 8) = true ↔ lo.toNat % 8 ≤ u.toNat % 8 := fun u => by
    rw [firstMask_getLsbD _ _ (by omega), decide_eq_true_eq]; omega
  have last : ∀ u : Int, (lastMask hi).getLsbD (7 - u.toNat % 8) = true ↔ u.toNat % 8 ≤ hi.toNat % 8 := fun u => by
    rw [lastMask_getLsbD _ _ (by omega), decide_eq_true_eq]; omega
  unfold spanBytes
  simp only
  split
  · rename_i e
    have hm : (firstMask lo &&& lastMask hi).getLsbD (7 - lo.toNat % 8) = true := by
      rw [BitVec.getLsbD_and, (first lo).2 (le_refl _), (last lo).2 (by omega)]; rfl
    refine (applyMask_painted (c := c) h inL hm).congr fun u v => ?_
    rw [BitVec.getLsbD_and, Bool.and_eq_true, first, last]
    omega
  · rename_i e
    have p1 := applyMask_painted (c := c) h inL ((first lo).2 (le_refl _))
    have p2 := writeRun_painted (c := c) (whole := if c.bit then 0xFF else 0x00) (n := hi.toNat / 8 - (lo.toNat / 8 + 1))
      (b := lo.toNat / 8 + 1) p1.1 hy0 hy (by omega) (by
        intro i hi
        cases c
        · simp [Colour.bit]
        · simp [Colour.bit, getLsbD_0xFF, hi])
    have p3 := applyMask_painted (c := c) p2.1 inH ((last hi).2 (le_refl _))
    refine ((p1.trans p2).trans p3).congr fun u v => ?_
    rw [first, last]
    omega

theorem rowSpan_ok {p : Params} {c : Colour} {y lo hi : Int} {fb : Memory} (h : fb.wf p.fbBytes) (hle : lo ≤ hi)
    (hb : ∀ q ∈ rowOrder y lo (spanCount lo hi), InBounds p q.1 q.2) :
    ∃ fb', rowSpan p c y lo hi fb = .ok fb' ∧ Painted p c (fun u v => (u, v) ∈ rowOrder y lo (spanCount lo hi)) fb fb' := by
  have bl := hb (lo, y) (mem_rowOrder.2 ⟨le_refl _, by simp only [spanCount]; omega, rfl⟩)
  have bh := hb (hi, y) (mem_rowOrder.2 ⟨hle, by simp only [spanCount]; omega, rfl⟩)
  have e := firstOutside_none hb
  refine ⟨spanBytes p c y lo hi fb, by rw [rowSpan, ← spanCount, e],
    (spanBytes_painted h bl.1 hle bh.2.1 bl.2.2.1 bl.2.2.2).congr fun u v => ?_⟩
  rw [mem_rowOrder]
  simp only [spanCount]
  constructor
  · rintro ⟨⟨h1, h2⟩, rfl⟩; exact ⟨h1, by omega, rfl⟩
  · rintro ⟨h1, h2, rfl⟩; exact ⟨⟨h1, by omega⟩, rfl⟩

theorem rowSpan_error {p : Params} {c : Colour} {y lo hi : Int} {fb : Memory} {q : Int × Int}
    (h : FirstOutside p (rowOrder y lo (spanCount lo hi)) q) : rowSpan p c y lo hi fb = .error (outOfBounds q.1 q.2) := by
  obtain ⟨e, rfl⟩ := firstOutside_some h
  rw [rowSpan, ← spanCount, e]

/-! ### Rows in turn (R122, R128) -/

theorem rowSpans_ok {p : Params} {c : Colour} {lo hi y : Int} {n : Nat} {fb : Memory} (h : fb.wf p.fbBytes) (hle : lo ≤ hi)
    (hb : ∀ q ∈ rectOrder lo (spanCount lo hi) y n, InBounds p q.1 q.2) :
    ∃ fb', rowSpans p c lo hi n y fb = .ok fb' ∧
      Painted p c (fun u v => (u, v) ∈ rectOrder lo (spanCount lo hi) y n) fb fb' := by
  induction n generalizing y fb with
  | zero => exact ⟨fb, rfl, (Painted.refl h).congr (by simp [rectOrder])⟩
  | succ n ih =>
    rw [rectOrder_succ] at hb ⊢
    obtain ⟨fb1, e1, p1⟩ := rowSpan_ok (c := c) h hle fun q hq => hb q (List.mem_append_left _ hq)
    obtain ⟨fb2, e2, p2⟩ := ih p1.1 fun q hq => hb q (List.mem_append_right _ hq)
    exact ⟨fb2, by simp only [rowSpans, e1, e2], (p1.trans p2).congr fun u v => by simp⟩

theorem rowSpans_error {p : Params} {c : Colour} {lo hi y : Int} {n : Nat} {fb : Memory} {q : Int × Int}
    (h : FirstOutside p (rectOrder lo (spanCount lo hi) y n) q) :
    rowSpans p c lo hi n y fb = .error (outOfBounds q.1 q.2) := by
  induction n generalizing y fb with
  | zero => obtain ⟨b, a, e, -⟩ := h; simp [rectOrder] at e
  | succ n ih =>
    rw [rectOrder_succ] at h
    rcases firstOutside_append h with h1 | ⟨hin, h2⟩
    · simp only [rowSpans, rowSpan_error h1]
    · have e : rowSpan p c y lo hi fb = .ok (spanBytes p c y lo hi fb) := by
        rw [rowSpan, ← spanCount, firstOutside_none hin]
      simp only [rowSpans, e]
      exact ih h2

/-! ### The runs and rectangles of the commands -/

theorem mem_rectOrder_span {lo hi y u v : Int} {n : Nat} :
    (u, v) ∈ rectOrder lo (spanCount lo hi) y n ↔ (lo ≤ u ∧ u ≤ hi) ∧ y ≤ v ∧ v < y + n := by
  rw [mem_rectOrder]; simp only [spanCount]; omega

/-- A horizontal run with its pixels in bounds paints exactly them (R123). -/
theorem horizontalRun_ok {p : Params} {c : Colour} {x1 x2 y : Int} {t : Nat} {fb : Memory} (h : fb.wf p.fbBytes)
    (hb : AllInBounds p (RunPixels x1 x2 t y)) :
    ∃ fb', horizontalRun p c x1 x2 t y fb = .ok fb' ∧ Painted p c (RunPixels x1 x2 t y) fb fb' := by
  have order : ∀ u v, (u, v) ∈ rectOrder (min x1 x2) (spanCount (min x1 x2) (max x1 x2)) y t ↔ RunPixels x1 x2 t y u v :=
    fun u v => mem_rectOrder_span
  obtain ⟨fb', e, hp⟩ := rowSpans_ok (c := c) h (by omega : min x1 x2 ≤ max x1 x2)
    (fun q hq => hb q.1 q.2 ((order q.1 q.2).1 hq))
  exact ⟨fb', e, hp.congr order⟩

/-- A vertical run with its pixels in bounds paints exactly them (R125). -/
theorem verticalRun_ok {p : Params} {c : Colour} {x y1 y2 : Int} {fb : Memory} (h : fb.wf p.fbBytes)
    (hb : AllInBounds p (ColumnPixels x y1 y2)) :
    ∃ fb', verticalRun p c x y1 y2 fb = .ok fb' ∧ Painted p c (ColumnPixels x y1 y2) fb fb' := by
  have order : ∀ u v, (u, v) ∈ columnOrder x (min y1 y2) (max y1 y2 - min y1 y2 + 1).toNat ↔ ColumnPixels x y1 y2 u v := by
    intro u v; rw [mem_columnOrder, ColumnPixels]; omega
  rw [verticalRun, columnPoints_eq]
  obtain ⟨fb', e, hp⟩ := paintAll_ok (c := c) h (fun q hq => hb q.1 q.2 ((order q.1 q.2).1 hq))
  exact ⟨fb', e, hp.congr order⟩

/-- A filled rectangle with its pixels in bounds paints exactly them (R128). -/
theorem filledRect_ok {p : Params} {c : Colour} {xMin yMin xMax yMax : Int} {fb : Memory} (h : fb.wf p.fbBytes)
    (valid : ValidRect xMin yMin xMax yMax) (hb : AllInBounds p (RectPixels xMin yMin xMax yMax)) :
    ∃ fb', filledRect p c xMin yMin xMax yMax fb = .ok fb' ∧ Painted p c (RectPixels xMin yMin xMax yMax) fb fb' := by
  have order : ∀ u v, (u, v) ∈ rectOrder xMin (spanCount xMin xMax) yMin (yMax - yMin + 1).toNat ↔
      RectPixels xMin yMin xMax yMax u v := by
    intro u v; rw [mem_rectOrder_span, RectPixels]; omega
  obtain ⟨fb', e, hp⟩ := rowSpans_ok (c := c) h valid.1 (fun q hq => hb q.1 q.2 ((order q.1 q.2).1 hq))
  exact ⟨fb', by rw [filledRect, if_pos valid, e], hp.congr order⟩

/-- An outline with its pixels in bounds paints exactly them (R131). -/
theorem outlinedRect_ok {p : Params} {c : Colour} {xMin yMin xMax yMax : Int} {fb : Memory} (h : fb.wf p.fbBytes)
    (valid : ValidRect xMin yMin xMax yMax) (hb : AllInBounds p (OutlinePixels xMin yMin xMax yMax)) :
    ∃ fb', outlinedRect p c xMin yMin xMax yMax fb = .ok fb' ∧ Painted p c (OutlinePixels xMin yMin xMax yMax) fb fb' := by
  obtain ⟨vx, vy⟩ := valid
  have row : ∀ y, y = yMin ∨ y = yMax → AllInBounds p (RunPixels xMin xMax 1 y) := fun y hy u v huv => by
    simp only [RunPixels] at huv
    exact hb u v ⟨⟨by omega, by omega⟩, by omega⟩
  have column : ∀ x, x = xMin ∨ x = xMax → AllInBounds p (ColumnPixels x yMin yMax) := fun x hx u v huv => by
    simp only [ColumnPixels] at huv
    exact hb u v ⟨⟨by omega, by omega⟩, by omega⟩
  obtain ⟨fb1, e1, p1⟩ := horizontalRun_ok (c := c) h (row yMin (.inl rfl))
  obtain ⟨fb2, e2, p2⟩ := horizontalRun_ok (c := c) p1.1 (row yMax (.inr rfl))
  obtain ⟨fb3, e3, p3⟩ := verticalRun_ok (c := c) p2.1 (column xMin (.inl rfl))
  obtain ⟨fb4, e4, p4⟩ := verticalRun_ok (c := c) p3.1 (column xMax (.inr rfl))
  refine ⟨fb4, ?_, (((p1.trans p2).trans p3).trans p4).congr fun u v => ?_⟩
  · rw [outlinedRect, if_pos ⟨vx, vy⟩]
    simp only [e1, e2, e3, e4]
  · simp only [RunPixels, ColumnPixels, OutlinePixels, RectPixels]; omega

/-- The first point out of bounds of a vertical run is the one reported (R251). -/
theorem verticalRun_error {p : Params} {c : Colour} {x y1 y2 : Int} {fb : Memory} {q : Int × Int}
    (h : FirstOutside p (columnOrder x (min y1 y2) (spanCount (min y1 y2) (max y1 y2))) q) :
    verticalRun p c x y1 y2 fb = .error (outOfBounds q.1 q.2) := by
  rw [verticalRun, columnPoints_eq]; exact paintAll_error h

/-- The first point out of bounds of an outline, edge after edge, is the one reported (R251). -/
theorem outlinedRect_error {p : Params} {c : Colour} {xMin yMin xMax yMax : Int} {fb : Memory} {q : Int × Int}
    (hfb : fb.wf p.fbBytes) (valid : ValidRect xMin yMin xMax yMax)
    (h : FirstOutside p (rowOrder yMin xMin (spanCount xMin xMax) ++ rowOrder yMax xMin (spanCount xMin xMax) ++
      columnOrder xMin yMin (spanCount yMin yMax) ++ columnOrder xMax yMin (spanCount yMin yMax)) q) :
    outlinedRect p c xMin yMin xMax yMax fb = .error (outOfBounds q.1 q.2) := by
  obtain ⟨vx, vy⟩ := valid
  have one : ∀ y, rectOrder xMin (spanCount xMin xMax) y 1 = rowOrder y xMin (spanCount xMin xMax) := fun y => by
    simp [rectOrder]
  have run : ∀ y fb, horizontalRun p c xMin xMax 1 y fb = rowSpans p c xMin xMax 1 y fb := fun y fb => by
    rw [horizontalRun, min_eq_left vx, max_eq_right vx]
  have rowOk : ∀ y fb, fb.wf p.fbBytes → (∀ r ∈ rowOrder y xMin (spanCount xMin xMax), InBounds p r.1 r.2) →
      ∃ fb', horizontalRun p c xMin xMax 1 y fb = .ok fb' ∧ fb'.wf p.fbBytes := fun y fb hf hin => by
    obtain ⟨fb', e, hp⟩ := rowSpans_ok (c := c) (n := 1) hf vx (by rw [one]; exact hin)
    exact ⟨fb', by rw [run, e], hp.1⟩
  have colOk : ∀ x fb, fb.wf p.fbBytes → (∀ r ∈ columnOrder x yMin (spanCount yMin yMax), InBounds p r.1 r.2) →
      ∃ fb', verticalRun p c x yMin yMax fb = .ok fb' ∧ fb'.wf p.fbBytes := fun x fb hf hin => by
    obtain ⟨fb', e, hp⟩ := paintAll_ok (c := c) hf hin
    refine ⟨fb', ?_, hp.1⟩
    rw [verticalRun, columnPoints_eq, min_eq_left vy, max_eq_right vy]; exact e
  have colError : ∀ x fb, FirstOutside p (columnOrder x yMin (spanCount yMin yMax)) q →
      verticalRun p c x yMin yMax fb = .error (outOfBounds q.1 q.2) := fun x fb k =>
    verticalRun_error (by rw [min_eq_left vy, max_eq_right vy]; exact k)
  rw [outlinedRect, if_pos ⟨vx, vy⟩]
  rcases firstOutside_append h with h123 | ⟨in123, h4⟩
  · rcases firstOutside_append h123 with h12 | ⟨in12, h3⟩
    · rcases firstOutside_append h12 with h1 | ⟨in1, h2⟩
      · simp only [run, rowSpans_error (n := 1) (by rw [one]; exact h1)]
      · obtain ⟨fb1, e1, w1⟩ := rowOk yMin fb hfb in1
        have e2 : horizontalRun p c xMin xMax 1 yMax fb1 = .error (outOfBounds q.1 q.2) := by
          rw [run]; exact rowSpans_error (n := 1) (by rw [one]; exact h2)
        simp only [e1, e2]
    · obtain ⟨fb1, e1, w1⟩ := rowOk yMin fb hfb fun r hr => in12 r (List.mem_append_left _ hr)
      obtain ⟨fb2, e2, w2⟩ := rowOk yMax fb1 w1 fun r hr => in12 r (List.mem_append_right _ hr)
      simp only [e1, e2, colError xMin fb2 h3]
  · obtain ⟨fb1, e1, w1⟩ := rowOk yMin fb hfb fun r hr => in123 r (List.mem_append_left _ (List.mem_append_left _ hr))
    obtain ⟨fb2, e2, w2⟩ := rowOk yMax fb1 w1 fun r hr => in123 r (List.mem_append_left _ (List.mem_append_right _ hr))
    obtain ⟨fb3, e3, w3⟩ := colOk xMin fb2 w2 fun r hr => in123 r (List.mem_append_right _ hr)
    simp only [e1, e2, e3, colError xMax fb3 h4]

/-- Rows in turn keep the canonical form whenever they complete. -/
theorem rowSpans_wf {p : Params} {c : Colour} {lo hi y : Int} {n : Nat} {fb fb' : Memory} (h : fb.wf p.fbBytes) (hle : lo ≤ hi)
    (e : rowSpans p c lo hi n y fb = .ok fb') : fb'.wf p.fbBytes := by
  rcases firstOutside_or_all p (rectOrder lo (spanCount lo hi) y n) with all | ⟨q, hq⟩
  · obtain ⟨fb1, e1, p1⟩ := rowSpans_ok (c := c) h hle all
    rw [e1] at e; cases e; exact p1.1
  · rw [rowSpans_error hq] at e; cases e

/-- A horizontal run keeps the canonical form whenever it completes. -/
theorem horizontalRun_wf {p : Params} {c : Colour} {x1 x2 y : Int} {t : Nat} {fb fb' : Memory} (h : fb.wf p.fbBytes)
    (e : horizontalRun p c x1 x2 t y fb = .ok fb') : fb'.wf p.fbBytes := rowSpans_wf h (by omega) e

/-- A vertical run keeps the canonical form whenever it completes. -/
theorem verticalRun_wf {p : Params} {c : Colour} {x y1 y2 : Int} {fb fb' : Memory} (h : fb.wf p.fbBytes)
    (e : verticalRun p c x y1 y2 fb = .ok fb') : fb'.wf p.fbBytes := paintAll_wf h e

/-- A filled rectangle keeps the canonical form whenever it completes. -/
theorem filledRect_wf {p : Params} {c : Colour} {xMin yMin xMax yMax : Int} {fb fb' : Memory} (h : fb.wf p.fbBytes)
    (e : filledRect p c xMin yMin xMax yMax fb = .ok fb') : fb'.wf p.fbBytes := by
  unfold filledRect at e
  split at e
  · rename_i valid; exact rowSpans_wf h valid.1 e
  · cases e

/-- An outline keeps the canonical form whenever it completes. -/
theorem outlinedRect_wf {p : Params} {c : Colour} {xMin yMin xMax yMax : Int} {fb fb' : Memory} (h : fb.wf p.fbBytes)
    (e : outlinedRect p c xMin yMin xMax yMax fb = .ok fb') : fb'.wf p.fbBytes := by
  unfold outlinedRect at e
  split at e
  · split at e
    · cases e
    · rename_i fb1 e1
      split at e
      · cases e
      · rename_i fb2 e2
        split at e
        · cases e
        · rename_i fb3 e3
          exact verticalRun_wf (verticalRun_wf (horizontalRun_wf (horizontalRun_wf h e1) e2) e3) e
  · cases e

end Sys2Proof.Machine
end

