-- ==== Sys2Proof/Laws/Text.lean ====
section
/-! SUPPORT. Text: which points a glyph paints, and what `drawGlyph` and `drawChars` do to the canvas. -/

namespace Sys2Proof.Machine

/-- The points a glyph paints are its set pixels (R191), placed at the cursor (R192). -/
theorem mem_glyphPoints {g : Glyph} {col row : Nat} {u v : Int} : (u, v) ∈ glyphPoints g col row ↔
    ∃ gy bi bit, gy < g.h.toNat ∧ bi < g.wb.toNat ∧ bit < 8 ∧ glyphBit g gy bi bit = true ∧
      u = ((col + 8 * bi + bit : Nat) : Int) ∧ v = ((row + gy : Nat) : Int) := by
  simp only [glyphPoints, List.mem_flatMap, List.mem_range, List.mem_map, List.mem_filter, Prod.mk.injEq]
  constructor
  · rintro ⟨gy, hgy, bi, hbi, bit, ⟨hbit, hset⟩, rfl, rfl⟩
    exact ⟨gy, bi, bit, hgy, hbi, hbit, hset, rfl, rfl⟩
  · rintro ⟨gy, bi, bit, hgy, hbi, hbit, hset, rfl, rfl⟩
    exact ⟨gy, hgy, bi, hbi, bit, ⟨hbit, hset⟩, rfl, rfl⟩

/-- A glyph bit is bit `7 - bit` of its bitmap byte (R191). -/
theorem glyphBit_eq (g : Glyph) (gy bi bit : Nat) (h : bit < 8) :
    glyphBit g gy bi bit = (g.bm.toList.getD (gy * g.wb.toNat + bi) 0).getLsbD (7 - bit) := by
  have mask : ∀ b : Fin 8, ∀ i : Fin 8, (0x80#8 >>> b.val).getLsbD i = decide (i.val = 7 - b.val) := by decide
  have bits : ∀ i, i < 8 → (0x80#8 >>> bit).getLsbD i = decide (i = 7 - bit) := fun i hi => mask ⟨bit, h⟩ ⟨i, hi⟩
  unfold glyphBit
  generalize g.bm.toList.getD (gy * g.wb.toNat + bi) 0 = b
  cases hb : b.getLsbD (7 - bit)
  · have : b &&& 0x80#8 >>> bit = 0 := by
      refine BitVec.eq_of_getLsbD_eq fun i hi => ?_
      rw [BitVec.getLsbD_and, bits i hi]
      by_cases e : i = 7 - bit
      · subst e; simp [hb]
      · simp [e]
    rw [this]; rfl
  · have : b &&& 0x80#8 >>> bit ≠ 0 := fun k => by
      have := congrArg (fun w : Byte => w.getLsbD (7 - bit)) k
      simp only [BitVec.getLsbD_and, bits (7 - bit) (by omega), hb, decide_true, Bool.and_true] at this
      exact absurd this (by simp)
    exact bne_iff_ne.2 this

theorem drawGlyph_ok {p : Params} {g : Glyph} {t : Canvas} (h : t.fb.wf p.fbBytes)
    (hb : ∀ q ∈ glyphPoints g (zext16 t.col) (zext16 t.row), InBounds p q.1 q.2) :
    ∃ fb', drawGlyph p g t =
        .ok { fb := fb', col := (advanceCursor p g t.col t.row).1, row := (advanceCursor p g t.col t.row).2 } ∧
      Painted p .fg (fun x y => (x, y) ∈ glyphPoints g (zext16 t.col) (zext16 t.row)) t.fb fb' := by
  obtain ⟨fb', e, hp⟩ := paintAll_ok (c := .fg) h hb
  exact ⟨fb', by simp only [drawGlyph, e], hp⟩

theorem drawGlyph_error {p : Params} {g : Glyph} {t : Canvas} {q : Int × Int}
    (h : FirstOutside p (glyphPoints g (zext16 t.col) (zext16 t.row)) q) :
    drawGlyph p g t = .error (outOfBounds q.1 q.2) := by
  simp only [drawGlyph, paintAll_error h]

theorem drawChars_ok {p : Params} {font : Byte} {text : List Byte} {t : Canvas} (h : t.fb.wf p.fbBytes)
    (hb : ∀ q ∈ textOrder p font text t.col t.row, InBounds p q.1 q.2) :
    ∃ fb', drawChars p font text t =
        .ok { fb := fb', col := (textCursor p font text t.col t.row).1, row := (textCursor p font text t.col t.row).2 } ∧
      Painted p .fg (fun x y => (x, y) ∈ textOrder p font text t.col t.row) t.fb fb' := by
  induction text generalizing t with
  | nil => exact ⟨t.fb, rfl, (Painted.refl h).congr (by simp [textOrder])⟩
  | cons ch text ih =>
    obtain ⟨fb1, e1, p1⟩ := drawGlyph_ok (g := p.font.glyph ch font) h fun q hq => hb q (List.mem_append_left _ hq)
    obtain ⟨fb2, e2, p2⟩ := ih (t := .mk fb1 (advanceCursor p (p.font.glyph ch font) t.col t.row).1
      (advanceCursor p (p.font.glyph ch font) t.col t.row).2) p1.1 fun q hq => hb q (List.mem_append_right _ hq)
    refine ⟨fb2, by simp only [drawChars, e1, e2, textCursor], (p1.trans p2).congr fun u v => ?_⟩
    simp only [textOrder, List.mem_append]

theorem drawChars_error {p : Params} {font : Byte} {text : List Byte} {t : Canvas} {q : Int × Int}
    (h : FirstOutside p (textOrder p font text t.col t.row) q) (hw : t.fb.wf p.fbBytes) :
    drawChars p font text t = .error (outOfBounds q.1 q.2) := by
  induction text generalizing t with
  | nil => obtain ⟨b, a, e, -⟩ := h; simp [textOrder] at e
  | cons ch text ih =>
    rcases firstOutside_append h with h1 | ⟨hin, h2⟩
    · simp only [drawChars, drawGlyph_error h1]
    · obtain ⟨fb1, e1, p1⟩ := drawGlyph_ok (g := p.font.glyph ch font) hw hin
      simp only [drawChars, e1]
      exact ih h2 p1.1

/-- Text that completes keeps the canonical form. -/
theorem drawChars_wf {p : Params} {font : Byte} {text : List Byte} {t t' : Canvas} (h : t.fb.wf p.fbBytes)
    (e : drawChars p font text t = .ok t') : t'.fb.wf p.fbBytes := by
  rcases firstOutside_or_all p (textOrder p font text t.col t.row) with all | ⟨q, hq⟩
  · obtain ⟨fb1, e1, p1⟩ := drawChars_ok h all
    rw [e1] at e
    cases e
    exact p1.1
  · rw [drawChars_error hq h] at e
    cases e

/-- One glyph that completes keeps the canonical form. -/
theorem drawGlyph_wf {p : Params} {g : Glyph} {t t' : Canvas} (h : t.fb.wf p.fbBytes) (e : drawGlyph p g t = .ok t') :
    t'.fb.wf p.fbBytes := by
  rcases firstOutside_or_all p (glyphPoints g (zext16 t.col) (zext16 t.row)) with all | ⟨q, hq⟩
  · obtain ⟨fb1, e1, p1⟩ := drawGlyph_ok h all
    rw [e1] at e
    cases e
    exact p1.1
  · rw [drawGlyph_error hq] at e
    cases e

/-- The points of a glyph are the pixels its set bits fall on (R191). -/
theorem mem_glyphPoints_iff {g : Glyph} {col row : Nat} {u v : Int} :
    (u, v) ∈ glyphPoints g col row ↔ GlyphPixels g col row u v := by
  rw [mem_glyphPoints]
  constructor
  · rintro ⟨gy, bi, bit, h1, h2, h3, h4, rfl, rfl⟩
    have e1 : (8 * bi + bit) / 8 = bi := by omega
    have e2 : (8 * bi + bit) % 8 = bit := by omega
    rw [glyphBit_eq _ _ _ _ h3] at h4
    exact ⟨8 * bi + bit, gy, h1, by omega, by rw [e1, e2]; exact h4, by push_cast; ring, by push_cast; rfl⟩
  · rintro ⟨gx, gy, h1, h2, h4, rfl, rfl⟩
    have h3 : gx % 8 < 8 := by omega
    refine ⟨gy, gx / 8, gx % 8, h1, by omega, h3, by rw [glyphBit_eq _ _ _ _ h3]; exact h4, ?_, by push_cast; rfl⟩
    have : col + 8 * (gx / 8) + gx % 8 = col + gx := by omega
    rw [this]; push_cast; rfl

/-- A glyph raises nothing but PIXEL_OUT_OF_BOUNDS. -/
theorem drawGlyph_error_kind {p : Params} {g : Glyph} {t : Canvas} {r : Raise} (e : drawGlyph p g t = .error r) :
    ∃ x y, r = outOfBounds x y := by
  unfold drawGlyph at e
  split at e
  · cases e
  · rename_i h; cases e; exact paintAll_error_kind h

/-- A string raises nothing but PIXEL_OUT_OF_BOUNDS. -/
theorem drawChars_error_kind {p : Params} {font : Byte} {text : List Byte} {t : Canvas} {r : Raise}
    (e : drawChars p font text t = .error r) : ∃ x y, r = outOfBounds x y := by
  induction text generalizing t with
  | nil => cases e
  | cons ch text ih =>
    unfold drawChars at e
    split at e
    · exact ih e
    · rename_i h; cases e; exact drawGlyph_error_kind h

end Sys2Proof.Machine
end

