-- ==== Sys2Proof/Laws/Step.lean ====
section
/-! SUPPORT. Everything one command, one action and one step can do, said once. -/

namespace Sys2Proof.Machine

/-! ### Fault entry -/

theorem raiseDrawing_eq (r : Raise) (s : State) : ∃ fb draws, s.raiseDrawing r = { s.raise r with fb := fb, draws := draws } ∧
    (s.fb.wf s.params.fbBytes → fb.wf s.params.fbBytes) ∧ (r.kind ≠ .pixelOutOfBounds → fb = s.fb ∧ draws = s.draws) := by
  obtain ⟨kind, info⟩ := r
  cases kind with
  | pixelOutOfBounds => exact ⟨_, _, rfl, fun _ => Memory.wf_draw _ _, fun h => absurd rfl h⟩
  | illegalCommand | invalidRect | invalidRadius | transportOverlap | commandOverrun | fbAddressRange =>
    exact ⟨s.fb, s.draws, rfl, id, fun _ => ⟨rfl, rfl⟩⟩

theorem raiseText_eq (r : Raise) (s : State) :
    ∃ fb draws col row, s.raiseText r = { s.raise r with fb := fb, draws := draws, col := col, row := row } ∧
      (s.fb.wf s.params.fbBytes → fb.wf s.params.fbBytes) ∧
      (r.kind ≠ .pixelOutOfBounds → fb = s.fb ∧ draws = s.draws ∧ col = s.col ∧ row = s.row) := by
  obtain ⟨kind, info⟩ := r
  cases kind with
  | pixelOutOfBounds => exact ⟨_, _, _, _, rfl, fun _ => Memory.wf_draw _ _, fun h => absurd rfl h⟩
  | illegalCommand | invalidRect | invalidRadius | transportOverlap | commandOverrun | fbAddressRange =>
    exact ⟨s.fb, s.draws, s.col, s.row, rfl, id, fun _ => ⟨rfl, rfl, rfl, rfl⟩⟩

/-- An out-of-bounds pixel enters the fault with its code and coordinates, and frees the framebuffer. -/
theorem pixelFault_raiseDrawing (x y : Int) (s : State) : PixelFault x y s (s.raiseDrawing (outOfBounds x y)) :=
  ⟨_, _, rfl⟩

/-- The same for a text command, where the cursor is free too. -/
theorem textPixelFault_raiseText (x y : Int) (s : State) : TextPixelFault x y s (s.raiseText (outOfBounds x y)) :=
  ⟨_, _, _, _, rfl⟩

/-! ### One command -/

/-- How a drawing command `i` ends (R104): completed, or faulted. -/
inductive DrawEnds (i : Instr) (s : State) : State → Prop where
  | done (fb : Memory) (col row : Half) :
      (s.fb.wf s.params.fbBytes → fb.wf s.params.fbBytes) →
      (cursorCommand i = false → col = s.col ∧ row = s.row) →
      DrawEnds i s { s with fb := fb, col := col, row := row }
  | faulted (r : Raise) (fb : Memory) (draws : Nat) (col row : Half) :
      (s.fb.wf s.params.fbBytes → fb.wf s.params.fbBytes) →
      (r.kind ≠ .pixelOutOfBounds → fb = s.fb ∧ col = s.col ∧ row = s.row) →
      (textCommand i = false → col = s.col ∧ row = s.row) →
      DrawEnds i s { s.raise r with fb := fb, draws := draws, col := col, row := row }

/-- A drawing command that paints and does not move the cursor. -/
theorem DrawEnds.ofFinishDrawing {i : Instr} {s : State} {res : Except Raise Memory}
    (h : ∀ fb, s.fb.wf s.params.fbBytes → res = .ok fb → fb.wf s.params.fbBytes) : DrawEnds i s (s.finishDrawing res) := by
  cases res with
  | ok fb => exact .done fb s.col s.row (fun w => h fb w rfl) fun _ => ⟨rfl, rfl⟩
  | error r =>
    obtain ⟨fb, draws, e, w, keep⟩ := raiseDrawing_eq r s
    show DrawEnds i s (s.raiseDrawing r)
    rw [e]
    exact .faulted r fb draws s.col s.row w (fun k => ⟨(keep k).1, rfl, rfl⟩) fun _ => ⟨rfl, rfl⟩

/-- A text command. -/
theorem DrawEnds.ofFinishText {i : Instr} {s : State} {res : Except Raise Canvas} (ht : textCommand i = true)
    (hc : cursorCommand i = true) (h : ∀ t, s.fb.wf s.params.fbBytes → res = .ok t → t.fb.wf s.params.fbBytes) :
    DrawEnds i s (s.finishText res) := by
  cases res with
  | ok t => exact .done t.fb t.col t.row (fun w => h t w rfl) fun k => by rw [hc] at k; cases k
  | error r =>
    obtain ⟨fb, draws, col, row, e, w, keep⟩ := raiseText_eq r s
    show DrawEnds i s (s.raiseText r)
    rw [e]
    exact .faulted r fb draws col row w (fun k => ⟨(keep k).1, (keep k).2.2⟩) fun k => by rw [ht] at k; cases k

/-- Everything a drawing command can do. -/
theorem exec_drawing {i : Instr} {s t : State} (hd : drawingCommand i = true) (h : exec i s = .next t) : DrawEnds i s t := by
  cases i <;> simp only [exec, drawingCommand, Bool.false_eq_true] at h hd
  case fill v =>
    cases h
    exact .done (fillAll s.params v) s.col s.row (fun _ => Memory.wf_build _ _ _ _ (by omega)) fun _ => ⟨rfl, rfl⟩
  case setCursor col row => cases h; exact .done s.fb col row id fun k => by cases k
  case setPixel c x y =>
    cases h
    refine .ofFinishDrawing fun fb w e => ?_
    unfold paint at e
    split at e
    · rename_i hb; cases e; exact wf_applyMask w (pixelOff_lt hb)
    · cases e
  case hrun => cases h; exact .ofFinishDrawing fun fb w e => horizontalRun_wf w e
  case vrun => cases h; exact .ofFinishDrawing fun fb w e => verticalRun_wf w e
  case fillRect => cases h; exact .ofFinishDrawing fun fb w e => filledRect_wf w e
  case drawRect => cases h; exact .ofFinishDrawing fun fb w e => outlinedRect_wf w e
  case line => cases h; exact .ofFinishDrawing fun fb w e => paintAll_wf w e
  case circle =>
    cases h
    refine .ofFinishDrawing fun fb w e => ?_
    unfold circleOutline at e
    split at e
    · cases e
    · exact paintAll_wf w e
  case drawChar => cases h; exact .ofFinishText rfl rfl fun t w e => drawGlyph_wf w e
  case drawString => cases h; exact .ofFinishText rfl rfl fun t w e => drawChars_wf w e

/-- Every command answers a next state. -/
theorem exec_next (i : Instr) (s : State) : ∃ t, exec i s = .next t := by cases i <;> exact ⟨_, rfl⟩

/-- Everything a transport command can do (R213, R218, R222). -/
theorem exec_transport {i : Instr} {s t : State} (hd : drawingCommand i = false) (h : exec i s = .next t) :
    (i ≠ .toggleVcom ∧ ∃ op bytes, WireBytes s.params op bytes ∧ op ≠ .toggleVcom ∧ t = s.startTransaction op bytes) ∨
    (i = .toggleVcom ∧ s.skip = false ∧ ∃ bytes, WireBytes s.params .toggleVcom bytes ∧
      t = s.flipVcom.startTransaction .toggleVcom bytes) ∨
    (i = .toggleVcom ∧ s.skip = true ∧ t = { s.flipVcom with skip := false }) := by
  cases i <;> simp only [drawingCommand, Bool.true_eq_false] at hd
  case write => cases h; exact .inl ⟨by simp, _, _, .write s.fb s.vcom, by simp, rfl⟩
  case clearScreen => cases h; exact .inl ⟨by simp, _, _, .clearScreen s.vcom, by simp, rfl⟩
  case toggleVcom =>
    simp only [exec, execToggleVcom] at h
    cases h
    by_cases k : s.skip = true
    · exact .inr (.inr ⟨rfl, k, by rw [if_pos k]⟩)
    · exact .inr (.inl ⟨rfl, by simpa using k, _, .toggleVcom _, by rw [if_neg k]⟩)

/-! ### One action -/

/-- Everything an action can do to the core. -/
inductive ActEnds (a : Action) (s : State) : State → Prop where
  /-- The host reads, the bus changes its levels, or the core is halted. -/
  | same (t : State) : a ≠ .reset → SameCore s t → ActEnds a s t
  /-- The core raises a fault at its port, window or tick input. -/
  | port (r : Raise) : a ≠ .reset → s.fault = false → r.kind ≠ .pixelOutOfBounds → ActEnds a s (s.raise r)
  /-- The host writes a byte. -/
  | window (off : Int) (v : Byte) : a = .writeFB off v → s.fault = false → s.busy = false → InWindow s.params off →
      ActEnds a s { s with fb := s.fb.write off.toNat v }
  /-- A drawing command runs. -/
  | drawing (w : List Word) (i : Instr) (t : State) : a = .submit w → decode w = .ok i → drawingCommand i = true →
      s.fault = false → s.busy = false → DrawEnds i s t → ActEnds a s t
  /-- A WRITE or CLEAR_SCREEN starts. -/
  | refresh (w : List Word) (i : Instr) (op : TransportOp) (bytes : List Byte) : a = .submit w → decode w = .ok i →
      drawingCommand i = false → s.fault = false → s.busy = false → WireBytes s.params op bytes →
      ActEnds a s (s.startTransaction op bytes)
  /-- A toggle starts its transaction. -/
  | toggle (bytes : List Byte) : a = .tick ∨ submits (fun i => decide (i = .toggleVcom)) a = true →
      s.fault = false → s.busy = false → s.skip = false → WireBytes s.params .toggleVcom bytes →
      ActEnds a s (s.flipVcom.startTransaction .toggleVcom bytes)
  /-- A toggle is skipped. -/
  | skipped : a = .tick ∨ submits (fun i => decide (i = .toggleVcom)) a = true →
      s.fault = false → s.busy = false → s.skip = true → ActEnds a s { s.flipVcom with skip := false }
  /-- The core takes its own step. -/
  | core (t : State) : a = .core → coreStep s = .next t → ActEnds a s t
  /-- Reset. -/
  | reset : a = .reset → ActEnds a s (resetCore s)

theorem SameCore.refl (s : State) : SameCore s s := rfl

theorem act_cases {a : Action} {s t : State} (h : act a s = .next t) : ActEnds a s t := by
  cases a <;> simp only [act] at h
  case submit w =>
    unfold submit at h
    split at h
    · cases h; exact .same s (by simp) (.refl s)
    · rename_i hf
      have hf : s.fault = false := by simpa using hf
      split at h
      · cases h; exact .port _ (by simp) hf (by simp [overrun])
      · rename_i hb
        have hb : s.busy = false := by simpa using hb
        split at h
        · cases h; exact .port _ (by simp) hf (by simp)
        · rename_i i hi
          by_cases hd : drawingCommand i = true
          · exact .drawing w i t rfl hi hd hf hb (exec_drawing hd h)
          · have hd : drawingCommand i = false := by simpa using hd
            rcases exec_transport hd h with ⟨-, op, bytes, wire, -, rfl⟩ | ⟨rfl, hs, bytes, wire, rfl⟩ | ⟨rfl, hs, rfl⟩
            · exact .refresh w i op bytes rfl hi hd hf hb wire
            · exact .toggle bytes (.inr (by simp [submits, hi])) hf hb hs wire
            · exact .skipped (.inr (by simp [submits, hi])) hf hb hs
  case readReg i => cases h; exact .same _ (by simp) rfl
  case readFB off =>
    cases h
    unfold hostReadFB
    split
    · exact .same _ (by simp) rfl
    · split
      · exact .same _ (by simp) rfl
      · rename_i hf; exact .port _ (by simp) (by simpa using hf) (by simp [addressRange])
  case writeFB off v =>
    cases h
    unfold hostWriteFB
    split
    · exact .same _ (by simp) rfl
    · rename_i hf
      have hf : s.fault = false := by simpa using hf
      split
      · exact .port _ (by simp) hf (by simp [addressRange])
      · rename_i hw
        split
        · exact .port _ (by simp) hf (by simp [overrun])
        · rename_i hb
          exact .window off v rfl hf (by simpa using hb) (not_not.1 hw)
  case core => exact .core t rfl h
  case tick =>
    unfold tick at h
    split at h
    · cases h; exact .same s (by simp) (.refl s)
    · rename_i hf
      have hf : s.fault = false := by simpa using hf
      split at h
      · cases h; exact .port _ (by simp) hf (by simp [overlap])
      · rename_i hb
        have hb : s.busy = false := by simpa using hb
        rcases exec_transport rfl h with ⟨k, -⟩ | ⟨-, hs, bytes, wire, rfl⟩ | ⟨-, hs, rfl⟩
        · exact absurd rfl k
        · exact .toggle bytes (.inl rfl) hf hb hs wire
        · exact .skipped (.inl rfl) hf hb hs
  case bus => cases h; exact .same _ (by simp) rfl
  case reset => cases h; exact .reset rfl

/-- A step is the core's own, or the head action of the schedule on the rest of it. -/
theorem step_cases {s t : State} (h : step s = .next t) :
    (s.schedule = [] ∧ coreStep s = .next t) ∨
      ∃ a rest, s.schedule = a :: rest ∧ ActEnds a (s.withSchedule rest) t := by
  unfold step nextStep at h
  split at h
  · exact .inl ⟨‹_›, h⟩
  · exact .inr ⟨_, _, ‹_›, act_cases h⟩

/-- A halted core changes in nothing of its own, whatever the action but reset (R255). -/
theorem act_halted {a : Action} {s : State} (hf : s.fault = true) (ha : a ≠ .reset) :
    ∃ t, act a s = .next t ∧ SameCore s t := by
  cases a with
  | submit w => exact ⟨s, by simp [act, submit, hf], rfl⟩
  | readReg i => exact ⟨_, rfl, rfl⟩
  | readFB off =>
    refine ⟨_, rfl, ?_⟩
    unfold hostReadFB
    split <;> rfl
  | writeFB off v => exact ⟨s, by simp [act, hostWriteFB, hf], rfl⟩
  | core => exact ⟨s, by simp [act, coreStep, hf], rfl⟩
  | tick => exact ⟨s, by simp [act, tick, hf], rfl⟩
  | bus accepts idle => exact ⟨_, rfl, rfl⟩
  | reset => exact absurd rfl ha

end Sys2Proof.Machine
end

