-- ==== Sys2Proof/Tests/Slice0.lean ====
section
/-! SUPPORT. Tests: expected results are those of `95_test_vectors.md` (named in each comment) or worked by hand from a rule.
After them, for every statement with hypotheses, a concrete state and operands that meet them. -/

namespace Sys2Proof.Tests

open Sys2Proof.Machine

/-! ### Small states -/

/-- The glyph of font TF: eight rows, each the character's own byte (95). -/
def rowsGlyph (ch : Byte) : Glyph := { h := 8, wb := 1, pw := 8, bm := Vector.replicate 8 ch }

/-- The empty glyph of font GA (95). -/
def emptyGlyph : Glyph := { h := 0, wb := 0, pw := 0, bm := ⟨#[], rfl⟩ }

/-- Font 0 is TF for `'A'` and `'U'`, font 1 has the `'A'` of GA; every other pair is the empty glyph (95). -/
def testFont : Font where
  entries := [⟨0x41, 0, rowsGlyph 0x41⟩, ⟨0x55, 0, rowsGlyph 0x55⟩, ⟨0x41, 1, { h := 2, wb := 1, pw := 3, bm := ⟨#[0xA0, 0x40], rfl⟩ }⟩]
  other := emptyGlyph

/-- The test parameter set TP (95). -/
def testParams : Params where
  size := Config.panel96
  writeLineCode := 0x80
  clearScreenCode := 0x20
  changeVcomCode := 0x00
  vcomFlag := 0x40
  scanOrder := .normal
  dataBitReverse := false
  leftMargin := 0
  charMargin := 0
  lineMargin := 0
  cursorResetCol := 0
  cursorResetRow := 0
  lineEndInclusive := false
  font := testFont

/-- A clean state with parameters TP, white FB, VCOM = 0, SKIP = 0, cursor (0, 0). -/
def white : State := { State.reset with params := testParams, col := 0, row := 0 }

/-- The same with the margins of vectors X3 and X4. -/
def margins : State :=
  { white with params := { testParams with leftMargin := 2, charMargin := 4, lineMargin := 1 } }

/-- A WRITE just accepted. -/
def writing : State := white.startTransaction .write (writeBytes testParams white.fb false)

/-- A halted core. -/
def halted : State := { white with fault := true, faultCode := 2, faultInfo := 0x60 }

/-- A field of the next state; none where there is no next state. -/
def after {A : Type} (f : State → A) : Host.Outcome State Fault Refusal → Option A
  | .next t => some (f t)
  | .fault _ => none
  | .refused _ => none

/-- STATUS and FAULT_INFO. -/
def faultWords (s : State) : Word × Word := (readReg 0 s, readReg 1 s)

/-! ### Well-formedness (R71) and the parameter set (R8, R190) -/

theorem test_text_too_long_is_ill_formed : Instr.wf (.drawString 0 (List.replicate 65536 0)) = false := by
  rw [Instr.wf, List.length_replicate]; decide

theorem test_longest_text_is_well_formed : Instr.wf (.drawString 0 (List.replicate 65535 0)) = true := by
  rw [Instr.wf, List.length_replicate]; decide

/-- TP as an unchecked parameter set. -/
def rawParams : RawParams where
  width := 96
  height := 96
  writeLineCode := 0x80
  clearScreenCode := 0x20
  changeVcomCode := 0x00
  vcomFlag := 0x40
  scanOrder := .normal
  dataBitReverse := false
  leftMargin := 0
  charMargin := 0
  lineMargin := 0
  cursorResetCol := 0
  cursorResetRow := 0
  lineEndInclusive := false
  glyphs := [⟨0x41, 1, { h := 2, wb := 1, pw := 3, bm := [0xA0, 0x40] }⟩]
  otherGlyph := { h := 0, wb := 0, pw := 0, bm := [] }

theorem test_legal_parameters_are_accepted : rawParams.accept.isSome = true := by decide

theorem test_width_not_multiple_of_eight_is_refused : RawParams.accept { rawParams with width := 97 } = none := by decide

theorem test_width_zero_is_refused : RawParams.accept { rawParams with width := 0 } = none := by decide

theorem test_width_above_32767_is_refused : RawParams.accept { rawParams with width := 32768 } = none := by decide

theorem test_height_out_of_range_is_refused :
    RawParams.accept { rawParams with height := 0 } = none ∧ RawParams.accept { rawParams with height := 256 } = none := by
  decide

theorem test_bus_code_out_of_range_is_refused : RawParams.accept { rawParams with vcomFlag := 256 } = none := by decide

theorem test_margin_out_of_range_is_refused :
    RawParams.accept { rawParams with leftMargin := -1 } = none ∧
      RawParams.accept { rawParams with lineMargin := 65536 } = none := by decide

theorem test_bitmap_of_wrong_length_is_refused :
    RawParams.accept { rawParams with otherGlyph := { h := 2, wb := 1, pw := 3, bm := [0xA0] } } = none := by decide

/-! ### Decoding: `OP ++ RSV ++ C ++ IMM`, then `P0 ++ P1`, `P2 ++ P3` (R72, R73, R75) -/

/-- E1. -/
theorem test_decode_fill : decode [0x01#8 ++ 0#7 ++ 0#1 ++ 0x00FF#16, 0, 0] = .ok (.fill 0xFF) := by decide

/-- E4. -/
theorem test_decode_setPixel : decode [0x02#8 ++ 0#7 ++ 0#1 ++ 0#16, 5#16 ++ 2#16, 0] = .ok (.setPixel .fg 5 2) := by decide

/-- E13. -/
theorem test_decode_hrun :
    decode [0x03#8 ++ 0#7 ++ 0#1 ++ 0#16, 6#16 ++ 17#16, 1#16 ++ 4#16] = .ok (.hrun .fg 6 17 1 4) := by decide

/-- E5. -/
theorem test_decode_vrun :
    decode [0x04#8 ++ 0#7 ++ 1#1 ++ 0#16, 0#16 ++ 0#16, 2#16 ++ 0#16] = .ok (.vrun .bg 0 0 2) := by decide

/-- E2. -/
theorem test_decode_fillRect :
    decode [0x05#8 ++ 0#7 ++ 0#1 ++ 0#16, 10#16 ++ 10#16, 20#16 ++ 20#16] = .ok (.fillRect .fg 10 10 20 20) := by decide

/-- E3. -/
theorem test_decode_drawRect :
    decode [0x06#8 ++ 0#7 ++ 0#1 ++ 0#16, 0#16 ++ 0#16, 95#16 ++ 95#16] = .ok (.drawRect .fg 0 0 95 95) := by decide

/-- The packet of section 2 whose ignored `C` bit is set. -/
theorem test_decode_line_ignores_colour :
    decode [0x07#8 ++ 0#7 ++ 1#1 ++ 0#16, 0#16 ++ 0#16, 5#16 ++ 2#16] = .ok (.line 0 0 5 2) := by decide

/-- E7. -/
theorem test_decode_circle :
    decode [0x08#8 ++ 0#7 ++ 0#1 ++ 0#16, 48#16 ++ 48#16, 0xFFFF#16 ++ 0#16] = .ok (.circle 48 48 0xFFFF) := by decide

/-- R75: `font` in IMM[15:8], `ch` in IMM[7:0]. -/
theorem test_decode_drawChar : decode [0x09#8 ++ 0#7 ++ 0#1 ++ (7#8 ++ 0x41#8), 0, 0] = .ok (.drawChar 7 0x41) := by decide

/-- E9. -/
theorem test_decode_drawString :
    decode [0x0A#8 ++ 0#7 ++ 0#1 ++ 3#16, 7#16 ++ 0#16, 0, 0x48#8 ++ 0x69#8 ++ 0x21#8 ++ 0#8] =
      .ok (.drawString 7 [0x48, 0x69, 0x21]) := by decide

/-- E8. -/
theorem test_decode_setCursor : decode [0x0B#8 ++ 0#7 ++ 0#1 ++ 0#16, 2#16 ++ 10#16, 0] = .ok (.setCursor 2 10) := by decide

/-- E12. -/
theorem test_decode_transport :
    decode [0x10#8 ++ 0#7 ++ 0#1 ++ 0#16, 0, 0] = .ok .write ∧
      decode [0x11#8 ++ 0#7 ++ 0#1 ++ 0#16, 0, 0] = .ok .clearScreen ∧
      decode [0x12#8 ++ 0#7 ++ 0#1 ++ 0#16, 0, 0] = .ok .toggleVcom := by decide

/-- E11. -/
theorem test_decode_long_string :
    decode [0x0A00000D, 0, 0, 0x55555555, 0x55555555, 0x55555555, 0x55000000] =
      .ok (.drawString 0 (List.replicate 13 0x55)) := by decide

/-- E14 to E19. -/
theorem test_illegal_packets :
    [[0x0C000000, 0, 0], [0x02030000, 0, 0], [0x01000000, 0], [], [0x0A000005, 0, 0, 0], [0x00000000, 0, 0]].map
        (fun w => after faultWords (act (.submit w) white)) =
      [some (0x102, 0x0003000C), some (0x102, 0x00030002), some (0x102, 0x00020001), some (0x102, 0),
       some (0x102, 0x0004000A), some (0x102, 0x00030000)] := by decide

/-- R77: the reserved opcode is checked before `RSV`, and `RSV` before the length. -/
theorem test_order_of_the_checks :
    decode [0x0CFF0000] = .error .reservedOpcode ∧ decode [0x01FE0000] = .error .reservedBits := by decide

/-- R74: no two opcodes share a value. -/
theorem test_opcodes_are_distinct : (Opcode.all.map Opcode.code).Nodup := by decide

/-- E9 and E11 the other way. -/
theorem test_encode_strings :
    encode (.drawString 7 [0x48, 0x69, 0x21]) = [0x0A000003, 0x00070000, 0, 0x48692100] ∧
      encode (.drawString 0 (List.replicate 13 0x55)) =
        [0x0A00000D, 0, 0, 0x55555555, 0x55555555, 0x55555555, 0x55000000] := by decide

/-- R83: forms as they are written, from section 2's table. -/
theorem test_written_forms :
    (Asm.circle 48 48 (-1)).written = "CIRCLE 48, 48, -1" ∧
      (Asm.drawString [0x48, 0x69, 0x21] 7).written = "DRAW_STRING \"Hi!\", 7" ∧ Asm.refresh.written = "REFRESH" := by
  decide +kernel

/-! ### The drawing commands -/

/-- M6. -/
theorem test_fill : after (fun t => t.fb.length) (exec (.fill 0xA5) white) = some 1152 ∧
    after (fun t => (t.fb.read 0, t.fb.read 1151)) (exec (.fill 0xA5) white) = some (0xA5, 0xA5) := by decide +kernel

/-- R11, R100: filled with the value an unlisted byte reads as, nothing is listed. -/
theorem test_fill_white : after State.fb (exec (.fill 0xFF) { white with fb := [(3, 0)] }) = some [] := by decide +kernel

/-- M3. -/
theorem test_setPixel : after State.fb (exec (.setPixel .fg 95 95) white) = some [(1151, 0xFE)] := by decide +kernel

/-- M8. -/
theorem test_setPixel_fault : after faultWords (exec (.setPixel .fg 0 0xFFFF) white) = some (0x202, 0xFFFF0000) := by
  decide +kernel

/-- R6 of section 4. -/
theorem test_hrun : after State.fb (exec (.hrun .fg 6 17 2 4) white) =
    some [(48, 0xFC), (49, 0x00), (50, 0x3F), (60, 0xFC), (61, 0x00), (62, 0x3F)] := by decide +kernel

/-- R12 of section 4. -/
theorem test_hrun_fault : after faultWords (exec (.hrun .fg 0 5 3 94) white) = some (0x202, 0x00600000) := by
  decide +kernel

/-- R14 of section 4. -/
theorem test_vrun : after State.fb (exec (.vrun .fg 9 2 0) white) = some [(1, 0xBF), (13, 0xBF), (25, 0xBF)] := by
  decide +kernel

/-- R15 of section 4. -/
theorem test_vrun_fault : after faultWords (exec (.vrun .fg 9 0xFFFF 2) white) = some (0x202, 0xFFFF0009) := by
  decide +kernel

/-- R17 of section 4: rows 9, 10, 20 and 21. -/
theorem test_fillRect :
    after (fun t => [109, 121, 122, 123, 241, 242, 243, 253].map t.fb.read) (exec (.fillRect .fg 10 10 30 20) white) =
      some [0xFF, 0xC0, 0x00, 0x01, 0xC0, 0x00, 0x01, 0xFF] := by decide +kernel

/-- R20 of section 4. -/
theorem test_fillRect_fault : after faultWords (exec (.fillRect .fg 20 0 10 5) white) = some (0x302, 5) := by
  decide +kernel

/-- R18 of section 4. -/
theorem test_drawRect : after State.fb (exec (.drawRect .fg 1 1 6 3) white) =
    some [(12, 0x81), (24, 0xBD), (36, 0x81)] := by decide +kernel

/-- R19 of section 4. -/
theorem test_drawRect_fault : after faultWords (exec (.drawRect .fg 5 1 4 3) white) = some (0x302, 6) := by
  decide +kernel

/-- L16 and L4. -/
theorem test_line_points :
    linePoints false 20 20 26 16 = [(20, 20), (21, 19), (22, 19), (23, 18), (24, 17), (25, 17)] ∧
      linePoints false 0 0 4 1 = [(0, 0), (1, 0), (2, 0), (3, 1)] := by decide +kernel

/-- L17 and L18. -/
theorem test_line : after State.fb (exec (.line 93 0 96 0) white) = some [(11, 0xF8)] ∧
    after faultWords (exec (.line 94 0 97 0) white) = some (0x202, 0x60) := by decide +kernel

/-- K2. -/
theorem test_circle : after State.fb (exec (.circle 4 4 3) white) =
    some [(12, 0xE3), (24, 0xDD), (36, 0xBE), (48, 0xBE), (60, 0xBE), (72, 0xDD), (84, 0xE3)] := by decide +kernel

/-- K4 and K5. -/
theorem test_circle_faults : after faultWords (exec (.circle 48 48 48) white) = some (0x202, 0x00300060) ∧
    after faultWords (exec (.circle 48 48 0xFFFF) white) = some (0x402, 0xFFFF) := by decide +kernel

/-- X1. -/
theorem test_drawChar : after (fun t => (t.fb, readReg 3 t)) (exec (.drawChar 1 0x41) white) =
    some ([(0, 0x5F), (12, 0xBF)], 3) := by decide +kernel

/-- X6. -/
theorem test_drawChar_fault : after faultWords (exec (.drawChar 0 0x41) { white with row := 90 }) =
    some (0x202, 0x00600001) := by decide +kernel

/-- X3 and X4. -/
theorem test_cursor_wraps_only_past_the_width :
    after (readReg 3) (exec (.drawChar 0 0x41) { margins with col := 80 }) = some 0x00090002 ∧
      after (readReg 3) (exec (.drawChar 0 0x41) { margins with col := 76 }) = some 84 := by decide +kernel

/-- X2. -/
theorem test_drawString :
    after (fun t => (t.fb.length, [0, 11, 84, 95, 96, 97].map t.fb.read, readReg 3 t))
        (exec (.drawString 0 (List.replicate 13 0x55)) white) =
      some (104, [0xAA, 0xAA, 0xAA, 0xAA, 0xAA, 0xFF], 0x00080008) := by decide +kernel

/-- X7. -/
theorem test_setCursor : after (readReg 3) (exec (.setCursor 2 10) white) = some 0x000A0002 := by decide +kernel

/-! ### The transport -/

/-- The events of the transaction in flight. -/
def inFlight (s : State) : List BusEvent := (s.xact.map Xact.events).getD []

/-- T3: 1350 events, and the first line. -/
theorem test_write :
    after (fun t => ((inFlight t).length, (inFlight t).take 17)) (exec .write white) =
      some (1350, [.csAssert, .byte 0x80, .byte 0x80] ++ List.replicate 12 (.byte 0xFF) ++ [.byte 0x00, .byte 0x40]) := by
  decide +kernel

/-- T6: row 95 first, its bytes reversed. -/
theorem test_write_reversed :
    after (fun t => (inFlight t).take 6)
        (exec .write { white with
          vcom := true, fb := [(1140, 0x7F)],
          params := { testParams with scanOrder := .reversed, dataBitReverse := true } }) =
      some [.csAssert, .byte 0xC0, .byte 0x80, .byte 0xFE, .byte 0xFF, .byte 0xFF] := by decide +kernel

/-- T5. -/
theorem test_clearScreen : after inFlight (exec .clearScreen { white with vcom := true }) =
    some [.csAssert, .byte 0x60, .byte 0x00, .waitIdle, .delay, .csDeassert] := by decide +kernel

/-- T1. -/
theorem test_toggleVcom : after (fun t => (inFlight t, readReg 2 t)) (exec .toggleVcom white) =
    some ([.csAssert, .byte 0x40, .byte 0x00, .waitIdle, .delay, .csDeassert], 1) := by decide +kernel

/-- T4: flipped, no event, not busy. -/
theorem test_toggleVcom_skipped : after (fun t => (inFlight t, t.busy, readReg 2 t)) (exec .toggleVcom { white with skip := true }) =
    some ([], false, 1) := by decide +kernel

/-- Q2: the first step of a WRITE emits CsAssert. -/
theorem test_core_step : after (fun t => (t.trace, readReg 0 t)) (step writing) = some ([.csAssert], 5) := by decide +kernel

/-- T2 drained: the last event ends the transaction, and SKIP is 0. -/
theorem test_last_event :
    after (fun t => (t.trace, t.xact, readReg 0 t, readReg 2 t))
        (step { white with busy := true, cs := true, skip := true, xact := some { op := .toggleVcom, events := [.csDeassert] } }) =
      some ([.csDeassert], none, 0, 0) := by decide +kernel

/-- `reverse8` on the values section 8 lists. -/
theorem test_reverse8 : [0x01, 0x02, 0x03, 0x04, 0x05, 0x0B, 0x12, 0x5F, 0x60, 0x80, 0xA5].map reverse8 =
    [0x80, 0x40, 0xC0, 0x20, 0xA0, 0xD0, 0x48, 0xFA, 0x06, 0x01, 0xA5] := by decide

/-! ### The ports, the tick and reset -/

/-- M9. -/
theorem test_readFB_fault : after faultWords (act (.readFB 1152) white) = some (0x702, 0x480) := by decide +kernel

/-- T7 to T9. -/
theorem test_overruns :
    after (fun t => (faultWords t, t.fb)) (act (.submit (encode (.setPixel .fg 0 0))) writing) = some ((0x602, 0x10), []) ∧
      after faultWords (act (.submit (encode (.fill 0))) { writing with cs := true }) = some (0x606, 0x10) ∧
      after faultWords (act (.writeFB 0 0) writing) = some (0x602, 0x00010010) := by decide +kernel

/-- T10 and T11. -/
theorem test_tick_faults :
    after faultWords (act .tick (white.startTransaction .clearScreen (clearBytes testParams false))) = some (0x502, 0x11) ∧
      act .tick halted = .next halted := ⟨by decide +kernel, rfl⟩

/-- Q1 and Q3. -/
theorem test_reset : after (fun t => (faultWords t, t.trace, readReg 4 t)) (act .reset { halted with trace := [.delay] }) =
    some ((0, 0), [], 0x00600060) := by decide +kernel

/-- P5, step 3: a halted core takes no packet. -/
theorem test_halted_core_takes_no_packet : act (.submit [0x01000000, 0, 0]) halted = .next halted := rfl

/-- T1, with the packet placed where `step` takes its next one (log 2). -/
theorem test_withFetchWord : decodeTableWord 32 0x12000000 = some .toggleVcom ∧
    after (readReg 2) (step (white.withFetchWord 32 0x12000000)) = some 1 := by decide +kernel

/-! ### Witnesses: for each statement with hypotheses, states and operands that meet them, at the ends of their ranges -/

theorem white_wf : white.fb.wf white.params.fbBytes := by decide +kernel

theorem margins_wf : margins.fb.wf margins.params.fbBytes := by decide +kernel

theorem witness_DecodingAnEncodedCommandGivesItBack :
    Instr.wf (.drawString 0xFF (List.replicate 65535 0xFF)) = true ∧ Instr.wf (.drawString 0 []) = true := by
  refine ⟨?_, rfl⟩
  rw [Instr.wf, List.length_replicate]; decide

/-- `n = 0`, `n = 4`, `n = 5` and the largest `n`. -/
theorem witness_TextWordsHoldTheCharactersInOrder :
    ([] : List Word).length = ((0 : Half).toNat + 3) / 4 ∧ [(1 : Word)].length = ((4 : Half).toNat + 3) / 4 ∧
      [(1 : Word), 2].length = ((5 : Half).toNat + 3) / 4 ∧
      (List.replicate 16384 (1 : Word)).length = ((65535 : Half).toNat + 3) / 4 := by
  refine ⟨by decide, by decide, by decide, ?_⟩
  rw [List.length_replicate]; decide

/-- A legal packet of each length, and one packet for each of R77's four reasons. -/
theorem witness_IllegalPacketsRaiseAndLegalOnesExecute :
    white.fault = false ∧ white.busy = false ∧ LegalPacket [0x12000000, 0, 0] ∧ LegalPacket [0x0A000005, 0, 0, 1, 2] ∧
      LegalPacket [0x0A000000, 0, 0] ∧ ¬ LegalPacket [] ∧ ¬ LegalPacket [0x13000000, 0, 0] ∧
      ¬ LegalPacket [0x01020000, 0, 0] ∧ ¬ LegalPacket [0x0A000005, 0, 0, 1] ∧ ¬ LegalPacket [0x01000000, 0, 0, 0] := by
  simp [LegalPacket, white, State.reset]

/-- A state whose host submits a SET_PIXEL next, and the table word of TOGGLE_VCOM. -/
theorem witness_StepRunsTheDecodedPacket :
    (let s := white.withSchedule [.submit [0x02000000, 0x00050002, 0], .core]
     s.schedule = .submit [0x02000000, 0x00050002, 0] :: [.core] ∧
       decode [0x02000000, 0x00050002, 0] = .ok (.setPixel .fg 5 2) ∧ s.fault = false ∧ s.busy = false) ∧
      decodeTableWord 32 0x12000000 = some .toggleVcom := by decide

theorem witness_AssembledFormsDecodeToTheirCommands :
    (Asm.circle 48 48 (-1)).assemble testParams = some [0x08000000, 0x00300030, 0xFFFF0000] ∧
      (Asm.drawString [0x48, 0x69, 0x21] 7).assemble testParams = some [0x0A000003, 0x00070000, 0, 0x48692100] := by decide

/-- The smallest and the largest panel. -/
theorem witness_ExactlyTheLegalParameterSetsAreAccepted :
    (RawParams.accept { rawParams with width := 8, height := 1 }).isSome = true ∧
      (RawParams.accept { rawParams with width := 32760, height := 255 }).isSome = true := by decide

theorem witness_OnlyResetLeavesTheHaltedState :
    (halted.fault = true ∧ halted.schedule.head? ≠ some .reset) ∧
      ((halted.withSchedule [.tick]).fault = true ∧ (halted.withSchedule [.tick]).schedule.head? ≠ some .reset) ∧
      (halted.withSchedule [.reset]).schedule.head? = some .reset := by decide

/-- The first and the last offset. -/
theorem witness_BusyCoreRefusesPacketsAndWrites :
    writing.fault = false ∧ writing.busy = true ∧ (∃ x, writing.xact = some x) ∧
      (0 ≤ (0 : Int) ∧ (0 : Int) < writing.params.fbBytes) ∧ (0 ≤ (1151 : Int) ∧ (1151 : Int) < writing.params.fbBytes) :=
  ⟨rfl, rfl, ⟨_, rfl⟩, by decide, by decide⟩

theorem witness_TickTogglesOverlapsOrIsIgnored :
    halted.fault = true ∧ (writing.fault = false ∧ writing.busy = true ∧ ∃ x, writing.xact = some x) ∧
      (white.fault = false ∧ white.busy = false) := ⟨rfl, ⟨rfl, rfl, _, rfl⟩, rfl, rfl⟩

/-- A pixel fault of a SET_PIXEL and of a DRAW_CHAR, and an overrun. -/
theorem witness_AFaultChangesOnlyWhatFaultEntryChanges :
    (∃ t, step (white.withSchedule [.submit [0x02000000, 0x00600000, 0]]) = .next t ∧ t.fault = true ∧ t.faultCode = 2) ∧
      (∃ t, step ({ white with col := 90 }.withSchedule [.submit [0x09000041, 0, 0]]) = .next t ∧ t.fault = true ∧
        t.faultCode = 2) ∧
      (∃ t, step (writing.withSchedule [.submit []]) = .next t ∧ t.fault = true ∧ t.faultCode = 6) ∧
      white.fault = false ∧ writing.fault = false :=
  ⟨⟨_, rfl, rfl, rfl⟩, ⟨_, rfl, by decide +kernel, by decide +kernel⟩, ⟨_, rfl, rfl, rfl⟩, rfl, rfl⟩

/-- A run past the right edge (vector R10), a circle (K4) and a character (X5); and a negative radius. -/
theorem witness_TheFirstOutOfBoundsPixelIsReported :
    FirstOutside testParams (paintOrder white (.hrun .fg 90 96 1 0)) (96, 0) ∧
      FirstOutside testParams (paintOrder white (.circle 48 48 48)) (96, 48) ∧
      FirstOutside testParams (paintOrder { white with col := 90 } (.drawChar 0 0x41)) (97, 0) ∧
      sext16 0xFFFF < 0 := by
  refine ⟨⟨[(90, 0), (91, 0), (92, 0), (93, 0), (94, 0), (95, 0)], [], ?_⟩, ⟨[], (paintOrder white (.circle 48 48 48)).tail, ?_⟩,
    ⟨[(91, 0)], (paintOrder { white with col := 90 } (.drawChar 0 0x41)).drop 2, ?_⟩, ?_⟩ <;> decide +kernel

theorem witness_InvalidOperandsRaiseBeforePainting :
    sext16 4 < sext16 5 ∧ sext16 0x8000 < sext16 0x7FFF ∧ sext16 0x8000 < 0 := by decide

theorem witness_TickAndWriteAdmitBothOrders :
    (white.fault = false ∧ white.busy = false ∧ white.skip = false ∧
      (white.withSchedule [.tick, .submit [0x10000000, 0, 0]]).schedule = .tick :: .submit [0x10000000, 0, 0] :: []) ∧
      { white with skip := true }.skip = true ∧
      (white.withSchedule [.submit [0x10000000, 0, 0], .tick]).schedule = .submit [0x10000000, 0, 0] :: .tick :: [] := by
  decide

/-- Both ends of the window, and the offsets just outside. -/
theorem witness_FramebufferWindowReadsAndWritesOneByte :
    white.fb.wf white.params.fbBytes ∧ writing.fb.wf writing.params.fbBytes ∧ halted.fb.wf halted.params.fbBytes ∧
      halted.fault = true ∧ white.fault = false ∧ white.busy = false ∧
      (∃ x, writing.fault = false ∧ writing.busy = true ∧ writing.xact = some x) ∧
      InWindow testParams 0 ∧ InWindow testParams 1151 ∧ ¬ InWindow testParams (-1) ∧ ¬ InWindow testParams 1152 :=
  ⟨white_wf, white_wf, white_wf, rfl, rfl, rfl, ⟨_, rfl, rfl, rfl⟩, by decide, by decide, by decide, by decide⟩

theorem witness_RegistersReadAsMapped : 5 ≤ (5 : Byte).toNat ∧ 5 ≤ (255 : Byte).toNat := by decide

theorem witness_ConfigNeverChanges : ∃ t, step (white.withSchedule [.reset]) = .next t := ⟨_, rfl⟩

theorem witness_EveryFramebufferBitIsOnePixel : 0 < testParams.fbBytes ∧ 1151 < testParams.fbBytes ∧ 0 < 8 ∧ 7 < 8 := by decide

theorem witness_FillWritesEveryByte : 0 < white.params.fbBytes ∧ 1151 < white.params.fbBytes := by decide

/-- The four corners, and the four pixels just outside two of them. -/
theorem witness_SetPixelPaintsOneBitOrFaults : white.fb.wf white.params.fbBytes ∧
    InBounds white.params (sext16 0) (sext16 0) ∧ InBounds white.params (sext16 95) (sext16 0) ∧
    InBounds white.params (sext16 0) (sext16 95) ∧ InBounds white.params (sext16 95) (sext16 95) ∧
    ¬ InBounds white.params (sext16 96) (sext16 0) ∧ ¬ InBounds white.params (sext16 0) (sext16 96) ∧
    ¬ InBounds white.params (sext16 0xFFFF) (sext16 0) ∧ ¬ InBounds white.params (sext16 0) (sext16 0xFFFF) := by
  decide +kernel

/-- A pixel that is background before (the last clause), at the last corner. -/
theorem witness_PixelBlackThenWhiteRestores : white.fb.wf white.params.fbBytes ∧
    InBounds white.params (sext16 95) (sext16 95) ∧ pix white.params white.fb (sext16 95) (sext16 95) = true := by
  decide +kernel

/-- The whole panel, a run of no rows whose row is out of bounds, and thickness 0. -/
theorem witness_HrunCoversExactlyItsRectangle : white.fb.wf white.params.fbBytes ∧
    AllInBounds white.params (RunPixels (sext16 95) (sext16 0) (96 : Half).toNat (sext16 0)) ∧
    AllInBounds white.params (RunPixels (sext16 3) (sext16 5) (0 : Half).toNat (sext16 200)) ∧ (0 : Half) = 0 := by
  refine ⟨white_wf, fun u v h => ?_, fun u v h => ?_, rfl⟩
  · obtain ⟨⟨a, b⟩, c, d⟩ := h
    exact ⟨(show (0 : Int) ≤ u from a), Int.lt_of_le_of_lt (show u ≤ 95 from b) (by decide), (show (0 : Int) ≤ v from c),
      (show v < 96 from d)⟩
  · obtain ⟨_, c, d⟩ := h
    exact absurd (Int.lt_of_le_of_lt c d) (by decide)

/-- Column 95, rows 0 to 95, bounds swapped. -/
theorem witness_VrunCoversExactlyItsColumn : white.fb.wf white.params.fbBytes ∧
    AllInBounds white.params (ColumnPixels (sext16 95) (sext16 95) (sext16 0)) := by
  refine ⟨white_wf, fun u v h => ?_⟩
  obtain ⟨rfl, b, c⟩ := h
  exact ⟨by decide, by decide, (show (0 : Int) ≤ v from b), Int.lt_of_le_of_lt (show v ≤ 95 from c) (by decide)⟩

/-- The whole panel. -/
theorem whole_panel_in_bounds : AllInBounds white.params (RectPixels (sext16 0) (sext16 0) (sext16 95) (sext16 95)) := by
  intro u v h
  obtain ⟨⟨a, b⟩, c, d⟩ := h
  exact ⟨(show (0 : Int) ≤ u from a), Int.lt_of_le_of_lt (show u ≤ 95 from b) (by decide), (show (0 : Int) ≤ v from c),
    Int.lt_of_le_of_lt (show v ≤ 95 from d) (by decide)⟩

theorem witness_FillRectCoversExactlyItsRectangle : white.fb.wf white.params.fbBytes ∧ sext16 0 ≤ sext16 95 ∧
    AllInBounds white.params (RectPixels (sext16 0) (sext16 0) (sext16 95) (sext16 95)) :=
  ⟨white_wf, by decide, whole_panel_in_bounds⟩

/-- The smallest and the largest thickness that fits 16 bits. -/
theorem witness_FillRectIsAHorizontalRun : sext16 10 ≤ sext16 10 ∧ ((1 : Half).toNat : Int) = sext16 10 - sext16 10 + 1 ∧
    sext16 0x8000 ≤ sext16 0x7FFE ∧ ((0xFFFF : Half).toNat : Int) = sext16 0x7FFE - sext16 0x8000 + 1 := by decide

theorem witness_RectangleBlackThenWhiteRestores : white.fb.wf white.params.fbBytes ∧ sext16 0 ≤ sext16 95 ∧
    AllInBounds white.params (RectPixels (sext16 0) (sext16 0) (sext16 95) (sext16 95)) :=
  witness_FillRectCoversExactlyItsRectangle

theorem witness_DrawRectPaintsExactlyTheOutline : white.fb.wf white.params.fbBytes ∧ sext16 0 ≤ sext16 95 ∧
    AllInBounds white.params (OutlinePixels (sext16 0) (sext16 0) (sext16 95) (sext16 95)) :=
  ⟨white_wf, by decide, fun u v h => whole_panel_in_bounds u v h.1⟩

/-- The line L1 (x-major) and the line L3 (y-major), with and without the end point. -/
theorem witness_LinePaintsTheClosedForm : white.fb.wf white.params.fbBytes ∧
    AllInBounds white.params (fun u v : Int =>
      (∃ k : Nat, k < 5 ∧ (2 ≤ 5 → u = sext16 0 + k * (5 : Int).sign ∧ v = sext16 0 + minorSteps 5 2 k * (2 : Int).sign) ∧
        (5 < 2 → u = sext16 0 + minorSteps 5 2 k * (5 : Int).sign ∧ v = sext16 0 + k * (2 : Int).sign)) ∨
      (white.params.lineEndInclusive = true ∧ u = sext16 5 ∧ v = sext16 2)) ∧
    AllInBounds { testParams with lineEndInclusive := true } (fun u v : Int =>
      (∃ k : Nat, k < 5 ∧ (5 ≤ 2 → u = sext16 0 + k * (2 : Int).sign ∧ v = sext16 0 + minorSteps 5 2 k * (5 : Int).sign) ∧
        (2 < 5 → u = sext16 0 + minorSteps 5 2 k * (2 : Int).sign ∧ v = sext16 0 + k * (5 : Int).sign)) ∨
      (({ testParams with lineEndInclusive := true } : Params).lineEndInclusive = true ∧ u = sext16 2 ∧ v = sext16 5)) := by
  have points : ∀ k < 5, InBounds testParams (sext16 0 + (k : Nat) * (5 : Int).sign) (sext16 0 + minorSteps 5 2 k * (2 : Int).sign) ∧
      InBounds testParams (sext16 0 + minorSteps 5 2 k * (2 : Int).sign) (sext16 0 + (k : Nat) * (5 : Int).sign) := by
    decide +kernel
  refine ⟨white_wf, fun u v h => ?_, fun u v h => ?_⟩
  · rcases h with ⟨k, hk, h, _⟩ | ⟨h, _⟩
    · obtain ⟨rfl, rfl⟩ := h (by decide)
      exact (points k hk).1
    · exact absurd h (by decide)
  · rcases h with ⟨k, hk, _, h⟩ | ⟨_, rfl, rfl⟩
    · obtain ⟨rfl, rfl⟩ := h (by decide)
      exact (points k hk).2
    · decide

theorem witness_LineStartsAtItsStartAndOmitsItsEnd : ((0 : Int), (0 : Int)) ≠ (5, 2) ∧ white.params.lineEndInclusive = false ∧
    (let s := { white with params := { testParams with lineEndInclusive := true } }
     s.params.lineEndInclusive = true ∧ s.fb.wf s.params.fbBytes ∧ InBounds s.params (sext16 95) (sext16 0)) := by decide +kernel

theorem witness_AxisAlignedAndDiagonalLines : (4 : Int) - 4 = 0 ∧ (0 - 95 : Int).natAbs = (95 - 0 : Int).natAbs := by decide

/-- A circle of radius 47 about the middle of the panel. -/
theorem witness_CirclePaintsItsMirrorPoints : white.fb.wf white.params.fbBytes ∧ 0 ≤ sext16 47 ∧
    AllInBounds white.params (fun u v : Int => ∃ k x : Int, 0 ≤ k ∧ k ≤ x ∧ x = (circleState (sext16 47).toNat k.toNat).1 ∧
      (((u = sext16 48 + x ∨ u = sext16 48 - x) ∧ (v = sext16 48 + k ∨ v = sext16 48 - k)) ∨
        ((u = sext16 48 + k ∨ u = sext16 48 - k) ∧ (v = sext16 48 + x ∨ v = sext16 48 - x)))) := by
  refine ⟨white_wf, by decide, fun u v h => ?_⟩
  obtain ⟨k, x, h0, hk, rfl, h⟩ := h
  have hx : (circleState (sext16 47).toNat k.toNat).1 ≤ 47 := circleState_le_radius 47 k.toNat
  have centre : sext16 48 = 48 := by decide
  have size : ((white.params.width : Nat) : Int) = 96 ∧ ((white.params.height : Nat) : Int) = 96 := by decide
  simp only [InBounds, centre, size.1, size.2] at h ⊢
  omega

/-- The first and the last pixel. -/
theorem witness_ZeroRadiusPaintsTheCentre : white.fb.wf white.params.fbBytes ∧
    InBounds white.params (sext16 0) (sext16 0) ∧ InBounds white.params (sext16 95) (sext16 95) := by decide +kernel

theorem witness_CentredCirclesFitThePanel : white.fb.wf white.params.fbBytes ∧ white.params.width = 96 ∧
    white.params.height = 96 ∧ (0 : Half).toNat ≤ 47 ∧ (47 : Half).toNat ≤ 47 := by decide +kernel

theorem witness_CirclePointSetIsSymmetric : ((5 : Int), (2 : Int)) ∈ circlePoints 0 0 5 := by decide +kernel

/-- Radius 5, a point of it and a point that is none (section 6). -/
theorem witness_CirclePaintsTheNearestPoints : 1 ≤ 5 ∧ ((4 : Int), (3 : Int)) ∈ circlePoints 0 0 5 ∧
    ((5 : Int), (3 : Int)) ∉ circlePoints 0 0 5 := by decide +kernel

/-- The glyph of X3 and X4 in bounds, at a cursor that wraps and at one that does not. -/
theorem witness_DrawCharBlitsAndAdvances : margins.fb.wf margins.params.fbBytes ∧
    AllInBounds margins.params (GlyphPixels (rowsGlyph 0x41) 80 0) ∧ AllInBounds margins.params (GlyphPixels (rowsGlyph 0x41) 76 0) ∧
    margins.params.font.glyph 0x41 0 = rowsGlyph 0x41 ∧ 96 < 80 + 8 + 8 + 4 ∧ 76 + 8 + 8 + 4 ≤ 96 := by
  have fits : ∀ col : Nat, col ≤ 88 → AllInBounds margins.params (GlyphPixels (rowsGlyph 0x41) col 0) := by
    intro col hc u v h
    obtain ⟨gx, gy, hy, hx, _, rfl, rfl⟩ := h
    have hy : gy < 8 := hy
    have hx : gx < 8 := hx
    have size : ((margins.params.width : Nat) : Int) = 96 ∧ ((margins.params.height : Nat) : Int) = 96 := by decide
    simp only [InBounds, size.1, size.2]
    omega
  exact ⟨margins_wf, fits 80 (by decide), fits 76 (by decide), by decide +kernel, by decide, by decide⟩

/-- X1. -/
theorem witness_GlyphsOverlayWithoutErasing : white.fb.wf white.params.fbBytes ∧ white.fault = false ∧
    ∃ t, exec (.drawChar 1 0x41) white = .next t ∧ t.fault = false := ⟨white_wf, rfl, _, rfl, by decide +kernel⟩

/-- X1, and X6. -/
theorem witness_DrawStringDrawsItsCharactersInTurn : white.fault = false ∧
    (∃ t, exec (.drawChar 1 0x41) white = .next t ∧ t.fault = false) ∧
    ∃ t, exec (.drawChar 0 0x41) { white with row := 90 } = .next t ∧ t.fault = true :=
  ⟨rfl, ⟨_, rfl, by decide +kernel⟩, _, rfl, by decide +kernel⟩

/-- Two characters of font GA, and the empty string. -/
theorem witness_DrawStringCompletesInBounds : white.fb.wf white.params.fbBytes ∧
    AllInBounds white.params (fun u v => (u, v) ∈ textOrder white.params 1 [0x41, 0x41] 0 0) ∧
    AllInBounds white.params (fun u v => (u, v) ∈ textOrder white.params 1 [] 0 0) := by
  have points : ∀ q ∈ textOrder white.params 1 [0x41, 0x41] 0 0, InBounds white.params q.1 q.2 := by decide +kernel
  exact ⟨white_wf, fun u v h => points (u, v) h, fun u v h => by cases h⟩

theorem witness_TheCursorPersistsBetweenTextCommands :
    ∃ t, step (white.withSchedule [.submit [0x0B000000, 0x0002000A, 0]]) = .next t ∧ ¬ (t.col = white.col ∧ t.row = white.row) :=
  ⟨_, rfl, by decide +kernel⟩

theorem witness_DrawingCommandsLeaveTheTransportAlone : drawingCommand (.fill 0) = true ∧ drawingCommand (.drawChar 0 0x41) = true ∧
    white.fault = false ∧ white.busy = false ∧ white.xact = none ∧ cursorCommand (.fill 0) = false := by decide

/-- The first and the last line and byte. -/
theorem witness_WriteTransmitsTheFrame : 0 < white.params.height ∧ 95 < white.params.height ∧ 0 < white.params.rowBytes ∧
    11 < white.params.rowBytes := by decide

theorem witness_ToggleVcomFlipsAndTransmitsUnlessSkipped : white.skip = false ∧ { white with skip := true }.skip = true :=
  ⟨rfl, rfl⟩

/-- A transaction in the middle, with the bus accepting and not accepting its next byte, and its last event. -/
theorem witness_TransactionStepEmitsOneEvent :
    (∃ e rest, writing.schedule = [] ∧ writing.fault = false ∧ writing.xact = some { op := .write, events := e :: rest } ∧
      (∀ b, e = .byte b → writing.busAccepts = true) ∧ (e = .waitIdle → writing.busIdle = true)) ∧
    (let s := { white with busy := true, busAccepts := false, xact := some { op := .write, events := [.byte 0, .csDeassert] } }
     s.schedule = [] ∧ s.fault = false ∧ ¬ ((∀ b, BusEvent.byte 0 = .byte b → s.busAccepts = true) ∧
       (BusEvent.byte 0 = .waitIdle → s.busIdle = true))) := by
  refine ⟨⟨_, _, rfl, rfl, rfl, fun _ _ => rfl, fun _ => rfl⟩, rfl, rfl, fun h => ?_⟩
  exact absurd (h.1 0 rfl) (by decide)

/-- The three transport commands. -/
theorem witness_TransportCommandsCompleteOnAReadyBus : Ready white ∧ white.schedule = [] ∧ white.cs = false ∧
    ∀ i ∈ [Instr.write, .clearScreen, .toggleVcom], drawingCommand i = false ∧ ∃ t x, exec i white = .next t ∧ t.xact = some x := by
  refine ⟨by decide, rfl, rfl, fun i h => ?_⟩
  simp only [List.mem_cons, List.not_mem_nil, or_false] at h
  rcases h with rfl | rfl | rfl <;> exact ⟨rfl, _, _, rfl, rfl⟩

/-- A byte and the idle wait. -/
theorem witness_AStalledBusHangsTheCore :
    (let s := { white with busy := true, busAccepts := false, xact := some { op := .write, events := [.byte 0, .csDeassert] } }
     s.schedule = [] ∧ s.fault = false ∧ s.busy = true ∧ (∃ x, s.xact = some x ∧ x.events = .byte 0 :: [.csDeassert]) ∧
       (∃ b, BusEvent.byte 0 = .byte b) ∧ s.busAccepts = false) ∧
    (let s := { white with busy := true, busIdle := false, xact := some { op := .write, events := [.waitIdle, .csDeassert] } }
     s.schedule = [] ∧ s.fault = false ∧ s.busy = true ∧ (∃ x, s.xact = some x ∧ x.events = .waitIdle :: [.csDeassert]) ∧
       s.busIdle = false) :=
  ⟨⟨rfl, rfl, rfl, ⟨_, rfl, rfl⟩, ⟨_, rfl⟩, rfl⟩, rfl, rfl, rfl, ⟨_, rfl, rfl⟩, rfl⟩

theorem witness_ARefreshSilencesTheNextToggle :
    (∃ s : State, Ready s ∧ s.cs = false ∧ 1350 = 1 + s.params.height * (1 + s.params.rowBytes + 1) + 1 + 4 ∧
      s.schedule = .submit [0x10000000, 0, 0] :: (List.replicate 1350 Action.core ++ [Action.tick])) ∧
    (∃ s : State, Ready s ∧ s.cs = false ∧
      s.schedule = .submit [0x11000000, 0, 0] :: (List.replicate 6 Action.core ++ [Action.tick])) ∧
    (∃ s : State, Ready s ∧ s.cs = false ∧ s.skip = false ∧
      s.schedule = Action.tick :: (List.replicate 6 Action.core ++ (Action.tick :: List.replicate 6 Action.core))) :=
  ⟨⟨white.withSchedule _, ⟨rfl, rfl, rfl, rfl, rfl⟩, rfl, by decide, rfl⟩,
    ⟨white.withSchedule _, ⟨rfl, rfl, rfl, rfl, rfl⟩, rfl, rfl⟩, white.withSchedule _, ⟨rfl, rfl, rfl, rfl, rfl⟩, rfl, rfl, rfl⟩

theorem witness_ReverseEightReversesTheBits : 0 < 8 ∧ 7 < 8 := by decide

theorem witness_OnlyToggleVcomWritesVcom : ∃ t, step (white.withSchedule [.tick]) = .next t ∧ t.vcom ≠ white.vcom :=
  ⟨_, rfl, by decide⟩

theorem witness_TheFramebufferIsStableWhileBusy : writing.busy = true ∧ writing.schedule.head? ≠ some .reset ∧
    (∃ t, step writing = .next t) ∧ (writing.withSchedule [.writeFB 0 0]).schedule.head? ≠ some .reset ∧
    ∃ t, step (writing.withSchedule [.writeFB 0 0]) = .next t := ⟨rfl, by decide, ⟨_, rfl⟩, by decide, _, rfl⟩

theorem witness_TraceIsAppendOnly : writing.schedule.head? ≠ some .reset ∧ ∃ t, step writing = .next t := ⟨by decide, _, rfl⟩

/-- A WRITE just accepted meets the invariant, and takes a step. -/
theorem witness_StepKeepsTheCoreInvariant : CoreInv writing ∧ ∃ t, step writing = .next t := by
  refine ⟨?_, _, rfl⟩
  exact
    { fbWf := white_wf
      busy := rfl
      halted := fun h => by cases h
      noFault := fun _ => ⟨rfl, rfl⟩
      faultCode := fun h => by cases h
      trace := ⟨[], [], _, .write, _, rfl, .none, .write white.fb false, rfl, by simp, rfl,
        fun x hx => (Option.some.inj hx).symm, fun _ h => by cases h⟩ }

/-- R290: ticks, bus reports and the core's own turns do not keep a run from ending well, and a packet does. -/
theorem test_only_the_host_keeps_a_run_going :
    EndsWell (white.withSchedule [.tick, .bus false false, .core]) ∧ ¬ EndsWell (white.withSchedule [.tick, .submit []]) ∧
      ¬ EndsWell (white.withSchedule [.readReg 0]) := by decide

/-- An idle core for which only a tick is scheduled. -/
theorem witness_ConsistentStatesAlwaysStep : CoreInv (white.withSchedule [.tick]) ∧ EndsWell (white.withSchedule [.tick]) := by
  refine ⟨?_, by decide⟩
  exact
    { fbWf := white_wf
      busy := rfl
      halted := fun _ => rfl
      noFault := fun _ => ⟨rfl, rfl⟩
      faultCode := fun h => by cases h
      trace := ⟨[], [], _, .write, _, rfl, .none, .write white.fb false, rfl, by simp, rfl,
        fun x hx => (by cases hx), fun _ _ => rfl⟩ }

end Sys2Proof.Tests
end

section
/-! The parameter check (`00_scope.md` R8, R190) one field at a time, and the operand fields as numbers (R10, R76). -/

namespace Sys2Proof

/-! ### When each part of a parameter set is accepted -/

@[simp] theorem Config.isSome_fits (n : Nat) (v : Int) : (Config.fits n v).isSome = true ↔ 0 ≤ v ∧ v < 2 ^ n := by
  simp [Config.fits]

/-- R8's code parameters, in `0..255`. -/
theorem Config.isSome_fits_byte (v : Int) : (Config.fits 8 v).isSome = true ↔ 0 ≤ v ∧ v ≤ 255 := by
  rw [Config.isSome_fits]; omega

/-- R8's margins, in `0..65535`. -/
theorem Config.isSome_fits_half (v : Int) : (Config.fits 16 v).isSome = true ↔ 0 ≤ v ∧ v ≤ 65535 := by
  rw [Config.isSome_fits]; omega

theorem Config.isSome_acceptSize (w h : Int) :
    (Config.acceptSize w h).isSome = true ↔ (0 < w ∧ w % 8 = 0 ∧ w ≤ 32767) ∧ 1 ≤ h ∧ h ≤ 255 := by
  simp only [Config.acceptSize, Option.isSome_dite]

theorem Config.acceptSize_eq_some {w h : Int} {z : PanelSize} (hz : Config.acceptSize w h = some z) :
    ((8 * z.rowBytes : Nat) : Int) = w ∧ (z.height : Int) = h := by
  obtain ⟨⟨hpos, hmod, -⟩, hh, -⟩ := (Config.isSome_acceptSize w h).1 (Option.isSome_of_mem hz)
  simp only [Config.acceptSize, Option.dite_none_right_eq_some, Option.some.injEq] at hz
  obtain ⟨-, rfl⟩ := hz
  constructor <;> simp only <;> omega

theorem RawGlyph.isSome_accept (g : RawGlyph) :
    g.accept.isSome = true ↔ g.h ≤ 255 ∧ g.wb ≤ 255 ∧ g.pw ≤ 255 ∧ g.bm.length = g.h * g.wb := by
  unfold RawGlyph.accept
  split
  next hb =>
    obtain ⟨hh, hwb, hpw⟩ := hb
    have hlen : (BitVec.ofNat 8 g.h).toNat * (BitVec.ofNat 8 g.wb).toNat = g.h * g.wb := by
      rw [BitVec.toNat_ofNat, BitVec.toNat_ofNat, Nat.mod_eq_of_lt hh, Nat.mod_eq_of_lt hwb]
    simp only [Option.isSome_dite, hlen]
    omega
  next hb =>
    simp only [Option.isSome_none, Bool.false_eq_true, false_iff]
    omega

theorem Config.isSome_acceptGlyphs (es : List RawFontEntry) :
    (Config.acceptGlyphs es).isSome = true ↔ ∀ e ∈ es, e.glyph.accept.isSome = true := by
  induction es with
  | nil => simp [Config.acceptGlyphs]
  | cons e es ih =>
    rw [List.forall_mem_cons, ← ih, Config.acceptGlyphs]
    cases e.glyph.accept <;> cases Config.acceptGlyphs es <;> simp

/-! ### When the whole set is accepted -/

/-- Splits the first check off a chain of checks in which no later check looks at an earlier check's value. -/
theorem isSome_bind_iff {α β : Type} {x : Option α} {f : α → Option β} {P : Prop} (h : ∀ a, (f a).isSome = true ↔ P) :
    (x >>= f).isSome = true ↔ x.isSome = true ∧ P := by
  cases x with
  | none => simp
  | some a => simp [h a]

theorem RawParams.isSome_accept (r : RawParams) :
    r.accept.isSome = true ↔
      (Config.acceptSize r.width r.height).isSome = true ∧
      (Config.fits 8 r.writeLineCode).isSome = true ∧ (Config.fits 8 r.clearScreenCode).isSome = true ∧
      (Config.fits 8 r.changeVcomCode).isSome = true ∧ (Config.fits 8 r.vcomFlag).isSome = true ∧
      (Config.fits 16 r.leftMargin).isSome = true ∧ (Config.fits 16 r.charMargin).isSome = true ∧
      (Config.fits 16 r.lineMargin).isSome = true ∧
      (Config.acceptGlyphs r.glyphs).isSome = true ∧ r.otherGlyph.accept.isSome = true := by
  unfold RawParams.accept
  iterate 9 refine isSome_bind_iff fun _ => ?_
  rw [isSome_bind_iff (P := True) fun _ => by simp, and_true]

theorem RawParams.acceptSize_of_accept {r : RawParams} {p : Params} (h : r.accept = some p) :
    Config.acceptSize r.width r.height = some p.size := by
  simp only [RawParams.accept, Option.bind_eq_bind, Option.bind_eq_some_iff, Option.pure_def, Option.some.injEq] at h
  obtain ⟨_, hz, _, _, _, _, _, _, _, _, _, _, _, _, _, _, _, _, _, _, rfl⟩ := h
  exact hz

/-- Settles O9: the set is accepted exactly when each of its parts is, and the size of an accepted one is the accepted size. -/
theorem exactlyTheLegalParameterSetsAreAccepted : Obligations.ExactlyTheLegalParameterSetsAreAccepted := by
  intro r
  refine ⟨?_, fun p hp => Config.acceptSize_eq_some (RawParams.acceptSize_of_accept hp)⟩
  simp only [RawParams.isSome_accept, Config.isSome_acceptSize, Config.isSome_fits_byte, Config.isSome_fits_half,
    Config.isSome_acceptGlyphs, RawGlyph.isSome_accept]
  tauto

namespace Machine

theorem sext16_eq (v : Half) :
    sext16 v = if v.toNat < 32768 then (v.toNat : Int) else (v.toNat : Int) - 65536 := by
  rw [sext16, BitVec.toInt_eq_toNat_cond]
  split <;> split <;> omega

theorem sext16_range (v : Half) : -32768 ≤ sext16 v ∧ sext16 v ≤ 32767 :=
  ⟨BitVec.le_toInt v, Int.le_of_lt_add_one BitVec.toInt_lt⟩

/-- Settles O5: two's complement for a signed field, and a 16-bit value is below `2^16`. -/
theorem operandFieldsExtendToIntegers : Obligations.OperandFieldsExtendToIntegers := by
  intro v
  obtain ⟨hlo, hhi⟩ := sext16_range v
  exact ⟨sext16_eq v, hlo, hhi, rfl, Nat.le_of_lt_succ v.isLt⟩

end Machine

end Sys2Proof
end

section
/-! The host-visible registers, what one step leaves unchanged, and the invariant that every step keeps (`10_state.md`). -/

namespace Sys2Proof.Machine

/-! ### The registers as numbers (R25 to R29, R33, R34) -/

theorem toNat_append_add {m n : Nat} (hi : BitVec m) (lo : BitVec n) :
    (hi ++ lo).toNat = lo.toNat + 2 ^ n * hi.toNat := by
  rw [BitVec.toNat_append, ← Nat.shiftLeft_add_eq_or_of_lt lo.isLt, Nat.shiftLeft_eq]
  ring

theorem statusWord_toNat (s : State) :
    (statusWord s).toNat = s.busy.toNat + 2 * s.fault.toNat + 4 * s.cs.toNat + 256 * s.faultCode.toNat := by
  simp only [statusWord, toNat_append_add, BitVec.ofNat_eq_ofNat, BitVec.toNat_ofBool, BitVec.toNat_zero]
  omega

theorem tstateWord_toNat (s : State) : (tstateWord s).toNat = s.vcom.toNat + 2 * s.skip.toNat := by
  simp only [tstateWord, toNat_append_add, BitVec.ofNat_eq_ofNat, BitVec.toNat_ofBool, BitVec.toNat_zero]
  omega

theorem cursorWord_toNat (s : State) : (cursorWord s).toNat = s.col.toNat + 65536 * s.row.toNat :=
  toNat_append_add s.row s.col

/-- `W` and `H` fit their halves of CONFIG (R8). -/
theorem configWord_toNat (s : State) : (configWord s).toNat = s.params.width + 65536 * s.params.height := by
  have hw : s.params.width < 2 ^ 16 := Nat.lt_of_le_of_lt s.params.size.width_le (by decide)
  have hh : s.params.height < 2 ^ 16 := Nat.lt_of_le_of_lt s.params.size.height_le (by decide)
  rw [configWord, toNat_append_add, BitVec.toNat_ofNat, BitVec.toNat_ofNat, Nat.mod_eq_of_lt hw, Nat.mod_eq_of_lt hh]
  rfl

theorem readReg_reserved {i : Byte} (h : 5 ≤ i.toNat) (s : State) : readReg i s = 0 := by
  obtain ⟨k, hk⟩ := Nat.exists_eq_add_of_le' h
  simp only [readReg, hk]

/-- Settles O18: each index selects its word, and a word's value is the sum of its fields at their places. -/
theorem registersReadAsMapped : Obligations.RegistersReadAsMapped := fun s _ =>
  ⟨⟨_, rfl, rfl⟩, statusWord_toNat s, rfl, tstateWord_toNat s, cursorWord_toNat s, configWord_toNat s,
    fun h => readReg_reserved h s⟩

/-! ### The parameters -/

theorem SameCore.params {s t : State} (h : SameCore s t) : t.params = s.params := by
  rw [show t = _ from h]

theorem DrawEnds.params {i : Instr} {s t : State} (h : DrawEnds i s t) : t.params = s.params := by
  cases h <;> rfl

theorem coreStep_params {s t : State} (h : coreStep s = .next t) : t.params = s.params := by
  obtain rfl | ⟨op, e, rest, -, -, -, ⟨-, rfl⟩ | ⟨-, rfl⟩⟩ := coreStep_cases h <;> rfl

theorem ActEnds.params {a : Action} {s t : State} (h : ActEnds a s t) : t.params = s.params := by
  cases h with
  | same _ _ same => exact same.params
  | drawing _ _ _ _ _ _ _ _ ends => exact ends.params
  | core _ _ own => exact coreStep_params own
  | port | window | refresh | toggle | skipped | reset => rfl

theorem step_params {s t : State} (h : step s = .next t) : t.params = s.params := by
  obtain ⟨-, own⟩ | ⟨a, rest, -, ends⟩ := step_cases h
  · exact coreStep_params own
  · exact ends.params

/-- Settles O19: CONFIG is computed from the parameters alone, and no step changes them. -/
theorem configNeverChanges : Obligations.ConfigNeverChanges := by
  intro s t h
  have hp : t.params = s.params := step_params h
  refine ⟨hp, ?_, BitVec.extractLsb'_append_eq_right, BitVec.extractLsb'_append_eq_left⟩
  show configWord t = configWord s
  rw [configWord, configWord, hp]

/-! ### VCOM (R26) -/

theorem SameCore.vcom {s t : State} (h : SameCore s t) : t.vcom = s.vcom := by
  rw [show t = _ from h]

theorem DrawEnds.vcom {i : Instr} {s t : State} (h : DrawEnds i s t) : t.vcom = s.vcom := by
  cases h <;> rfl

theorem coreStep_vcom {s t : State} (h : coreStep s = .next t) : t.vcom = s.vcom := by
  obtain rfl | ⟨op, e, rest, -, -, -, ⟨-, rfl⟩ | ⟨-, rfl⟩⟩ := coreStep_cases h <;> rfl

/-- The actions that may change VCOM. -/
theorem ActEnds.vcom {a : Action} {s t : State} (h : ActEnds a s t) (ne : t.vcom ≠ s.vcom) :
    a = .reset ∨ a = .tick ∨ submits (fun i => decide (i = .toggleVcom)) a = true := by
  cases h with
  | same _ _ same => exact absurd same.vcom ne
  | drawing _ _ _ _ _ _ _ _ ends => exact absurd ends.vcom ne
  | core _ _ own => exact absurd (coreStep_vcom own) ne
  | port | window | refresh => exact absurd rfl ne
  | toggle _ source | skipped source => exact .inr source
  | reset ha => exact .inl ha

/-- Settles O54, by the cases of one action. -/
theorem onlyToggleVcomWritesVcom : Obligations.OnlyToggleVcomWritesVcom := by
  intro s t h ne
  obtain ⟨-, own⟩ | ⟨a, rest, hs, ends⟩ := step_cases h
  · exact absurd (coreStep_vcom own) ne
  · exact ⟨a, congrArg List.head? hs, ends.vcom ne⟩

/-! ### TRACE and CS (R30, R31) -/

/-- From `s` to `t` at most one event is issued, and CS is as that event leaves it. -/
def EmitsAtMostOne (s t : State) : Prop :=
  (t.trace = s.trace ∧ t.cs = s.cs) ∨
    ∃ e, t.trace = s.trace ++ [e] ∧ t.cs = if e = .csAssert then true else if e = .csDeassert then false else s.cs

theorem State.emit_cs (e : BusEvent) (s : State) :
    (s.emit e).cs = if e = .csAssert then true else if e = .csDeassert then false else s.cs := by
  cases e <;> rfl

theorem SameCore.trace_cs {s t : State} (h : SameCore s t) : t.trace = s.trace ∧ t.cs = s.cs := by
  rw [show t = _ from h]
  exact ⟨rfl, rfl⟩

theorem DrawEnds.trace_cs {i : Instr} {s t : State} (h : DrawEnds i s t) : t.trace = s.trace ∧ t.cs = s.cs := by
  cases h <;> exact ⟨rfl, rfl⟩

theorem coreStep_emitsAtMostOne {s t : State} (h : coreStep s = .next t) : EmitsAtMostOne s t := by
  obtain rfl | ⟨op, e, rest, -, -, -, ⟨-, rfl⟩ | ⟨-, rfl⟩⟩ := coreStep_cases h
  · exact .inl ⟨rfl, rfl⟩
  · exact .inr ⟨e, rfl, s.emit_cs e⟩
  · exact .inr ⟨e, rfl, s.emit_cs e⟩

theorem ActEnds.emitsAtMostOne {a : Action} {s t : State} (h : ActEnds a s t) (ha : a ≠ .reset) : EmitsAtMostOne s t := by
  cases h with
  | same _ _ same => exact .inl same.trace_cs
  | drawing _ _ _ _ _ _ _ _ ends => exact .inl ends.trace_cs
  | core _ _ own => exact coreStep_emitsAtMostOne own
  | port | window | refresh | toggle | skipped => exact .inl ⟨rfl, rfl⟩
  | reset isReset => exact absurd isReset ha

/-- Settles O56: only the core's own step issues events, and only reset empties TRACE. -/
theorem traceIsAppendOnly : Obligations.TraceIsAppendOnly := by
  intro s t h noReset
  obtain ⟨-, own⟩ | ⟨a, rest, hs, ends⟩ := step_cases h
  · exact coreStep_emitsAtMostOne own
  · refine ends.emitsAtMostOne fun ha => noReset ?_
    rw [hs, ha]
    rfl

/-! ### The bus output (R228, R229) -/

/-- CS is asserted after an event of a transaction exactly when more of it is to come. -/
theorem State.emit_cs_of_split {bytes : List Byte} {done rest : List BusEvent} {e : BusEvent} {s : State}
    (h : done ++ e :: rest = transaction bytes) (hcs : s.cs = !done.isEmpty) : (s.emit e).cs = !rest.isEmpty := by
  obtain ⟨last, more, first, -⟩ := transaction_split h
  cases rest with
  | nil => rw [last rfl]; rfl
  | cons r rest =>
    cases done with
    | nil => rw [first rfl]; rfl
    | cons d done => simp [s.emit_cs, more (List.cons_ne_nil r rest), hcs]

/-- Between transactions TRACE is whole and CS is deasserted. -/
theorem TraceOk.between {s : State} (h : TraceOk s) (hf : s.fault = false) (hx : s.xact = none) :
    WholeTransactions s.params s.trace ∧ s.cs = false := by
  obtain ⟨whole, done, rest, op, bytes, htrace, hwhole, -, -, -, hcs, -, idle⟩ := h
  obtain rfl := idle hf hx
  rw [htrace, List.append_nil]
  exact ⟨hwhole, hcs⟩

/-- With TRACE whole and CS deasserted, XACT may hold nothing or a transaction with all its events to come. -/
theorem TraceOk.of_whole {s : State} {op : TransportOp} {bytes : List Byte} (hwhole : WholeTransactions s.params s.trace)
    (hcs : s.cs = false) (wire : WireBytes s.params op bytes)
    (hx : ∀ x, s.xact = some x → x = { op := op, events := transaction bytes }) : TraceOk s :=
  ⟨s.trace, [], transaction bytes, op, bytes, (List.append_nil _).symm, hwhole, wire, rfl, transaction_ne_nil bytes, hcs, hx,
    fun _ _ => rfl⟩

/-- What TRACE holds while a transaction is in flight. -/
theorem TraceOk.inFlight {s : State} {op : TransportOp} {events : List BusEvent} (h : TraceOk s)
    (hx : s.xact = some { op := op, events := events }) :
    ∃ whole done bytes, s.trace = whole ++ done ∧ WholeTransactions s.params whole ∧ WireBytes s.params op bytes ∧
      done ++ events = transaction bytes ∧ s.cs = !done.isEmpty := by
  obtain ⟨whole, done, rest, op', bytes, htrace, hwhole, wire, hsplit, -, hcs, hxact, -⟩ := h
  cases hxact _ hx
  exact ⟨whole, done, bytes, htrace, hwhole, wire, hsplit, hcs⟩

/-- A fault drops XACT and leaves the open part of TRACE as it is (R255). -/
theorem TraceOk.raise {s : State} (h : TraceOk s) (r : Raise) : TraceOk (s.raise r) := by
  obtain ⟨whole, done, rest, op, bytes, htrace, hwhole, wire, hsplit, hrest, hcs, -, -⟩ := h
  exact ⟨whole, done, rest, op, bytes, htrace, hwhole, wire, hsplit, hrest, hcs, fun x hx => (nomatch hx),
    fun hf => (nomatch hf)⟩

/-- An event with more to come goes from the part still to come to the part emitted. -/
theorem TraceOk.emit_more {s : State} {op : TransportOp} {e : BusEvent} {rest : List BusEvent} (h : TraceOk s)
    (hx : s.xact = some { op := op, events := e :: rest }) (hrest : rest ≠ []) :
    TraceOk { s.emit e with xact := some { op := op, events := rest } } := by
  obtain ⟨whole, done, bytes, htrace, hwhole, wire, hsplit, hcs⟩ := h.inFlight hx
  refine ⟨whole, done ++ [e], rest, op, bytes, ?_, hwhole, wire, ?_, hrest, ?_, fun x hx => (Option.some.inj hx).symm,
    fun _ hx => (nomatch hx)⟩
  · rw [← List.append_assoc, ← htrace]; rfl
  · rw [List.append_assoc]; exact hsplit
  · show (s.emit e).cs = _
    rw [State.emit_cs_of_split hsplit hcs, List.isEmpty_eq_false_iff.2 hrest,
      List.isEmpty_eq_false_iff.2 (List.append_ne_nil_of_right_ne_nil done (List.cons_ne_nil e []))]

/-- The last event makes the open transaction whole. -/
theorem TraceOk.emit_last {s : State} {op : TransportOp} {e : BusEvent} (h : TraceOk s)
    (hx : s.xact = some { op := op, events := [e] }) (skip : Bool) :
    TraceOk { s.emit e with xact := none, busy := false, skip := skip } := by
  obtain ⟨whole, done, bytes, htrace, hwhole, wire, hsplit, hcs⟩ := h.inFlight hx
  refine .of_whole ?_ (State.emit_cs_of_split hsplit hcs) wire fun x hx => (nomatch hx)
  show WholeTransactions s.params (s.trace ++ [e])
  rw [htrace, List.append_assoc, hsplit]
  exact .more whole op bytes hwhole wire

/-! ### The invariant (R29, R31, R250, R255) -/

theorem CoreInv.xact_eq_none {s : State} (inv : CoreInv s) (hb : s.busy = false) : s.xact = none := by
  simpa [hb] using inv.busy

/-- The invariant holds in a reset state (R281). -/
theorem coreInv_of_resetState {s : State} (h : ResetState s) : CoreInv s := by
  obtain ⟨⟨hf, hb, hx, hcs⟩, -, htrace, hcode, hinfo, -, -, fbWf⟩ := h
  exact
    { fbWf := fbWf
      busy := by rw [hb, hx]; rfl
      halted := fun _ => hx
      noFault := fun _ => ⟨hcode, hinfo⟩
      faultCode := fun k => by simp [hf] at k
      trace := .of_whole (by rw [htrace]; exact .none) hcs (.clearScreen false) fun x k => by simp [hx] at k }

/-- Settles O58: the state right after reset is a reset state. -/
theorem theCoreInvariantHoldsAtReset : Obligations.TheCoreInvariantHoldsAtReset :=
  coreInv_of_resetState ⟨⟨rfl, rfl, rfl, rfl⟩, rfl, rfl, rfl, rfl, rfl, rfl, Memory.wf_nil _⟩

theorem CoreInv.resetCore {s : State} : CoreInv (resetCore s) :=
  coreInv_of_resetState ⟨⟨rfl, rfl, rfl, rfl⟩, rfl, rfl, rfl, rfl, rfl, rfl, Memory.wf_draw _ _⟩

/-- Beyond the framebuffer's canonical form, the invariant does not look at the framebuffer, VCOM, SKIP, the cursor, or the
agents around the core. -/
theorem CoreInv.frame {s : State} (inv : CoreInv s) {fb : Memory} {vcom skip : Bool} {col row : Half}
    {schedule : List Action} {busAccepts busIdle : Bool} {reply : Option Reply} {draws : Nat}
    (fbWf : fb.wf s.params.fbBytes) :
    CoreInv { s with
      fb := fb, vcom := vcom, skip := skip, col := col, row := row, schedule := schedule, busAccepts := busAccepts,
      busIdle := busIdle, reply := reply, draws := draws } :=
  { fbWf := fbWf
    busy := inv.busy
    halted := inv.halted
    noFault := inv.noFault
    faultCode := inv.faultCode
    trace := inv.trace }

theorem CoreInv.of_sameCore {s t : State} (inv : CoreInv s) (same : SameCore s t) : CoreInv t := by
  rw [show t = _ from same]
  exact inv.frame inv.fbWf

theorem CoreInv.flipVcom {s : State} (inv : CoreInv s) : CoreInv s.flipVcom := inv.frame inv.fbWf

theorem CoreInv.raise {s : State} (inv : CoreInv s) (r : Raise) : CoreInv (s.raise r) :=
  { fbWf := inv.fbWf
    busy := rfl
    halted := fun _ => rfl
    noFault := fun hf => (nomatch hf)
    faultCode := fun _ => ⟨r.kind, rfl⟩
    trace := inv.trace.raise r }

theorem CoreInv.startTransaction {s : State} {op : TransportOp} {bytes : List Byte} (inv : CoreInv s)
    (hf : s.fault = false) (hb : s.busy = false) (wire : WireBytes s.params op bytes) :
    CoreInv (s.startTransaction op bytes) := by
  obtain ⟨hwhole, hcs⟩ := inv.trace.between hf (inv.xact_eq_none hb)
  exact
    { fbWf := inv.fbWf
      busy := rfl
      halted := fun k => absurd (hf.symm.trans k) Bool.false_ne_true
      noFault := inv.noFault
      faultCode := inv.faultCode
      trace := .of_whole hwhole hcs wire fun x hx => (Option.some.inj hx).symm }

theorem CoreInv.of_drawEnds {i : Instr} {s t : State} (inv : CoreInv s) (ends : DrawEnds i s t) : CoreInv t := by
  cases ends with
  | done fb col row fbWf => exact inv.frame (fbWf inv.fbWf)
  | faulted r fb draws col row fbWf => exact (inv.raise r).frame (fbWf inv.fbWf)

theorem CoreInv.of_coreStep {s t : State} (inv : CoreInv s) (h : coreStep s = .next t) : CoreInv t := by
  obtain rfl | ⟨op, e, rest, hf, hx, -, ⟨hrest, rfl⟩ | ⟨rfl, rfl⟩⟩ := coreStep_cases h
  · exact inv
  · exact
      { fbWf := inv.fbWf
        busy := by show s.busy = true; rw [inv.busy, hx]; rfl
        halted := fun k => absurd (hf.symm.trans k) Bool.false_ne_true
        noFault := inv.noFault
        faultCode := inv.faultCode
        trace := inv.trace.emit_more hx hrest }
  · exact
      { fbWf := inv.fbWf
        busy := rfl
        halted := fun _ => rfl
        noFault := inv.noFault
        faultCode := inv.faultCode
        trace := inv.trace.emit_last hx op.skipAfter }

theorem CoreInv.of_actEnds {a : Action} {s t : State} (inv : CoreInv s) (h : ActEnds a s t) : CoreInv t := by
  cases h with
  | same _ _ same => exact inv.of_sameCore same
  | port r => exact inv.raise r
  | window off v _ _ _ hw => exact inv.frame (Memory.wf_write inv.fbWf v (by omega))
  | drawing _ _ _ _ _ _ _ _ ends => exact inv.of_drawEnds ends
  | refresh _ _ op bytes _ _ _ hf hb wire => exact inv.startTransaction hf hb wire
  | toggle bytes _ hf hb _ wire => exact inv.flipVcom.startTransaction hf hb wire
  | skipped => exact inv.frame inv.fbWf
  | core _ _ own => exact inv.of_coreStep own
  | reset => exact .resetCore

/-- Settles O59: the core's own step keeps the invariant, and so does every action. -/
theorem stepKeepsTheCoreInvariant : Obligations.StepKeepsTheCoreInvariant := by
  intro s t inv h
  obtain ⟨-, own⟩ | ⟨a, rest, -, ends⟩ := step_cases h
  · exact inv.of_coreStep own
  · exact (inv.of_sameCore (t := s.withSchedule rest) rfl).of_actEnds ends

end Sys2Proof.Machine
end

section
/-! The framebuffer as memory (`20_memory.md`): its bits are the pixels, the host's window reads and writes its bytes, and it is
stable while a transaction is in flight. -/

namespace Sys2Proof.Machine

/-! ### Bits and pixels (R50 to R52) -/

theorem pixelOff_span (p : Params) {i : Nat} (hi : i < 8) (k y : Nat) :
    pixelOff p ((8 * k + i : Nat) : Int) y = y * p.rowBytes + k := by
  rw [pixelOff, Int.toNat_natCast, Int.toNat_natCast, Nat.mul_add_div (by decide), Nat.div_eq_of_lt hi, Nat.add_zero]

theorem inBounds_span {p : Params} {i k y : Nat} (hi : i < 8) (hk : k < p.rowBytes) (hy : y < p.height) :
    InBounds p ((8 * k + i : Nat) : Int) y := by
  have hw : p.width = 8 * p.rowBytes := rfl
  exact ⟨by omega, by omega, by omega, by omega⟩

/-- Byte `a` is byte `a % ROW_BYTES` of row `a / ROW_BYTES`, and its bit `b` is lane `7 - b`. -/
theorem exists_pixel_of_bit {p : Params} {a b : Nat} (ha : a < p.fbBytes) (hb : b < 8) :
    ∃ x y, InBounds p x y ∧ pixelOff p x y = a ∧ 7 - x.toNat % 8 = b := by
  have hk : a % p.rowBytes < p.rowBytes := Nat.mod_lt a p.size.rowBytes_pos
  have hy : a / p.rowBytes < p.height := Nat.div_lt_of_lt_mul (Nat.mul_comm p.height _ ▸ ha)
  have hi : 7 - b < 8 := by omega
  refine ⟨((8 * (a % p.rowBytes) + (7 - b) : Nat) : Int), (a / p.rowBytes : Nat), inBounds_span hi hk hy, ?_, by omega⟩
  rw [pixelOff_span p hi, Nat.div_add_mod']

/-- Settles O20: the address of a pixel, and the pixel of a bit, which is its only one. -/
theorem everyFramebufferBitIsOnePixel : Obligations.EveryFramebufferBitIsOnePixel := by
  refine ⟨fun p fb k i y hi => ?_, fun p a b ha hb => ?_⟩
  · have lane : (8 * k + i) % 8 = i := by omega
    rw [pix, pixelOff_span p hi, Int.toNat_natCast, lane]
  · obtain ⟨x, y, hin, hoff, hbit⟩ := exists_pixel_of_bit ha hb
    refine ⟨(x, y), ⟨hin, hoff, hbit⟩, fun q ⟨qin, qoff, qbit⟩ => ?_⟩
    obtain ⟨hx, hy⟩ := (pixel_eq_iff qin hin).1 ⟨qoff.trans hoff.symm, by omega⟩
    exact Prod.ext hx hy

/-! ### The host's window (R57), one case at a time -/

section
variable {s : State} {off : Int}

theorem act_readFB_inWindow (hw : InWindow s.params off) :
    act (.readFB off) s = .next { s with reply := some (.byte (s.fb.read off.toNat)) } := by
  rw [act, hostReadFB, if_pos hw]

theorem act_readFB_halted (hf : s.fault = true) (hw : ¬ InWindow s.params off) : act (.readFB off) s = .next s := by
  rw [act, hostReadFB, if_neg hw, if_pos hf]

theorem act_readFB_outside (hf : s.fault = false) (hw : ¬ InWindow s.params off) :
    act (.readFB off) s = .next (s.raise (addressRange off)) := by
  rw [act, hostReadFB, if_neg hw, if_neg (Bool.eq_false_iff.1 hf)]

theorem act_writeFB_halted (hf : s.fault = true) (off : Int) (v : Byte) : act (.writeFB off v) s = .next s := by
  rw [act, hostWriteFB, if_pos hf]

theorem act_writeFB_outside (hf : s.fault = false) (hw : ¬ InWindow s.params off) (v : Byte) :
    act (.writeFB off v) s = .next (s.raise (addressRange off)) := by
  rw [act, hostWriteFB, if_neg (Bool.eq_false_iff.1 hf), if_pos hw]

theorem act_writeFB_busy (hf : s.fault = false) (hw : InWindow s.params off) (hb : s.busy = true) (v : Byte) :
    act (.writeFB off v) s = .next (s.raise (overrun 1 s)) := by
  rw [act, hostWriteFB, if_neg (Bool.eq_false_iff.1 hf), if_neg (not_not_intro hw), if_pos hb]

theorem act_writeFB_idle (hf : s.fault = false) (hw : InWindow s.params off) (hb : s.busy = false) (v : Byte) :
    act (.writeFB off v) s = .next { s with fb := s.fb.write off.toNat v } := by
  rw [act, hostWriteFB, if_neg (Bool.eq_false_iff.1 hf), if_neg (not_not_intro hw), if_neg (Bool.eq_false_iff.1 hb)]

end

theorem faultEntered_raise (r : Raise) (s : State) : FaultEntered r.kind.code r.info s (s.raise r) := rfl

theorem xactField_eq {s : State} {x : Xact} (hx : s.xact = some x) : xactField s = xactNumber x.op := by
  obtain ⟨op, events⟩ := x
  rw [xactField, hx]
  cases op <;> rfl

/-- What COMMAND_OVERRUN reports while `x` is in flight (R254). -/
theorem faultEntered_overrun {s : State} {x : Xact} (hx : s.xact = some x) (source : Half) :
    FaultEntered 6 (source ++ xactNumber x.op) s (s.raise (overrun source s)) := by
  rw [← xactField_eq hx]
  exact faultEntered_raise (overrun source s) s

/-- Settles O17: each clause is one case of the read or of the write. -/
theorem framebufferWindowReadsAndWritesOneByte : Obligations.FramebufferWindowReadsAndWritesOneByte := by
  intro s off v hwf
  have outside : FaultEntered 7 (BitVec.ofInt 32 off) s (s.raise (addressRange off)) := faultEntered_raise _ s
  refine ⟨fun hf => act_writeFB_halted hf off v, act_readFB_halted, act_readFB_inWindow,
    fun hf hw => ⟨⟨_, act_readFB_outside hf hw, outside⟩, _, act_writeFB_outside hf hw v, outside⟩,
    fun x hf hw hb hx => ⟨_, act_writeFB_busy hf hw hb v, faultEntered_overrun hx 1⟩, fun hf hw hb => ?_⟩
  obtain ⟨hlo, hhi⟩ := hw
  exact ⟨_, act_writeFB_idle hf ⟨hlo, hhi⟩ hb v, Memory.wf_write hwf v ((Int.toNat_lt hlo).2 hhi),
    Memory.read_write hwf off.toNat v⟩

/-! ### Stability while busy (R63) -/

theorem SameCore.fb {s t : State} (h : SameCore s t) : t.fb = s.fb := by
  rw [show t = _ from h]

theorem coreStep_fb {s t : State} (h : coreStep s = .next t) : t.fb = s.fb := by
  obtain rfl | ⟨op, e, rest, -, -, -, ⟨-, rfl⟩ | ⟨-, rfl⟩⟩ := coreStep_cases h <;> rfl

/-- While busy only reset replaces the framebuffer: drawing and the host's writes need `BUSY = 0`. -/
theorem ActEnds.fb_of_busy {a : Action} {s t : State} (h : ActEnds a s t) (hb : s.busy = true) (ha : a ≠ .reset) :
    t.fb = s.fb := by
  cases h with
  | same _ _ same => exact same.fb
  | window _ _ _ _ idle | drawing _ _ _ _ _ _ _ idle => exact absurd (idle.symm.trans hb) Bool.false_ne_true
  | core _ _ own => exact coreStep_fb own
  | port | refresh | toggle | skipped => rfl
  | reset isReset => exact absurd isReset ha

/-- Settles O55: neither the core's own step nor any action but reset changes the framebuffer while busy. -/
theorem theFramebufferIsStableWhileBusy : Obligations.TheFramebufferIsStableWhileBusy := by
  intro s t h hb noReset
  obtain ⟨-, own⟩ | ⟨a, rest, hs, ends⟩ := step_cases h
  · exact coreStep_fb own
  · refine ends.fb_of_busy hb fun ha => noReset ?_
    rw [hs, ha]
    rfl

end Sys2Proof.Machine
end

section
/-! The encoding of commands (`30_encoding.md`): which packets decode and to what, the assembler, and the command port on a
packet. -/

namespace Sys2Proof.Machine

/-! ### What the decoder accepts (R74, R77) -/

/-- The opcodes of R74's map, as numbers. -/
theorem exists_ofCode_iff {b : Byte} : (∃ op, Opcode.ofCode b = some op) ↔
    b.toNat ∈ [0x01, 0x02, 0x03, 0x04, 0x05, 0x06, 0x07, 0x08, 0x09, 0x0A, 0x0B, 0x10, 0x11, 0x12] := by
  rw [← Option.isSome_iff_exists, Opcode.ofCode, List.find?_isSome]
  change _ ↔ b.toNat ∈ Opcode.all.map fun op => op.code.toNat
  simp only [List.mem_map, beq_iff_eq, BitVec.toNat_inj]

/-- R71 with the opcode as a number: only a DRAW_STRING has text words. -/
theorem packetLength_eq_ite (op : Opcode) (imm : Half) :
    packetLength op imm = if op.code.toNat = 0x0A then 3 + (imm.toNat + 3) / 4 else 3 := by
  cases op <;> rfl

theorem three_le_packetLength (op : Opcode) (imm : Half) : 3 ≤ packetLength op imm := by
  rw [packetLength_eq_ite]
  split <;> omega

/-- The only way a packet decodes: each check passes, and its two operand words are there. -/
theorem decode_cons_eq_ok_iff {h : Word} {rest : List Word} {i : Instr} :
    decode (h :: rest) = .ok i ↔ ∃ op w1 w2 text, Opcode.ofCode (headerOp h) = some op ∧ headerRsv h = 0 ∧
      rest = w1 :: w2 :: text ∧ text.length + 3 = packetLength op (headerImm h) ∧ commandOf op h w1 w2 text = i := by
  constructor
  · intro hd
    rw [decode] at hd
    split at hd
    · cases hd
    next op hop =>
      split at hd
      · cases hd
      next hrsv =>
        split at hd
        · cases hd
        next hlen =>
          split at hd
          next w1 w2 text =>
            cases hd
            exact ⟨op, w1, w2, text, hop, not_not.1 hrsv, rfl, not_not.1 hlen, rfl⟩
          next => cases hd
  · rintro ⟨op, w1, w2, text, hop, hrsv, rfl, hlen, rfl⟩
    simp [decode, hop, hrsv, hlen]

/-- `LegalPacket` speaks of the fields as numbers; this is the same of the decoder's own fields. -/
theorem legalPacket_cons_iff {h : Word} {rest : List Word} : LegalPacket (h :: rest) ↔
    ∃ op, Opcode.ofCode (headerOp h) = some op ∧ headerRsv h = 0 ∧ rest.length + 1 = packetLength op (headerImm h) := by
  have hrsv : headerRsv h = 0 ↔ h.toNat / 2 ^ 17 % 2 ^ 7 = 0 := by
    rw [← headerRsv_toNat, ← BitVec.toNat_inj]; rfl
  have hlen (op : Opcode) (hop : Opcode.ofCode (headerOp h) = some op) : packetLength op (headerImm h) =
      if h.toNat / 2 ^ 24 = 0x0A then 3 + (h.toNat % 2 ^ 16 + 3) / 4 else 3 := by
    rw [packetLength_eq_ite, code_of_ofCode _ _ hop, headerOp_toNat, headerImm_toNat]
  rw [LegalPacket, ← headerOp_toNat, ← exists_ofCode_iff, headerOp_toNat, ← hrsv]
  constructor
  · rintro ⟨⟨op, hop⟩, hr, hl⟩
    exact ⟨op, hop, hr, hl.trans (hlen op hop).symm⟩
  · rintro ⟨op, hop, hr, hl⟩
    exact ⟨⟨op, hop⟩, hr, hl.trans (hlen op hop)⟩

/-- The four checks of R77 are exactly what the decoder asks for. -/
theorem legalPacket_iff_decodes {w : List Word} : LegalPacket w ↔ ∃ i, decode w = .ok i := by
  cases w with
  | nil => simp [LegalPacket, decode]
  | cons h rest =>
    simp only [legalPacket_cons_iff, decode_cons_eq_ok_iff]
    constructor
    · rintro ⟨op, hop, hrsv, hlen⟩
      match rest, hlen with
      | w1 :: w2 :: text, hlen => exact ⟨_, op, w1, w2, text, hop, hrsv, rfl, hlen, rfl⟩
      | [], hlen | [_], hlen =>
        have := three_le_packetLength op (headerImm h)
        simp only [List.length_cons, List.length_nil] at hlen
        omega
    · rintro ⟨i, op, w1, w2, text, hop, hrsv, rfl, hlen, -⟩
      exact ⟨op, hop, hrsv, hlen⟩

/-- A text has at most `IMM` characters, and `IMM` has 16 bits. -/
theorem commandOf_wf (op : Opcode) (h w1 w2 : Word) (text : List Word) : (commandOf op h w1 w2 text).wf = true := by
  cases op
  case drawString =>
    have := (headerImm h).isLt
    simp only [commandOf, Instr.wf, textChars, List.length_take, decide_eq_true_eq]
    omega
  all_goals rfl

/-- The decoder gives well-formed commands only. -/
theorem wf_of_decode {w : List Word} {i : Instr} (hd : decode w = .ok i) : i.wf = true := by
  cases w with
  | nil => cases hd
  | cons h rest =>
    obtain ⟨op, w1, w2, text, -, -, -, -, rfl⟩ := decode_cons_eq_ok_iff.1 hd
    exact commandOf_wf op h w1 w2 text

/-! ### Round trip -/

/-- Settles O1: the round trip of each command. -/
theorem decodingAnEncodedCommandGivesItBack : Obligations.DecodingAnEncodedCommandGivesItBack := by
  intro i
  cases i with
  | fill v => exact Laws.Encoding.fill v
  | setPixel c x y => exact Laws.Encoding.setPixel c x y
  | hrun c x1 x2 thickness y => exact Laws.Encoding.hrun c x1 x2 thickness y
  | vrun c x y1 y2 => exact Laws.Encoding.vrun c x y1 y2
  | fillRect c xMin yMin xMax yMax => exact Laws.Encoding.fillRect c xMin yMin xMax yMax
  | drawRect c xMin yMin xMax yMax => exact Laws.Encoding.drawRect c xMin yMin xMax yMax
  | line x1 y1 x2 y2 => exact Laws.Encoding.line x1 y1 x2 y2
  | circle cx cy r => exact Laws.Encoding.circle cx cy r
  | drawChar font ch => exact Laws.Encoding.drawChar font ch
  | drawString font text => exact Laws.Encoding.drawString font text
  | setCursor col row => exact Laws.Encoding.setCursor col row
  | write => exact Laws.Encoding.write
  | clearScreen => exact Laws.Encoding.clearScreen
  | toggleVcom => exact Laws.Encoding.toggleVcom

/-- The round trip from the words, as an assembled or written-out packet gives them. -/
theorem decode_of_encode_eq {i : Instr} {w : List Word} (hw : i.wf = true) (he : encode i = w) : decode w = .ok i :=
  he ▸ decodingAnEncodedCommandGivesItBack i hw

/-- Settles O2: each packet is the encoder's own for its command. -/
theorem writtenOutPacketsDecode : Obligations.WrittenOutPacketsDecode := by
  refine ⟨?_, ?_, ?_, ?_, ?_, ?_, ?_, ?_, ?_, ?_, ?_, ?_, ?_, ?_⟩ <;>
    exact decode_of_encode_eq rfl (by decide)

/-! ### A packet by its fields (R73, R75, R79, R82) -/

/-- A packet of any fields decodes to the command of its opcode once it has the text words its count asks for. -/
theorem decode_specPacket_append (op : Opcode) (c : Bool) (imm p0 p1 p2 p3 : Half) (text : List Word)
    (hlen : text.length + 3 = packetLength op imm) :
    decode (specPacket op.code c imm p0 p1 p2 p3 ++ text) =
      .ok (commandOf op (headerWord op (if c then .bg else .fg) imm) (p0 ++ p1) (p2 ++ p3) text) := by
  rw [specPacket_eq]
  exact decode_cons_eq_ok_iff.2
    ⟨op, _, _, text, by simp, headerRsv_encode .., rfl, by rw [headerImm_encode, hlen], rfl⟩

/-- A packet of three words and its operands: `command` is read off the fields. -/
theorem decode_specPacket (op : Opcode) {c : Bool} {imm p0 p1 p2 p3 : Half} {command : Instr} (hlen : packetLength op imm = 3)
    (fields : commandOf op (headerWord op (if c then .bg else .fg) imm) (p0 ++ p1) (p2 ++ p3) [] = command) :
    decode (specPacket op.code c imm p0 p1 p2 p3) = .ok command := by
  rw [← fields, ← decode_specPacket_append op c imm p0 p1 p2 p3 [] hlen.symm, List.append_nil]

/-- Settles O3: opcode by opcode, the operands are the fields of the packet's words. -/
theorem eachOpcodeReadsItsFieldsAndIgnoresTheRest : Obligations.EachOpcodeReadsItsFieldsAndIgnoresTheRest := by
  intro c imm p0 p1 p2 p3
  refine ⟨decode_specPacket .fill rfl ?_, decode_specPacket .setPixel rfl ?_, decode_specPacket .hrun rfl ?_,
    decode_specPacket .vrun rfl ?_, decode_specPacket .fillRect rfl ?_, decode_specPacket .drawRect rfl ?_,
    decode_specPacket .line rfl ?_, decode_specPacket .circle rfl ?_, decode_specPacket .drawChar rfl ?_,
    decode_specPacket .setCursor rfl ?_, decode_specPacket .write rfl ?_, decode_specPacket .clearScreen rfl ?_,
    decode_specPacket .toggleVcom rfl ?_⟩ <;>
    simp [commandOf, lowByte_eq, highByte_eq]

/-- Settles O4: the characters are the first `n` bytes of the text words, and `n` words of four hold at least `n`. -/
theorem textWordsHoldTheCharactersInOrder : Obligations.TextWordsHoldTheCharactersInOrder := by
  intro c n p0 p1 p2 p3 text hlen
  have enough : n.toNat ≤ 4 * text.length := by omega
  refine ⟨textChars n.toNat text, ?_, ?_, fun i hi => ?_⟩
  · refine (decode_specPacket_append .drawString c n p0 p1 p2 p3 text ?_).trans ?_
    · rw [hlen, Nat.add_comm, packetLength]
    · simp [commandOf, lowByte_eq]
  · rw [textChars, List.length_take, length_wordChars, Nat.min_eq_left enough]
  · rw [textChars, List.getElem?_take_of_lt hi, getElem?_wordChars text i (hi.trans_le enough)]

/-! ### The command port (R70, R77, R78) -/

theorem submit_of_decode {s : State} {w : List Word} {i : Instr} (hd : decode w = .ok i) (hf : s.fault = false)
    (hb : s.busy = false) : act (.submit w) s = exec i s := by
  simp [act, submit, hf, hb, hd]

theorem submit_of_illegal {s : State} {w : List Word} {e : DecodeError} (hd : decode w = .error e) (hf : s.fault = false)
    (hb : s.busy = false) :
    act (.submit w) s = .next (s.raise { kind := .illegalCommand, info := illegalInfo w }) := by
  simp [act, submit, hf, hb, hd]

/-- The information word of an illegal packet is the number of R77. -/
theorem illegalInfo_eq (w : List Word) : illegalInfo w = BitVec.ofNat 32 (illegalNumber w) := by
  cases w with
  | nil => rfl
  | cons h rest =>
    have := h.isLt
    apply BitVec.eq_of_toNat_eq
    simp only [illegalInfo, illegalNumber, toNat_append_add, BitVec.toNat_setWidth, BitVec.toNat_ofNat, headerOp_toNat,
      List.length_cons]
    omega

/-- Settles O6: the legal packets are those that decode, and any other raises at the port. -/
theorem illegalPacketsRaiseAndLegalOnesExecute : Obligations.IllegalPacketsRaiseAndLegalOnesExecute := by
  intro w s hf hb
  rw [legalPacket_iff_decodes]
  cases hd : decode w with
  | ok i => exact ⟨fun _ => ⟨i, rfl, wf_of_decode hd, submit_of_decode hd hf hb⟩, fun illegal => absurd ⟨i, rfl⟩ illegal⟩
  | error e =>
    refine ⟨fun ⟨i, hi⟩ => (nomatch hi), fun _ => ⟨_, submit_of_illegal hd hf hb, ?_⟩⟩
    rw [← illegalInfo_eq]
    exact faultEntered_raise _ s

theorem step_of_schedule {s : State} {a : Action} {rest : List Action} (hs : s.schedule = a :: rest) :
    step s = act a (s.withSchedule rest) := by
  simp only [step, nextStep, hs]

theorem decodeTableWord_eq_some_iff {nbits w : Nat} {i : Instr} :
    decodeTableWord nbits w = some i ↔ decode (tablePacket nbits w) = .ok i := by
  unfold decodeTableWord
  cases decode (tablePacket nbits w) <;> simp

/-- Settles O7: the packet is the schedule's head, which for a placed word leaves the state it was placed in. -/
theorem stepRunsTheDecodedPacket : Obligations.StepRunsTheDecodedPacket := by
  constructor
  · intro s w rest i hs hd hf hb
    rw [step_of_schedule hs, submit_of_decode (s := s.withSchedule rest) hd hf hb]
    rfl
  · intro s nbits w i hw hf hb
    rw [step_of_schedule (s.withFetchWord_schedule nbits w), s.withFetchWord_withSchedule,
      submit_of_decode (decodeTableWord_eq_some_iff.1 hw) hf hb]

/-! ### The assembler (R83, R84, R86) -/

theorem assemble_congr {p : Params} {a b : Asm} (h : a.command p = b.command p) : a.assemble p = b.assemble p := by
  rw [Asm.assemble, Asm.assemble, h]

theorem assemble_eq_some_iff {p : Params} {a : Asm} {w : List Word} :
    a.assemble p = some w ↔ (a.command p).wf = true ∧ encode (a.command p) = w := by
  simp [Asm.assemble]

/-- An operand that already is a 16-bit field is that field. -/
theorem asmField_toNat (v : Half) : asmField v.toNat = v := by
  simp [asmField]

/-- Settles O8: a pseudo-instruction stands for the command its expansion stands for, and the rest is the round trip. -/
theorem assembledFormsDecodeToTheirCommands : Obligations.AssembledFormsDecodeToTheirCommands := by
  refine ⟨fun p x1 x2 x y c => ?_, fun p a w ha => ?_⟩
  · have home : Asm.command p .home = Asm.command p (.setCursor p.leftMargin.toNat 0) := by
      rw [Asm.command, Asm.command, asmField_toNat]; rfl
    exact ⟨assemble_congr rfl, assemble_congr rfl, assemble_congr rfl, assemble_congr rfl, assemble_congr rfl,
      assemble_congr home, assemble_congr rfl⟩
  · obtain ⟨wf, packet⟩ := assemble_eq_some_iff.1 ha
    exact decode_of_encode_eq wf packet

end Sys2Proof.Machine
end

section
/-! FILL, SET_PIXEL and the frame of every drawing command (`40_framebuffer.md`). -/

namespace Sys2Proof.Machine

/-! ### Painting a set twice -/

section
variable {p : Params} {c c' : Colour} {A : Int → Int → Prop} {fb fb1 fb2 : Memory}

/-- Painting one set twice leaves it as the second time alone does. -/
theorem Painted.overpaint (h1 : Painted p c A fb fb1) (h2 : Painted p c' A fb1 fb2) : Painted p c' A fb fb2 := by
  obtain ⟨-, pixels1, bytes1⟩ := h1
  obtain ⟨wf2, pixels2, bytes2⟩ := h2
  exact ⟨wf2, fun x y hb => ⟨(pixels2 x y hb).1, fun hA => ((pixels2 x y hb).2 hA).trans ((pixels1 x y hb).2 hA)⟩,
    fun a ha => (bytes2 a ha).trans (bytes1 a ha)⟩

/-- Painting the same set in the same colour a second time changes nothing. -/
theorem Painted.idempotent (h1 : Painted p c A fb fb1) (h2 : Painted p c A fb1 fb2) : fb2 = fb1 :=
  h2.unique h1.again

/-- A set that had the second colour before is restored by the second painting. -/
theorem Painted.restores (hwf : fb.wf p.fbBytes) (had : ∀ x y, InBounds p x y → A x y → pix p fb x y = c'.bit)
    (h1 : Painted p c A fb fb1) (h2 : Painted p c' A fb1 fb2) : fb2 = fb :=
  (h1.overpaint h2).unique ⟨hwf, fun x y hb => ⟨had x y hb, fun _ => rfl⟩, fun _ _ => rfl⟩

end

/-! ### FILL (R100) -/

theorem wf_fillAll (p : Params) (v : Byte) : (fillAll p v).wf p.fbBytes :=
  Memory.wf_build _ _ _ _ (Nat.zero_add _).le

theorem read_fillAll {p : Params} {off : Nat} (h : off < p.fbBytes) (v : Byte) : (fillAll p v).read off = v := by
  rw [fillAll, Memory.read_build, if_pos (by omega)]

/-- Settles O21: the new framebuffer is built from the value alone. -/
theorem fillWritesEveryByte : Obligations.FillWritesEveryByte := fun v s =>
  ⟨fillAll s.params v, rfl, wf_fillAll s.params v, fun _ h => read_fillAll h v⟩

/-! ### SET_PIXEL (R102, R103) -/

section
variable {c : Colour} {x y : Half} {s : State}

theorem setPixel_paintsExactly (hwf : s.fb.wf s.params.fbBytes) (hin : InBounds s.params (sext16 x) (sext16 y)) :
    PaintsExactly (.setPixel c x y) s c (fun u v => u = sext16 x ∧ v = sext16 y) := by
  obtain ⟨fb, painting, painted⟩ := paint_ok (c := c) hwf hin
  refine ⟨fb, ?_, painted⟩
  rw [exec, execSetPixel, painting, State.finishDrawing]

theorem exec_setPixel_outside (hout : ¬ InBounds s.params (sext16 x) (sext16 y)) :
    exec (.setPixel c x y) s = .next (s.raiseDrawing (outOfBounds (sext16 x) (sext16 y))) := by
  rw [exec, execSetPixel, paint_error hout, State.finishDrawing]

end

/-- Settles O22: the painting is idempotent because the one pixel already has the colour. -/
theorem setPixelPaintsOneBitOrFaults : Obligations.SetPixelPaintsOneBitOrFaults := by
  intro c x y s hwf
  refine ⟨fun hin => ?_, fun hout => ⟨_, exec_setPixel_outside hout, pixelFault_raiseDrawing _ _ s⟩⟩
  have paints := setPixel_paintsExactly (c := c) hwf hin
  refine ⟨paints, fun t first => ?_⟩
  obtain ⟨fb1, run1, painted1⟩ := paints
  cases run1.symm.trans first
  obtain ⟨fb2, run2, painted2⟩ := setPixel_paintsExactly (c := c) (s := { s with fb := fb1 }) painted1.1 hin
  rw [run2, painted1.idempotent painted2]

/-- Settles O23: the pair leaves the pixel and the rest as the background alone does. -/
theorem pixelBlackThenWhiteRestores : Obligations.PixelBlackThenWhiteRestores := by
  intro x y s hwf hin
  obtain ⟨fb1, run1, painted1⟩ := setPixel_paintsExactly (c := .fg) hwf hin
  obtain ⟨fb2, run2, painted2⟩ := setPixel_paintsExactly (c := .bg) (s := { s with fb := fb1 }) painted1.1 hin
  obtain ⟨-, pixels, -⟩ := painted1.overpaint painted2
  refine ⟨_, _, run1, run2, (pixels _ _ hin).1 ⟨rfl, rfl⟩, fun u v huv => (pixels u v huv).2, fun had => ?_⟩
  have restored : fb2 = s.fb := painted1.restores hwf (fun u v _ ⟨hu, hv⟩ => by rw [hu, hv]; exact had) painted2
  rw [restored]

/-! ### The frame of a drawing command (R104) -/

theorem textCommand_of_cursorCommand {i : Instr} (h : cursorCommand i = false) : textCommand i = false := by
  cases i
  case setCursor => rfl
  all_goals exact h

theorem DrawEnds.skip {i : Instr} {s t : State} (h : DrawEnds i s t) : t.skip = s.skip := by
  cases h <;> rfl

/-- A core with no transaction in flight has none after a drawing command. -/
theorem DrawEnds.idle {i : Instr} {s t : State} (h : DrawEnds i s t) (hb : s.busy = false) (hx : s.xact = none) :
    t.busy = false ∧ t.xact = none := by
  cases h with
  | done => exact ⟨hb, hx⟩
  | faulted => exact ⟨rfl, rfl⟩

/-- Completed or faulted, only a text command or SET_CURSOR moves the cursor (R28). -/
theorem DrawEnds.cursor {i : Instr} {s t : State} (h : DrawEnds i s t) (hc : cursorCommand i = false) :
    t.col = s.col ∧ t.row = s.row := by
  cases h with
  | done _ _ _ _ cursor => exact cursor hc
  | faulted _ _ _ _ _ _ _ cursor => exact cursor (textCommand_of_cursorCommand hc)

/-- Settles O45, by the two ends of a drawing command. -/
theorem drawingCommandsLeaveTheTransportAlone : Obligations.DrawingCommandsLeaveTheTransportAlone := by
  intro i s hd _ hb hx
  obtain ⟨t, run⟩ := exec_next i s
  have ends := exec_drawing hd run
  obtain ⟨busy, xact⟩ := ends.idle hb hx
  obtain ⟨trace, cs⟩ := ends.trace_cs
  exact ⟨t, run, busy, xact, cs, trace, ends.vcom, ends.skip, ends.params, ends.cursor⟩

end Sys2Proof.Machine
end

section
/-! Runs and rectangles (`41_axis_runs.md`): the edge masks, what HRUN, VRUN, FILL_RECT and DRAW_RECT paint, and the operands that
raise before anything is painted. -/

namespace Sys2Proof.Machine

/-! ### The edge masks (R120, R133) -/

/-- Settles O24: bit `7 - i` of a mask is the lane of column `i`. -/
theorem edgeMasksSelectTheirLanes : Obligations.EdgeMasksSelectTheirLanes := by
  refine ⟨fun lo i hi => ?_, fun hi i h => ?_, maskByte_getLsbD⟩
  · rw [firstMask_getLsbD _ _ (by omega), decide_eq_true_iff, Int.toNat_natCast]
    omega
  · rw [lastMask_getLsbD _ _ (by omega), decide_eq_true_iff, Int.toNat_natCast]
    omega

section
variable {i j : Instr} {c : Colour} {s : State}

/-! ### The end of a drawing command, read off its drawing -/

theorem PaintsExactly.of_drawing {A : Int → Int → Prop} {res : Except Raise Memory}
    (run : exec i s = .next (s.finishDrawing res)) (drawn : ∃ fb, res = .ok fb ∧ Painted s.params c A s.fb fb) :
    PaintsExactly i s c A := by
  obtain ⟨fb, rfl, painted⟩ := drawn
  exact ⟨fb, run, painted⟩

/-- A fault other than PIXEL_OUT_OF_BOUNDS is entered and changes nothing else (R256). -/
theorem faultEntered_of_drawing {r : Raise} (run : exec i s = .next (s.finishDrawing (.error r)))
    (hk : r.kind ≠ .pixelOutOfBounds) : ∃ t, exec i s = .next t ∧ FaultEntered r.kind.code r.info s t := by
  obtain ⟨fb, draws, raised, -, keep⟩ := raiseDrawing_eq r s
  obtain ⟨rfl, rfl⟩ := keep hk
  exact ⟨_, run, raised⟩

theorem SameEnd.of_exec_eq (h : exec i s = exec j s) : SameEnd (exec i s) (exec j s) := by
  obtain ⟨t, run⟩ := exec_next i s
  exact ⟨t, t, run, h ▸ run, .inl rfl⟩

/-! ### HRUN (R122, R123) -/

theorem exec_hrun (x1 x2 t y : Half) : exec (.hrun c x1 x2 t y) s = .next (s.finishDrawing
    (horizontalRun s.params c (sext16 x1) (sext16 x2) t.toNat (sext16 y) s.fb)) := rfl

theorem horizontalRun_zero (p : Params) (x1 x2 y : Int) (fb : Memory) : horizontalRun p c x1 x2 0 y fb = .ok fb := rfl

/-! ### VRUN (R125) -/

theorem exec_vrun (x y1 y2 : Half) : exec (.vrun c x y1 y2) s = .next (s.finishDrawing
    (verticalRun s.params c (sext16 x) (sext16 y1) (sext16 y2) s.fb)) := rfl

theorem verticalRun_comm (p : Params) (x y1 y2 : Int) (fb : Memory) :
    verticalRun p c x y1 y2 fb = verticalRun p c x y2 y1 fb := by
  rw [verticalRun, verticalRun, min_comm, max_comm]

/-! ### FILL_RECT (R128) -/

theorem exec_fillRect (xMin yMin xMax yMax : Half) : exec (.fillRect c xMin yMin xMax yMax) s = .next (s.finishDrawing
    (filledRect s.params c (sext16 xMin) (sext16 yMin) (sext16 xMax) (sext16 yMax) s.fb)) := rfl

theorem filledRect_eq_horizontalRun {p : Params} {xMin yMin xMax yMax : Int} (valid : ValidRect xMin yMin xMax yMax)
    (fb : Memory) :
    filledRect p c xMin yMin xMax yMax fb = horizontalRun p c xMin xMax (yMax - yMin + 1).toNat yMin fb := by
  rw [filledRect, if_pos valid, horizontalRun, min_eq_left valid.1, max_eq_right valid.1]

theorem filledRect_inverted {p : Params} {xMin yMin xMax yMax : Int} (inverted : ¬ ValidRect xMin yMin xMax yMax)
    (fb : Memory) : filledRect p c xMin yMin xMax yMax fb = .error (invalidRect .fillRect) := if_neg inverted

theorem fillRect_paintsExactly {xMin yMin xMax yMax : Half} (hwf : s.fb.wf s.params.fbBytes)
    (valid : ValidRect (sext16 xMin) (sext16 yMin) (sext16 xMax) (sext16 yMax))
    (hin : AllInBounds s.params (RectPixels (sext16 xMin) (sext16 yMin) (sext16 xMax) (sext16 yMax))) :
    PaintsExactly (.fillRect c xMin yMin xMax yMax) s c
      (RectPixels (sext16 xMin) (sext16 yMin) (sext16 xMax) (sext16 yMax)) :=
  .of_drawing (exec_fillRect xMin yMin xMax yMax) (filledRect_ok hwf valid hin)

/-! ### DRAW_RECT (R131) -/

theorem exec_drawRect (xMin yMin xMax yMax : Half) : exec (.drawRect c xMin yMin xMax yMax) s = .next (s.finishDrawing
    (outlinedRect s.params c (sext16 xMin) (sext16 yMin) (sext16 xMax) (sext16 yMax) s.fb)) := rfl

theorem outlinedRect_inverted {p : Params} {xMin yMin xMax yMax : Int} (inverted : ¬ ValidRect xMin yMin xMax yMax)
    (fb : Memory) : outlinedRect p c xMin yMin xMax yMax fb = .error (invalidRect .drawRect) := if_neg inverted

/-! ### CIRCLE with a negative radius (R170) -/

theorem exec_circle (cx cy r : Half) : exec (.circle cx cy r) s = .next (s.finishDrawing
    (circleOutline s.params (sext16 cx) (sext16 cy) (sext16 r) s.fb)) := rfl

theorem circleOutline_negative {r : Int} (hr : r < 0) (p : Params) (cx cy : Int) (fb : Memory) :
    circleOutline p cx cy r fb = .error (invalidRadius r) := if_pos hr

theorem low16_sext16 (v : Half) : low16 (sext16 v) = v := BitVec.ofInt_toInt

end

/-! ### The obligations -/

/-- Settles O25: with thickness 0 there is no row to paint. -/
theorem hrunCoversExactlyItsRectangle : Obligations.HrunCoversExactlyItsRectangle := by
  intro c x1 x2 t y s hwf
  refine ⟨fun hin => .of_drawing (exec_hrun x1 x2 t y) (horizontalRun_ok hwf hin), ?_⟩
  rintro rfl
  have noRows : (0 : Half).toNat = 0 := rfl
  rw [exec_hrun, noRows, horizontalRun_zero, State.finishDrawing]

/-- Settles O26: a vertical run reads its bounds through `min` and `max` alone. -/
theorem vrunCoversExactlyItsColumn : Obligations.VrunCoversExactlyItsColumn := by
  intro c x y1 y2 s hwf
  refine ⟨fun hin => .of_drawing (exec_vrun x y1 y2) (verticalRun_ok hwf hin), .of_exec_eq ?_⟩
  rw [exec_vrun, exec_vrun, verticalRun_comm]

/-- Settles O27, by the rows of a valid rectangle. -/
theorem fillRectCoversExactlyItsRectangle : Obligations.FillRectCoversExactlyItsRectangle :=
  fun _ _ _ _ _ _ hwf hx hy hin => fillRect_paintsExactly hwf ⟨hx, hy⟩ hin

/-- Settles O28: both commands run the same rows. -/
theorem fillRectIsAHorizontalRun : Obligations.FillRectIsAHorizontalRun := by
  intro c xMin yMin xMax yMax t s hx hy ht
  have rows : (sext16 yMax - sext16 yMin + 1).toNat = t.toNat := by omega
  refine .of_exec_eq ?_
  rw [exec_fillRect, exec_hrun, filledRect_eq_horizontalRun ⟨hx, hy⟩, rows]

/-- Settles O29: the pair paints what the background alone paints. -/
theorem rectangleBlackThenWhiteRestores : Obligations.RectangleBlackThenWhiteRestores := by
  intro xMin yMin xMax yMax s hwf hx hy hin
  obtain ⟨fb1, run1, painted1⟩ := fillRect_paintsExactly (c := .fg) hwf ⟨hx, hy⟩ hin
  obtain ⟨fb2, run2, painted2⟩ :=
    fillRect_paintsExactly (c := .bg) (s := { s with fb := fb1 }) painted1.1 ⟨hx, hy⟩ hin
  obtain ⟨-, pixels, -⟩ := painted1.overpaint painted2
  refine ⟨_, _, run1, run2, rfl, fun u v huv => ?_⟩
  obtain ⟨inside, outside⟩ := pixels u v huv
  by_cases h : (sext16 xMin ≤ u ∧ u ≤ sext16 xMax) ∧ sext16 yMin ≤ v ∧ v ≤ sext16 yMax
  · rw [inside h, decide_eq_true h, Bool.or_true, Colour.bit]
  · rw [outside h, decide_eq_false h, Bool.or_false]

/-- Settles O30: the four edges, painted in turn, are the outline. -/
theorem drawRectPaintsExactlyTheOutline : Obligations.DrawRectPaintsExactlyTheOutline :=
  fun _ xMin yMin xMax yMax _ hwf hx hy hin =>
    .of_drawing (exec_drawRect xMin yMin xMax yMax) (outlinedRect_ok hwf ⟨hx, hy⟩ hin)

/-- Settles O15: the drawing is an error before its first pixel, and of a kind that keeps the framebuffer. -/
theorem invalidOperandsRaiseBeforePainting : Obligations.InvalidOperandsRaiseBeforePainting := by
  refine ⟨fun c xMin yMin xMax yMax s h => ?_, fun cx cy r s hr => ?_⟩
  · have inverted : ¬ ValidRect (sext16 xMin) (sext16 yMin) (sext16 xMax) (sext16 yMax) := by
      rintro ⟨hx, hy⟩
      omega
    have filled := exec_fillRect (c := c) (s := s) xMin yMin xMax yMax
    have outlined := exec_drawRect (c := c) (s := s) xMin yMin xMax yMax
    rw [filledRect_inverted inverted] at filled
    rw [outlinedRect_inverted inverted] at outlined
    exact ⟨faultEntered_of_drawing filled nofun, faultEntered_of_drawing outlined nofun⟩
  · have run := exec_circle (s := s) cx cy r
    rw [circleOutline_negative hr, invalidRadius, low16_sext16] at run
    exact faultEntered_of_drawing run nofun

end Sys2Proof.Machine
end

section
/-! LINE (`42_line.md`): the points of the closed form, how far along the major axis each lies, and what the command paints. -/

namespace Sys2Proof.Machine

/-! ### A point of the closed form (R153) -/

section
variable {x1 y1 x2 y2 : Int}

theorem linePoint_of_xMajor (h : (y2 - y1).natAbs ≤ (x2 - x1).natAbs) (k : Nat) : linePoint x1 y1 x2 y2 k =
    (x1 + k * (x2 - x1).sign, y1 + minorSteps (x2 - x1).natAbs (y2 - y1).natAbs k * (y2 - y1).sign) := if_pos h

theorem linePoint_of_yMajor (h : (x2 - x1).natAbs < (y2 - y1).natAbs) (k : Nat) : linePoint x1 y1 x2 y2 k =
    (x1 + minorSteps (y2 - y1).natAbs (x2 - x1).natAbs k * (x2 - x1).sign, y1 + k * (y2 - y1).sign) := if_neg h.not_ge

/-- The two octant kinds in one statement: `n` is the major delta and `m` the minor one. -/
theorem linePoint_eq_iff {u v : Int} {k n m : Nat} (hn : n = max (x2 - x1).natAbs (y2 - y1).natAbs)
    (hm : m = min (x2 - x1).natAbs (y2 - y1).natAbs) : linePoint x1 y1 x2 y2 k = (u, v) ↔
      ((y2 - y1).natAbs ≤ (x2 - x1).natAbs →
        u = x1 + k * (x2 - x1).sign ∧ v = y1 + minorSteps n m k * (y2 - y1).sign) ∧
      ((x2 - x1).natAbs < (y2 - y1).natAbs →
        u = x1 + minorSteps n m k * (x2 - x1).sign ∧ v = y1 + k * (y2 - y1).sign) := by
  subst hn hm
  rw [eq_comm]
  rcases le_or_gt (y2 - y1).natAbs (x2 - x1).natAbs with major | major
  · rw [linePoint_of_xMajor major, max_eq_left major, min_eq_right major, Prod.mk.injEq]
    exact ⟨fun h => ⟨fun _ => h, fun minor => absurd major minor.not_ge⟩, fun h => h.1 major⟩
  · rw [linePoint_of_yMajor major, max_eq_right major.le, min_eq_left major.le, Prod.mk.injEq]
    exact ⟨fun h => ⟨fun minor => absurd major minor.not_gt, fun _ => h⟩, fun h => h.2 major⟩

theorem linePoint_zero (h : (x1, y1) ≠ (x2, y2)) : linePoint x1 y1 x2 y2 0 = (x1, y1) := by
  have moves : x2 - x1 ≠ 0 ∨ y2 - y1 ≠ 0 := by
    by_contra still
    exact h (Prod.ext (by omega) (by omega))
  rcases le_or_gt (y2 - y1).natAbs (x2 - x1).natAbs with major | major
  · rw [linePoint_of_xMajor major, minorSteps_zero _ _ (by omega)]
    simp
  · rw [linePoint_of_yMajor major, minorSteps_zero _ _ (by omega)]
    simp

end

/-! ### How far along the major axis a point lies -/

/-- The major steps from `(x1, y1)` to the point `q`, in the direction of the line. -/
def majorSteps (x1 y1 x2 y2 : Int) (q : Int × Int) : Int :=
  if (y2 - y1).natAbs ≤ (x2 - x1).natAbs then (q.1 - x1) * (x2 - x1).sign else (q.2 - y1) * (y2 - y1).sign

/-- A step in a direction that exists counts 1. -/
theorem steps_mul_sign {d : Int} (hd : d ≠ 0) (a k : Int) : (a + k * d.sign - a) * d.sign = k := by
  have unit : d.sign * d.sign = 1 := by
    rcases hd.lt_or_gt with neg | pos
    · rw [Int.sign_eq_neg_one_of_neg neg]; rfl
    · rw [Int.sign_eq_one_of_pos pos]; rfl
  rw [add_sub_cancel_left, mul_assoc, unit, mul_one]

section
variable (x1 y1 x2 y2 : Int)

theorem majorSteps_linePoint {k : Nat} (hk : k < max (x2 - x1).natAbs (y2 - y1).natAbs) :
    majorSteps x1 y1 x2 y2 (linePoint x1 y1 x2 y2 k) = k := by
  rcases le_or_gt (y2 - y1).natAbs (x2 - x1).natAbs with major | major
  · rw [majorSteps, if_pos major, linePoint_of_xMajor major, steps_mul_sign (by omega)]
  · rw [majorSteps, if_neg major.not_ge, linePoint_of_yMajor major, steps_mul_sign (by omega)]

theorem majorSteps_end :
    majorSteps x1 y1 x2 y2 (x2, y2) = (max (x2 - x1).natAbs (y2 - y1).natAbs : Nat) := by
  rcases le_or_gt (y2 - y1).natAbs (x2 - x1).natAbs with major | major
  · rw [majorSteps, if_pos major, max_eq_left major, Int.mul_sign_self]
  · rw [majorSteps, if_neg major.not_ge, max_eq_right major.le, Int.mul_sign_self]

/-! ### The points in order (R154, R155) -/

theorem lineOrder_false : lineOrder false x1 y1 x2 y2 =
    (List.range (max (x2 - x1).natAbs (y2 - y1).natAbs)).map (linePoint x1 y1 x2 y2) := List.append_nil _

theorem lineOrder_true : lineOrder true x1 y1 x2 y2 = lineOrder false x1 y1 x2 y2 ++ [(x2, y2)] := by
  rw [lineOrder_false, lineOrder, if_pos rfl]

/-- A zero-length line has no point but its end point. -/
theorem lineOrder_self (endInclusive : Bool) :
    lineOrder endInclusive x1 y1 x1 y1 = if endInclusive then [(x1, y1)] else [] := by
  simp [lineOrder]

theorem length_lineOrder_false : (lineOrder false x1 y1 x2 y2).length = max (x2 - x1).natAbs (y2 - y1).natAbs := by
  rw [lineOrder_false, List.length_map, List.length_range]

/-- The points are distinct: each is one major step further than the one before. -/
theorem nodup_lineOrder_false : (lineOrder false x1 y1 x2 y2).Nodup := by
  rw [lineOrder_false]
  refine List.nodup_range.map_on fun i hi j hj same => ?_
  have steps := congrArg (majorSteps x1 y1 x2 y2) same
  rwa [majorSteps_linePoint _ _ _ _ (List.mem_range.1 hi), majorSteps_linePoint _ _ _ _ (List.mem_range.1 hj),
    Int.natCast_inj] at steps

/-- The end point is one major step beyond the last. -/
theorem end_not_mem_lineOrder_false : (x2, y2) ∉ lineOrder false x1 y1 x2 y2 := by
  rw [lineOrder_false, List.mem_map]
  rintro ⟨k, hk, same⟩
  have steps := majorSteps_linePoint _ _ _ _ (List.mem_range.1 hk)
  rw [same, majorSteps_end, Int.natCast_inj] at steps
  exact (List.mem_range.1 hk).ne' steps

theorem head?_lineOrder_false (h : (x1, y1) ≠ (x2, y2)) : (lineOrder false x1 y1 x2 y2).head? = some (x1, y1) := by
  have pos : max (x2 - x1).natAbs (y2 - y1).natAbs ≠ 0 := fun zero => h (Prod.ext (by omega) (by omega))
  rw [lineOrder_false, List.head?_map, List.head?_range, if_neg pos, Option.map_some, linePoint_zero h]

theorem mem_lineOrder {endInclusive : Bool} {q : Int × Int} : q ∈ lineOrder endInclusive x1 y1 x2 y2 ↔
    (∃ k < max (x2 - x1).natAbs (y2 - y1).natAbs, linePoint x1 y1 x2 y2 k = q) ∨ endInclusive = true ∧ q = (x2, y2) := by
  rw [lineOrder, List.mem_append, List.mem_map]
  cases endInclusive <;> simp

end

/-! ### What the command paints (R152, R153) -/

theorem exec_line (x1 y1 x2 y2 : Half) (s : State) : exec (.line x1 y1 x2 y2) s = .next (s.finishDrawing (paintAll s.params .fg
    (lineOrder s.params.lineEndInclusive (sext16 x1) (sext16 y1) (sext16 x2) (sext16 y2)) s.fb)) := by
  rw [← linePoints_eq]
  rfl

theorem line_paintsExactly {x1 y1 x2 y2 : Half} {s : State} {A : Int → Int → Prop} (hwf : s.fb.wf s.params.fbBytes)
    (points : ∀ u v,
      (u, v) ∈ lineOrder s.params.lineEndInclusive (sext16 x1) (sext16 y1) (sext16 x2) (sext16 y2) ↔ A u v)
    (hin : AllInBounds s.params A) : PaintsExactly (.line x1 y1 x2 y2) s .fg A := by
  obtain ⟨fb, drawn, painted⟩ := paintAll_ok (c := .fg) hwf fun q hq => hin q.1 q.2 ((points q.1 q.2).1 hq)
  exact .of_drawing (exec_line x1 y1 x2 y2 s) ⟨fb, drawn, painted.congr points⟩

/-- Settles O31: the points painted are those of the closed form, octant kind by octant kind. -/
theorem linePaintsTheClosedForm : Obligations.LinePaintsTheClosedForm := by
  intro x1 y1 x2 y2 s hwf dx dy n m A hin
  refine line_paintsExactly hwf (fun u v => ?_) hin
  rw [mem_lineOrder, Prod.mk.injEq]
  exact or_congr_left (exists_congr fun k => and_congr_right fun _ => linePoint_eq_iff rfl rfl)

/-- Settles O32: the loop's points are those of the closed form, told apart by their major steps. -/
theorem lineStartsAtItsStartAndOmitsItsEnd : Obligations.LineStartsAtItsStartAndOmitsItsEnd := by
  refine ⟨fun x1 y1 x2 y2 => ?_, fun x y s exclusive => ?_, fun x y s inclusive hwf hin => ?_⟩
  · simp only [linePoints_eq]
    exact ⟨length_lineOrder_false x1 y1 x2 y2, nodup_lineOrder_false x1 y1 x2 y2, end_not_mem_lineOrder_false x1 y1 x2 y2,
      head?_lineOrder_false x1 y1 x2 y2, lineOrder_true x1 y1 x2 y2⟩
  · rw [exec_line, lineOrder_self, exclusive, if_neg Bool.false_ne_true, paintAll, State.finishDrawing]
  · refine line_paintsExactly hwf (fun u v => ?_) ?_
    · rw [lineOrder_self, inclusive, if_pos rfl, List.mem_singleton, Prod.mk.injEq]
    · rintro u v ⟨rfl, rfl⟩
      exact hin

/-! ### Axis-aligned and 45° lines (R156) -/

/-- Without a minor delta no minor step is taken. -/
theorem minorSteps_of_minor_zero (n k : Nat) : minorSteps n 0 k = 0 := by
  have quotient : ((n : Int) - 2 * (0 : Nat) * k) / (2 * n) = 0 := by
    rw [Nat.cast_zero, mul_zero, zero_mul, sub_zero]
    rcases Nat.eq_zero_or_pos n with rfl | pos
    · rfl
    · exact Int.ediv_eq_zero_of_lt (by omega) (by omega)
  rw [minorSteps, quotient, neg_zero]

/-- With equal deltas every major step takes a minor step. -/
theorem minorSteps_of_minor_eq_major {n : Nat} (hn : 0 < n) (k : Nat) : minorSteps n n k = k := by
  have quotient : ((n : Int) - 2 * n * k) / (2 * n) = -k := by
    rw [sub_eq_add_neg, ← mul_neg, Int.add_mul_ediv_left _ _ (by omega), Int.ediv_eq_zero_of_lt (by omega) (by omega),
      zero_add]
  rw [minorSteps, quotient, neg_neg]

/-- A line's list of points, from another expression of its length and of each of its points. -/
theorem linePoints_eq_map {x1 y1 x2 y2 : Int} {n : Nat} {f : Nat → Int × Int} (endInclusive : Bool)
    (hn : max (x2 - x1).natAbs (y2 - y1).natAbs = n) (hf : ∀ k < n, linePoint x1 y1 x2 y2 k = f k) :
    linePoints endInclusive x1 y1 x2 y2 = (List.range n).map f ++ if endInclusive then [(x2, y2)] else [] := by
  rw [linePoints_eq, lineOrder, hn, List.map_congr_left fun k hk => hf k (List.mem_range.1 hk)]

/-- Settles O33: the minor delta is 0, or it equals the major one. -/
theorem axisAlignedAndDiagonalLines : Obligations.AxisAlignedAndDiagonalLines := by
  intro endInclusive x1 y1 x2 y2 dx dy last
  refine ⟨fun horizontal => ?_, fun vertical => ?_, fun diagonal => ?_⟩
  · have flat : (y2 - y1).natAbs = 0 := Int.natAbs_eq_zero.2 horizontal
    refine linePoints_eq_map endInclusive (by omega) fun k _ => ?_
    rw [linePoint_of_xMajor (by omega), flat, minorSteps_of_minor_zero, zero_mul, add_zero]
  · have flat : (x2 - x1).natAbs = 0 := Int.natAbs_eq_zero.2 vertical
    refine linePoints_eq_map endInclusive (by omega) fun k hk => ?_
    rw [linePoint_of_yMajor (by omega), flat, minorSteps_of_minor_zero, zero_mul, add_zero]
  · have equal : (x2 - x1).natAbs = (y2 - y1).natAbs := diagonal
    refine linePoints_eq_map endInclusive (by omega) fun k hk => ?_
    rw [linePoint_of_xMajor equal.ge, ← equal, minorSteps_of_minor_eq_major (by omega)]

end Sys2Proof.Machine
end

section
/-! CIRCLE (`43_circle.md`): the points of its loop, the nearest points to the ideal circle, and what the command paints. -/

namespace Sys2Proof.Machine

/-! ### The points of the loop (R171) -/

/-- Iteration `k` of the loop paints its mirror points as long as `k ≤ x`; the bound of `r + 1` iterations ends none early. -/
theorem mem_circlePoints {cx cy u v : Int} {r : Nat} : (u, v) ∈ circlePoints cx cy r ↔
    ∃ k x : Int, 0 ≤ k ∧ k ≤ x ∧ x = (circleState r k.toNat).1 ∧
      (((u = cx + x ∨ u = cx - x) ∧ (v = cy + k ∨ v = cy - k)) ∨
        ((u = cx + k ∨ u = cx - k) ∧ (v = cy + x ∨ v = cy - x))) := by
  rw [circlePoints_eq, circleOrder, List.mem_flatMap]
  constructor
  · rintro ⟨k, -, h⟩
    split at h
    next hk => exact ⟨k, _, Int.natCast_nonneg k, hk, rfl, mem_mirrorPoints.1 h⟩
    next => cases h
  · rintro ⟨k, _, hk0, hk, rfl, h⟩
    lift k to Nat using hk0
    rw [Int.toNat_natCast] at hk h
    have within := circleState_le_radius r k
    refine ⟨k, List.mem_range.2 (by omega), ?_⟩
    rw [if_pos hk]
    exact mem_mirrorPoints.2 h

/-- About the origin: the larger of the two distances is the loop's `x` at the smaller one. -/
theorem mem_circlePoints_zero {u v : Int} {r : Nat} : (u, v) ∈ circlePoints 0 0 r ↔
    (max u.natAbs v.natAbs : Nat) = (circleState r (min u.natAbs v.natAbs)).1 := by
  rw [mem_circlePoints]
  constructor
  · rintro ⟨k, x, hk0, hk, hx, h⟩
    have larger : (max u.natAbs v.natAbs : Nat) = x := by omega
    have smaller : min u.natAbs v.natAbs = k.toNat := by omega
    rw [larger, smaller, hx]
  · intro h
    exact ⟨(min u.natAbs v.natAbs : Nat), (max u.natAbs v.natAbs : Nat), by omega, by omega, h, by omega⟩

/-- The points of an iteration about the origin, by their distances along the axes. -/
theorem mem_mirrorPoints_zero {x y : Nat} {u v : Int} : (u, v) ∈ mirrorPoints 0 0 x y ↔
    (u.natAbs, v.natAbs) ∈ [(x, y), (y, x)] := by
  simp only [mem_mirrorPoints, List.mem_cons, Prod.mk.injEq, List.not_mem_nil, or_false]
  omega

/-- A radius of 0 leaves one iteration, whose mirror points are all the centre (R172). -/
theorem mem_circlePoints_radius_zero {cx cy u v : Int} : (u, v) ∈ circlePoints cx cy 0 ↔ u = cx ∧ v = cy := by
  have loop : circlePoints cx cy 0 = mirrorPoints cx cy 0 0 := rfl
  rw [loop, mem_mirrorPoints]
  omega

/-! ### The loop against the ideal circle -/

/-- `X` is the integer nearest to `sqrt(r² - Y²)`. -/
def NearestToCircle (r X Y : Int) : Prop := X * X - X < r * r - Y * Y ∧ r * r - Y * Y ≤ X * X + X

/-- The intervals of neighbouring integers meet without overlap. -/
theorem mul_self_add_le_mul_self_sub {X X' : Int} (h0 : 0 ≤ X) (lt : X < X') : X * X + X ≤ X' * X' - X' := by
  nlinarith

/-- On one row there is at most one nearest point. -/
theorem NearestToCircle.unique {r X X' Y : Int} (h0 : 0 ≤ X) (h0' : 0 ≤ X') (h : NearestToCircle r X Y)
    (h' : NearestToCircle r X' Y) : X = X' := by
  obtain ⟨lower, upper⟩ := h
  obtain ⟨lower', upper'⟩ := h'
  rcases lt_trichotomy X X' with lt | eq | gt
  · have := mul_self_add_le_mul_self_sub h0 lt
    omega
  · exact eq
  · have := mul_self_add_le_mul_self_sub h0' gt
    omega

/-- A nearest point is no further from the centre than the radius. -/
theorem NearestToCircle.le_radius {r X Y : Int} (hr : 0 ≤ r) (h : NearestToCircle r X Y) : X ≤ r := by
  obtain ⟨lower, -⟩ := h
  by_contra beyond
  have := mul_self_add_le_mul_self_sub hr (not_le.1 beyond)
  have := mul_self_nonneg Y
  omega

/-- The error term in closed form: it says on which side of the ideal circle the midpoint `(x - 1/2, k + 1)` lies. -/
theorem circleState_err (r k : Nat) : (circleState r k).2 =
    (circleState r k).1 * (circleState r k).1 - (circleState r k).1 + (k + 1) * (k + 1) - (r : Int) * r := by
  induction k with
  | zero => simp only [circleState]; push_cast; ring
  | succ k ih =>
    rw [circleState]
    split
    · rw [ih]; push_cast; ring
    · rw [ih]; push_cast; ring

/-- The loop keeps `x` while the midpoint is inside the ideal circle, and steps inwards otherwise. -/
theorem circleState_succ_cases (r k : Nat) : let x := (circleState r k).1
    ((circleState r (k + 1)).1 = x ∧ x * x - x < (r : Int) * r - (k + 1) * (k + 1)) ∨
    ((circleState r (k + 1)).1 = x - 1 ∧ (r : Int) * r - (k + 1) * (k + 1) ≤ x * x - x) := by
  have err := circleState_err r k
  rw [circleState]
  split
  · exact .inl ⟨rfl, by omega⟩
  · exact .inr ⟨rfl, by omega⟩

/-- Each iteration the loop runs is at the nearest point. -/
theorem nearestToCircle_circleState {r k : Nat} (hr : 1 ≤ r) (hk : (k : Int) ≤ (circleState r k).1) :
    NearestToCircle r (circleState r k).1 k := by
  induction k with
  | zero =>
    have start : (circleState r 0).1 = r := rfl
    rw [start, NearestToCircle]
    omega
  | succ k ih =>
    have le := circleState_le r k
    push_cast at hk ⊢
    obtain ⟨lower, upper⟩ := ih (by omega)
    rcases circleState_succ_cases r k with ⟨keep, inside⟩ | ⟨step, outside⟩
    · rw [keep] at hk ⊢
      exact ⟨inside, by linarith⟩
    · rw [step] at hk ⊢
      exact ⟨by linarith, by linarith⟩

/-- The loop does not step past a nearest point before it reaches its row. -/
theorem le_circleState_of_nearest {r X Y k : Nat} (near : NearestToCircle r X Y) (hk : k ≤ Y) :
    (X : Int) ≤ (circleState r k).1 := by
  induction k with
  | zero => exact near.le_radius (Int.natCast_nonneg r)
  | succ k ih =>
    have before := ih (by omega)
    rcases circleState_succ_cases r k with ⟨keep, -⟩ | ⟨step, outside⟩
    · rwa [keep]
    · have moved : (X : Int) ≠ (circleState r k).1 := by
        intro e
        obtain ⟨lower, -⟩ := near
        rw [← e] at outside
        have rows : ((k : Int) + 1) * (k + 1) ≤ Y * Y := by gcongr <;> omega
        omega
      omega

/-- The loop's `x` in closed form, on the rows it runs. -/
theorem eq_circleState_iff {r X Y : Nat} (hr : 1 ≤ r) (hYX : Y ≤ X) :
    (X : Int) = (circleState r Y).1 ↔ NearestToCircle r X Y := by
  constructor
  · intro h
    rw [h]
    exact nearestToCircle_circleState hr (by omega)
  · intro near
    have reached := le_circleState_of_nearest near le_rfl
    exact near.unique (by omega) (by omega) (nearestToCircle_circleState hr (by omega))

/-- Settles O38: the loop is at the nearest point of each row it runs, and it runs the row of each such point. -/
theorem circlePaintsTheNearestPoints : Obligations.CirclePaintsTheNearestPoints := by
  intro r u v hr X Y
  have larger : ((max u.natAbs v.natAbs : Nat) : Int) = X := Nat.cast_max u.natAbs v.natAbs
  have smaller : ((min u.natAbs v.natAbs : Nat) : Int) = Y := Nat.cast_min u.natAbs v.natAbs
  rw [mem_circlePoints_zero, eq_circleState_iff hr (by omega), larger, smaller, NearestToCircle]

/-! ### The shape of the point set (R173) -/

theorem circlePoints_radius_one : circlePoints 0 0 1 = mirrorPoints 0 0 (1 : Nat) (0 : Nat) := rfl

theorem circlePoints_radius_two :
    circlePoints 0 0 2 = mirrorPoints 0 0 (2 : Nat) (0 : Nat) ++ mirrorPoints 0 0 (2 : Nat) (1 : Nat) := rfl

theorem circlePoints_radius_three : circlePoints 0 0 3 =
    mirrorPoints 0 0 (3 : Nat) (0 : Nat) ++ (mirrorPoints 0 0 (3 : Nat) (1 : Nat) ++ mirrorPoints 0 0 (2 : Nat) (2 : Nat)) := rfl

/-- Settles O37: the loop's points are offsets from the centre in mirrored octants, and three small circles are their iterations. -/
theorem circlePointSetIsSymmetric : Obligations.CirclePointSetIsSymmetric := by
  refine ⟨fun cx cy r u v => ⟨?_, circleLoop_symmetric⟩, fun u v => ⟨?_, ?_, ?_⟩⟩
  · rw [circlePoints, mem_circleLoop, add_sub_cancel_left, add_sub_cancel_left, circlePoints]
  · rw [circlePoints_radius_one, mem_mirrorPoints_zero]
  · rw [circlePoints_radius_two, List.mem_append, mem_mirrorPoints_zero, mem_mirrorPoints_zero, ← List.mem_append]
    rfl
  · rw [circlePoints_radius_three, List.mem_append, List.mem_append, mem_mirrorPoints_zero, mem_mirrorPoints_zero,
      mem_mirrorPoints_zero, ← List.mem_append, ← List.mem_append]
    simp

/-! ### What the command paints -/

theorem circle_paintsExactly {cx cy r : Half} {s : State} {A : Int → Int → Prop} (hwf : s.fb.wf s.params.fbBytes)
    (hr : 0 ≤ sext16 r) (points : ∀ u v, (u, v) ∈ circlePoints (sext16 cx) (sext16 cy) (sext16 r).toNat ↔ A u v)
    (hin : AllInBounds s.params A) : PaintsExactly (.circle cx cy r) s .fg A := by
  obtain ⟨fb, drawn, painted⟩ := paintAll_ok (c := .fg) hwf fun q hq => hin q.1 q.2 ((points q.1 q.2).1 hq)
  refine .of_drawing (exec_circle cx cy r) ⟨fb, ?_, painted.congr points⟩
  rw [circleOutline, if_neg (by omega), drawn]

/-- Settles O34: the points are those of the loop's iterations. -/
theorem circlePaintsItsMirrorPoints : Obligations.CirclePaintsItsMirrorPoints := by
  intro cx cy r s hwf hr A hin
  exact circle_paintsExactly hwf hr (fun _ _ => mem_circlePoints) hin

/-- Settles O35: with radius 0 the centre is the only point. -/
theorem zeroRadiusPaintsTheCentre : Obligations.ZeroRadiusPaintsTheCentre := by
  intro cx cy s hwf hin
  refine circle_paintsExactly hwf (by decide) (fun _ _ => mem_circlePoints_radius_zero) ?_
  rintro u v ⟨rfl, rfl⟩
  exact hin

/-- Settles O36: no point is further from the centre than the radius, and 47 to either side of 48 is on the panel. -/
theorem centredCirclesFitThePanel : Obligations.CentredCirclesFitThePanel := by
  intro r s hwf hw hh hr
  have radius : sext16 r = r.toNat := by rw [sext16_eq, if_pos (by omega)]
  have centre : sext16 48 = 48 := by decide
  have box (u v : Int) (h : (u, v) ∈ circlePoints 48 48 r.toNat) :
      (48 - (r.toNat : Int) ≤ u ∧ u ≤ 48 + r.toNat) ∧ 48 - (r.toNat : Int) ≤ v ∧ v ≤ 48 + r.toNat :=
    circleLoop_within le_rfl h
  refine ⟨fun u v => (u, v) ∈ circlePoints 48 48 r.toNat, circle_paintsExactly hwf (by omega) ?_ ?_, ?_⟩
  · intro u v
    rw [centre, radius, Int.toNat_natCast]
  · intro u v h
    have := box u v h
    rw [InBounds, hw, hh]
    omega
  · intro u v h
    have := box u v h
    omega

end Sys2Proof.Machine
end

section
/-! Text (`44_text.md`): what DRAW_CHAR and DRAW_STRING paint, where they leave the cursor, and what else moves it. -/

namespace Sys2Proof.Machine

/-! ### The advance of the cursor (R194) -/

section
variable {p : Params} {g : Glyph} {c c' : Canvas} {col row : Half}

theorem advanceCursor_of_exceeds (h : p.width < col.toNat + g.pw.toNat + g.pw.toNat + p.charMargin.toNat) :
    advanceCursor p g col row = (p.leftMargin, BitVec.ofNat 16 (row.toNat + g.h.toNat + p.lineMargin.toNat)) := if_pos h

theorem advanceCursor_of_fits (h : col.toNat + g.pw.toNat + g.pw.toNat + p.charMargin.toNat ≤ p.width) :
    advanceCursor p g col row = (BitVec.ofNat 16 (col.toNat + g.pw.toNat), row) := if_neg h.not_gt

/-! ### One glyph (R191, R192) -/

/-- A glyph that completes has its set pixels in bounds. -/
theorem allInBounds_of_drawGlyph (drawn : drawGlyph p g c = .ok c') :
    AllInBounds p (GlyphPixels g c.col.toNat c.row.toNat) := by
  obtain all | ⟨q, outside⟩ := firstOutside_or_all p (glyphPoints g (zext16 c.col) (zext16 c.row))
  · exact fun u v h => all (u, v) (mem_glyphPoints_iff.2 h)
  · cases (drawGlyph_error outside).symm.trans drawn

end

/-! ### The end of a text command (R104) -/

/-- A canvas drawn on is put back into the state it came from. -/
def State.withCanvas (s : State) (c : Canvas) : State := { s with fb := c.fb, col := c.col, row := c.row }

@[simp] theorem State.canvas_withCanvas (s : State) (c : Canvas) : (s.withCanvas c).canvas = c := rfl
@[simp] theorem State.withCanvas_params (s : State) (c : Canvas) : (s.withCanvas c).params = s.params := rfl
@[simp] theorem State.withCanvas_fault (s : State) (c : Canvas) : (s.withCanvas c).fault = s.fault := rfl

theorem raiseText_fault (r : Raise) (s : State) : (s.raiseText r).fault = true := by
  obtain ⟨fb, draws, col, row, raised, -⟩ := raiseText_eq r s
  rw [raised, State.raise_fault]

/-- What was drawn before an out-of-bounds pixel does not show after it (R104, R256). -/
theorem raiseText_withCanvas_outOfBounds (x y : Int) (s : State) (c : Canvas) :
    (s.withCanvas c).raiseText (outOfBounds x y) = s.raiseText (outOfBounds x y) := rfl

theorem finishText_ok (s : State) (c : Canvas) : s.finishText (.ok c) = s.withCanvas c := rfl

theorem finishText_error (s : State) (r : Raise) : s.finishText (.error r) = s.raiseText r := rfl

/-! ### DRAW_CHAR (R192, R193) -/

section
variable {font ch : Byte} {text : List Byte} {s t : State}

theorem exec_drawChar : exec (.drawChar font ch) s =
    .next (s.finishText (drawGlyph s.params (s.params.font.glyph ch font) s.canvas)) := rfl

/-- A glyph whose set pixels are in bounds paints exactly them and advances the cursor. -/
theorem exec_drawChar_paints (hwf : s.fb.wf s.params.fbBytes)
    (hin : AllInBounds s.params (GlyphPixels (s.params.font.glyph ch font) s.col.toNat s.row.toNat)) :
    ∃ fb, exec (.drawChar font ch) s = .next (s.withCanvas (.mk fb
        (advanceCursor s.params (s.params.font.glyph ch font) s.col s.row).1
        (advanceCursor s.params (s.params.font.glyph ch font) s.col s.row).2)) ∧
      Painted s.params .fg (GlyphPixels (s.params.font.glyph ch font) s.col.toNat s.row.toNat) s.fb fb := by
  obtain ⟨fb, drawn, painted⟩ := drawGlyph_ok (t := s.canvas) hwf fun q hq => hin q.1 q.2 (mem_glyphPoints_iff.1 hq)
  refine ⟨fb, ?_, painted.congr fun _ _ => mem_glyphPoints_iff⟩
  rw [exec_drawChar, drawn, finishText_ok]
  rfl

/-- DRAW_CHAR either completes its glyph or enters the fault the glyph raises. -/
theorem exec_drawChar_cases (run : exec (.drawChar font ch) s = .next t) :
    (∃ c, drawGlyph s.params (s.params.font.glyph ch font) s.canvas = .ok c ∧ t = s.withCanvas c) ∨
      ∃ r, drawGlyph s.params (s.params.font.glyph ch font) s.canvas = .error r ∧ t = s.raiseText r := by
  cases drawn : drawGlyph s.params (s.params.font.glyph ch font) s.canvas with
  | ok c =>
    rw [exec_drawChar, drawn, finishText_ok] at run
    cases run
    exact .inl ⟨c, rfl, rfl⟩
  | error r =>
    rw [exec_drawChar, drawn, finishText_error] at run
    cases run
    exact .inr ⟨r, rfl, rfl⟩

/-! ### DRAW_STRING (R198) -/

theorem exec_drawString : exec (.drawString font text) s =
    .next (s.finishText (drawChars s.params font text s.canvas)) := rfl

/-- The rest of a string after a first character that completes. -/
theorem exec_drawString_cons_of_ok {c : Canvas}
    (drawn : drawGlyph s.params (s.params.font.glyph ch font) s.canvas = .ok c) :
    exec (.drawString font (ch :: text)) s = exec (.drawString font text) (s.withCanvas c) := by
  have rest : drawChars s.params font (ch :: text) s.canvas = drawChars s.params font text c := by
    rw [drawChars, drawn]
  rw [exec_drawString, exec_drawString, rest, State.withCanvas_params, State.canvas_withCanvas]
  cases ended : drawChars s.params font text c with
  | ok c' => rfl
  | error r =>
    obtain ⟨x, y, rfl⟩ := drawChars_error_kind ended
    rw [finishText_error, finishText_error, raiseText_withCanvas_outOfBounds]

/-- A string whose first character faults ends as that character does. -/
theorem exec_drawString_cons_of_error {r : Raise}
    (raised : drawGlyph s.params (s.params.font.glyph ch font) s.canvas = .error r) :
    exec (.drawString font (ch :: text)) s = exec (.drawChar font ch) s := by
  rw [exec_drawString, exec_drawChar, drawChars, raised]

end

/-! ### What moves the cursor (R28, R199) -/

section
variable {s t : State}

theorem SameCore.cursor (h : SameCore s t) : t.col = s.col ∧ t.row = s.row := by
  rw [show t = _ from h]
  exact ⟨rfl, rfl⟩

theorem coreStep_cursor (h : coreStep s = .next t) : t.col = s.col ∧ t.row = s.row := by
  obtain rfl | ⟨op, e, rest, -, -, -, ⟨-, rfl⟩ | ⟨-, rfl⟩⟩ := coreStep_cases h <;> exact ⟨rfl, rfl⟩

/-- The actions that may move the cursor. -/
theorem ActEnds.cursor {a : Action} (h : ActEnds a s t) (moved : ¬ (t.col = s.col ∧ t.row = s.row)) :
    a = .reset ∨ submits cursorCommand a = true := by
  cases h with
  | same _ _ same => exact absurd same.cursor moved
  | drawing w i _ ha decoded _ _ _ ends =>
    have command : cursorCommand i = true := by
      by_contra other
      exact moved (ends.cursor (Bool.eq_false_of_not_eq_true other))
    exact .inr (by rw [ha, submits, decoded]; exact command)
  | core _ _ own => exact absurd (coreStep_cursor own) moved
  | port | window | refresh | toggle | skipped => exact absurd ⟨rfl, rfl⟩ moved
  | reset ha => exact .inl ha

end

/-! ### The obligations -/

/-- Settles O39: the set pixels are the glyph's points, and the two tests of the advance are the two clauses. -/
theorem drawCharBlitsAndAdvances : Obligations.DrawCharBlitsAndAdvances := by
  intro font ch s hwf g ncol A hin
  obtain ⟨fb, drawn, painted⟩ := exec_drawChar_paints hwf hin
  refine ⟨_, drawn, painted, fun exceeds => ?_, fun fits => ?_⟩
  · rw [advanceCursor_of_exceeds exceeds]
    rfl
  · rw [advanceCursor_of_fits fits]
    rfl

/-- Settles O40: the glyph's pixels are painted in foreground, and painting them again changes nothing. -/
theorem glyphsOverlayWithoutErasing : Obligations.GlyphsOverlayWithoutErasing := by
  intro font ch s t hwf _ run completed
  obtain ⟨c, drawn, -⟩ | ⟨r, -, rfl⟩ := exec_drawChar_cases run
  · have hin := allInBounds_of_drawGlyph drawn
    obtain ⟨fb, first, painted⟩ := exec_drawChar_paints hwf hin
    cases run.symm.trans first
    refine ⟨fun u v huv white => ?_, fun u v huv => (painted.2.1 u v huv).2, ?_⟩
    · obtain ⟨black, kept⟩ := painted.2.1 u v huv
      by_cases inked : GlyphPixels (s.params.font.glyph ch font) s.col.toNat s.row.toNat u v
      · cases white.symm.trans (black inked)
      · exact (kept inked).symm.trans white
    · obtain ⟨fb2, second, painted2⟩ :=
        exec_drawChar_paints (s := s.withCanvas (.mk fb s.col s.row)) painted.1 hin
      cases painted.idempotent painted2
      exact second
  · rw [raiseText_fault] at completed
    cases completed

/-- Settles O41, by the two ends of the first character. -/
theorem drawStringDrawsItsCharactersInTurn : Obligations.DrawStringDrawsItsCharactersInTurn := by
  refine ⟨fun _ _ => rfl, fun font ch text s t running run => ?_⟩
  obtain ⟨c, drawn, rfl⟩ | ⟨r, raised, rfl⟩ := exec_drawChar_cases run
  · refine ⟨fun _ => ?_, fun faulted => ?_⟩
    · rw [exec_drawString_cons_of_ok drawn]
      exact .of_exec_eq rfl
    · rw [State.withCanvas_fault, running] at faulted
      cases faulted
  · refine ⟨fun completed => ?_, fun _ => ?_⟩
    · rw [raiseText_fault] at completed
      cases completed
    · rw [exec_drawString_cons_of_error raised, ← run]
      exact .of_exec_eq rfl

/-- Settles O42, by the characters drawn in turn. -/
theorem drawStringCompletesInBounds : Obligations.DrawStringCompletesInBounds := by
  intro font text s hwf hin
  obtain ⟨fb, drawn, painted⟩ := drawChars_ok (t := s.canvas) hwf fun q hq => hin q.1 q.2 hq
  refine ⟨fb, ?_, painted⟩
  rw [exec_drawString, drawn, finishText_ok]
  rfl

/-- Settles O43, by the cases of one action. -/
theorem theCursorPersistsBetweenTextCommands : Obligations.TheCursorPersistsBetweenTextCommands := by
  intro s t h moved
  obtain ⟨-, own⟩ | ⟨a, rest, hs, ends⟩ := step_cases h
  · exact absurd (coreStep_cursor own) moved
  · exact ⟨a, congrArg List.head? hs, ends.cursor moved⟩

/-- Settles O44: the command writes both halves of the register. -/
theorem setCursorSetsTheCursor : Obligations.SetCursorSetsTheCursor := fun _ _ _ => ⟨_, rfl, rfl, rfl⟩

end Sys2Proof.Machine
end

section
/-! The display transport (`45_transport.md`): what each transport command starts, what one step of a transaction does, and a
whole transaction on a ready bus. -/

namespace Sys2Proof.Machine

/-! ### The bytes of a WRITE, by their place in a line (R213, R215, R216) -/

theorem scanRow_eq_ite (p : Params) (k : Nat) :
    scanRow p k = if p.scanOrder = .normal then k else p.height - 1 - k := by
  unfold scanRow
  cases p.scanOrder <;> rfl

section
variable (p : Params) (fb : Memory) (vcom : Bool)

theorem writeBytes_control : (writeBytes p fb vcom)[0]? = some (controlByte p p.writeLineCode vcom) := rfl

theorem writeBytes_last : (writeBytes p fb vcom)[(writeBytes p fb vcom).length - 1]? = some 0 := by
  rw [← List.getLast?_eq_getElem?, writeBytes, List.getLast?_concat]

theorem writeLine_address (k : Nat) : (writeLine p fb k)[0]? = some (reverse8 (BitVec.ofNat 8 (k + 1))) := rfl

theorem writeLine_data (k : Nat) {j : Nat} (hj : j < p.rowBytes) :
    (writeLine p fb k)[1 + j]? = some (dataByte p (fb.read (scanRow p k * p.rowBytes + j))) := by
  rw [writeLine, List.cons_append, Nat.add_comm 1 j, List.getElem?_cons_succ, List.getElem?_append_left (by simpa using hj)]
  simp [hj]

theorem writeLine_trailer (k : Nat) : (writeLine p fb k)[1 + p.rowBytes]? = some 0 := by
  simp [writeLine, Nat.add_comm 1 p.rowBytes]

end

/-! ### What each transport command does (R213, R218, R222) -/

theorem exec_write (s : State) :
    exec .write s = .next (s.startTransaction .write (writeBytes s.params s.fb s.vcom)) := rfl

theorem exec_clearScreen (s : State) :
    exec .clearScreen s = .next (s.startTransaction .clearScreen (clearBytes s.params s.vcom)) := rfl

section
variable {s : State}

theorem exec_toggleVcom_transmits (h : s.skip = false) :
    exec .toggleVcom s = .next (s.flipVcom.startTransaction .toggleVcom (toggleBytes s.params (!s.vcom))) := by
  rw [exec, execToggleVcom, if_neg (Bool.eq_false_iff.1 h), State.flipVcom_vcom]

theorem exec_toggleVcom_skipped (h : s.skip = true) : exec .toggleVcom s = .next { s.flipVcom with skip := false } := by
  rw [exec, execToggleVcom, if_pos h]

end

theorem controlByte_not (p : Params) (code : Byte) (vcom : Bool) :
    controlByte p code (!vcom) = code ^^^ (if vcom then 0 else p.vcomFlag) := by
  cases vcom <;> rfl

/-! ### One step of a transaction (R225) -/

theorem BusEvent.enabled_iff (e : BusEvent) (s : State) :
    e.enabled s = true ↔ (∀ b, e = .byte b → s.busAccepts = true) ∧ (e = .waitIdle → s.busIdle = true) := by
  cases e <;> simp [BusEvent.enabled]

theorem TransportOp.skipAfter_eq (op : TransportOp) : op.skipAfter = decide (op ≠ .toggleVcom) := by
  cases op <;> rfl

/-- The last event and an event with more to come, as one record. -/
theorem State.advance_eq (op : TransportOp) (e : BusEvent) (rest : List BusEvent) (s : State) :
    s.advance op e rest = { s with
      trace := s.trace ++ [e]
      cs := if e = .csAssert then true else if e = .csDeassert then false else s.cs
      xact := if rest = [] then none else some { op := op, events := rest }
      busy := if rest = [] then false else s.busy
      skip := if rest = [] then decide (op ≠ .toggleVcom) else s.skip } := by
  rw [← s.emit_cs, ← op.skipAfter_eq]
  cases rest <;> rfl

section
variable {s : State} {op : TransportOp} {e : BusEvent} {rest : List BusEvent}

theorem coreStep_enabled (hf : s.fault = false) (hx : s.xact = some { op := op, events := e :: rest })
    (he : e.enabled s = true) : coreStep s = .next (s.advance op e rest) := by
  simp [coreStep, hf, hx, he]

theorem coreStep_waits (hx : s.xact = some { op := op, events := e :: rest }) (he : e.enabled s = false) :
    coreStep s = .next s := by
  simp [coreStep, hx, he]

theorem step_of_empty_schedule (hs : s.schedule = []) : step s = coreStep s := by
  simp only [step, nextStep, hs]

end

/-! ### A whole transaction on a ready bus (R225, R229) -/

/-- The state after a whole transaction: its events in TRACE, the completion action done, and `later` still scheduled. -/
def State.transmitted (op : TransportOp) (bytes : List Byte) (later : List Action) (s : State) : State :=
  { s with
    trace := s.trace ++ transaction bytes, xact := none, busy := false, cs := false, skip := op.skipAfter, schedule := later }

theorem length_transaction (bytes : List Byte) : (transaction bytes).length = bytes.length + 4 := by
  simp [transaction]

theorem Ready.flipVcom {s : State} (ready : Ready s) : Ready s.flipVcom := ready

theorem Ready.transmitted {s : State} (ready : Ready s) (op : TransportOp) (bytes : List Byte) (later : List Action) :
    Ready (s.transmitted op bytes later) := by
  obtain ⟨hf, -, -, ha, hi⟩ := ready
  exact ⟨hf, rfl, rfl, ha, hi⟩

section
variable {s : State} {later : List Action}

/-- A transaction started on a ready bus is out after as many steps as it has events, each scheduled for the core or with
nobody else acting. -/
theorem runFor_startTransaction (ready : Ready s) (op : TransportOp) (bytes : List Byte)
    (hs : s.schedule = List.replicate (transaction bytes).length Action.core ++ later ∨ (s.schedule = [] ∧ later = [])) :
    runFor (transaction bytes).length (s.startTransaction op bytes) = .next (s.transmitted op bytes later) := by
  obtain ⟨hf, -, -, ha, hi⟩ := ready
  rw [runFor_drain later op (transaction bytes) (s.startTransaction op bytes) (transaction_ne_nil bytes) hs hf rfl ha hi,
    csAfter_transaction]
  rfl

theorem act_tick (ready : Ready s) : act .tick s = exec .toggleVcom s := by
  obtain ⟨hf, hb, -, -, -⟩ := ready
  simp [act, tick, hf, hb]

/-- With SKIP clear, a tick followed by the core's steps transmits the new polarity. -/
theorem runFor_tick_transmits (ready : Ready s) (hskip : s.skip = false)
    (hs : s.schedule = .tick :: (List.replicate 6 Action.core ++ later)) :
    runFor 7 s = .next (s.flipVcom.transmitted .toggleVcom (toggleBytes s.params (!s.vcom)) later) := by
  set rest := List.replicate 6 Action.core ++ later
  have starts : step s = .next ((s.withSchedule rest).flipVcom.startTransaction .toggleVcom
      (toggleBytes s.params (!s.vcom))) := by
    rw [step_of_schedule hs, act_tick (s := s.withSchedule rest) ready,
      exec_toggleVcom_transmits (s := s.withSchedule rest) hskip]
    rfl
  rw [runFor_succ 6 starts]
  exact runFor_startTransaction (s := (s.withSchedule rest).flipVcom) ready .toggleVcom _ (.inl rfl)

/-- With SKIP set, a tick flips VCOM, clears SKIP and sends nothing. -/
theorem step_tick_skipped (ready : Ready s) (hskip : s.skip = true) (hs : s.schedule = .tick :: later) :
    step s = .next { s.flipVcom with skip := false, schedule := later } := by
  rw [step_of_schedule hs, act_tick (s := s.withSchedule later) ready, exec_toggleVcom_skipped (s := s.withSchedule later) hskip]
  rfl

/-- A WRITE or CLEAR_SCREEN submitted, drained and followed by a tick: the refresh alone is transmitted (R223). -/
theorem runFor_refresh_tick {w : List Word} {i : Instr} {op : TransportOp} {bytes : List Byte} {n : Nat} (ready : Ready s)
    (decoded : decode w = .ok i) (refresh : op.skipAfter = true) (count : n = (transaction bytes).length)
    (starts : ∀ rest, exec i (s.withSchedule rest) = .next ((s.withSchedule rest).startTransaction op bytes))
    (hs : s.schedule = .submit w :: (List.replicate n Action.core ++ [.tick])) :
    runFor (n + 2) s = .next { (s.transmitted op bytes []).flipVcom with skip := false } := by
  subst count
  have ⟨hf, hb, _, _, _⟩ := ready
  set rest := List.replicate (transaction bytes).length Action.core ++ [Action.tick]
  have start : step s = .next ((s.withSchedule rest).startTransaction op bytes) := by
    rw [step_of_schedule hs, submit_of_decode (s := s.withSchedule rest) decoded hf hb, starts]
  have drain := runFor_startTransaction (s := s.withSchedule rest) ready op bytes (.inl rfl)
  rw [runFor_succ _ start, runFor_add 1 drain]
  exact runFor_succ 0 (step_tick_skipped (ready.transmitted op bytes [.tick]) refresh rfl)

end

/-! ### The obligations -/

/-- Settles O46: each byte of the WRITE by its place in its line. -/
theorem writeTransmitsTheFrame : Obligations.WriteTransmitsTheFrame := by
  intro s
  refine ⟨writeBytes s.params s.fb s.vcom, exec_write s, writeBytes_length .., writeBytes_control .., fun k hk => ?_,
    writeBytes_last ..⟩
  intro base row
  have line (j : Nat) (hj : j < s.params.rowBytes + 2) := writeBytes_line s.params s.fb s.vcom k j hk hj
  have hrow : scanRow s.params k = row := scanRow_eq_ite s.params k
  refine ⟨(line 0 (by omega)).trans (writeLine_address ..), fun j hj => ?_, ?_⟩
  · rw [Nat.add_assoc, line (1 + j) (by omega), writeLine_data _ _ _ hj, hrow, dataByte]
  · rw [Nat.add_assoc, line (1 + s.params.rowBytes) (by omega), writeLine_trailer]

/-- Settles O49: the head event is enabled exactly when the bus allows it. -/
theorem transactionStepEmitsOneEvent : Obligations.TransactionStepEmitsOneEvent := by
  intro s op e rest hs hf hx allowed
  rw [step_of_empty_schedule hs]
  have enabled : e.enabled s = true ↔ allowed := e.enabled_iff s
  refine ⟨fun h => ?_, fun h => coreStep_waits hx (Bool.eq_false_iff.2 (mt enabled.1 h))⟩
  rw [coreStep_enabled hf hx (enabled.2 h), State.advance_eq]

/-- Settles O50: a command that leaves a transaction has started it, and the ready bus drains it. -/
theorem transportCommandsCompleteOnAReadyBus : Obligations.TransportCommandsCompleteOnAReadyBus := by
  intro i s t x hd ready hs _ run hx
  obtain ⟨hi, op, bytes, -, hop, rfl⟩ | ⟨rfl, -, bytes, -, rfl⟩ | ⟨-, -, rfl⟩ := exec_transport hd run
  · cases hx
    rw [runFor_startTransaction ready op bytes (.inr ⟨hs, rfl⟩), State.transmitted, op.skipAfter_eq, decide_eq_true hop,
      decide_eq_true hi, ← hs]
    rfl
  · cases hx
    rw [runFor_startTransaction ready.flipVcom .toggleVcom bytes (.inr ⟨hs, rfl⟩), State.transmitted, ← hs]
    rfl
  · obtain ⟨-, -, idle, -, -⟩ := ready
    cases idle.symm.trans hx

/-- Settles O52: a refresh sets SKIP, which the tick clears, and a transmitted toggle leaves it clear for the next. -/
theorem aRefreshSilencesTheNextToggle : Obligations.ARefreshSilencesTheNextToggle := by
  unfold Obligations.ARefreshSilencesTheNextToggle
  intro silent
  have silences {s : State} {op : TransportOp} {bytes : List Byte} {n : Nat} (hf : s.fault = false)
      (count : n = (transaction bytes).length)
      (run : runFor (n + 2) s = .next { (s.transmitted op bytes []).flipVcom with skip := false }) : silent s n :=
    ⟨_, run, by rw [count]; exact List.length_append, rfl, rfl, rfl, hf⟩
  refine ⟨fun s n ready _ hn hs => ?_, fun s ready _ hs => ?_, fun s ready _ hskip hs => ?_⟩
  · have count : n = (transaction (writeBytes s.params s.fb s.vcom)).length := by
      rw [length_transaction, writeBytes_length, hn]
    exact silences ready.1 count
      (runFor_refresh_tick ready (i := .write) (op := .write) (by decide) rfl count (fun _ => rfl) hs)
  · exact silences ready.1 (bytes := clearBytes s.params s.vcom) rfl
      (runFor_refresh_tick ready (i := .clearScreen) (op := .clearScreen) (by decide) rfl rfl (fun _ => rfl) hs)
  · have first := runFor_tick_transmits ready hskip hs
    set t := s.flipVcom.transmitted .toggleVcom (toggleBytes s.params (!s.vcom))
      (Action.tick :: List.replicate 6 Action.core)
    have second := runFor_tick_transmits (s := t) (later := []) (ready.flipVcom.transmitted _ _ _) rfl
      (by rw [List.append_nil]; rfl)
    exact ⟨_, _, _, (runFor_add 7 first).trans second, Bool.not_not s.vcom, rfl, rfl, ready.1, rfl⟩

/-- Settles O47: CLEAR_SCREEN only starts its transaction. -/
theorem clearScreenLeavesTheFramebuffer : Obligations.ClearScreenLeavesTheFramebuffer := exec_clearScreen

/-- Settles O48: the two cases of SKIP, the control byte with the polarity after the flip. -/
theorem toggleVcomFlipsAndTransmitsUnlessSkipped : Obligations.ToggleVcomFlipsAndTransmitsUnlessSkipped := by
  refine fun s => ⟨fun h => ?_, exec_toggleVcom_skipped⟩
  rw [exec_toggleVcom_transmits h, toggleBytes, controlByte_not]
  rfl

/-- Settles O53: the reversal of each bit. -/
theorem reverseEightReversesTheBits : Obligations.ReverseEightReversesTheBits := fun v =>
  ⟨reverse8_getLsbD v, reverse8_reverse8 v⟩

end Sys2Proof.Machine
end

section
/-! The fault model and the event rules (`60_exceptions.md`): the halted core, the port and the tick while a transaction is in
flight, what fault entry changes, and which out-of-bounds pixel is reported. -/

namespace Sys2Proof.Machine

/-! ### The halted core and reset (R255, R257, R280) -/

section
variable {s t : State}

theorem coreStep_halted (hf : s.fault = true) : coreStep s = .next s := if_pos hf

theorem SameCore.of_withSchedule {rest : List Action} (h : SameCore (s.withSchedule rest) t) : SameCore s t := h

end

/-- Settles O10: an empty schedule leaves the core's own turn, and otherwise the head action meets a halted core. -/
theorem onlyResetLeavesTheHaltedState : Obligations.OnlyResetLeavesTheHaltedState := by
  constructor
  · intro s hf noReset
    cases hs : s.schedule with
    | nil => exact ⟨s, (step_of_empty_schedule hs).trans (coreStep_halted hf), .refl s⟩
    | cons a rest =>
      have ha : a ≠ .reset := fun isReset => noReset (by rw [hs, isReset]; rfl)
      obtain ⟨t, answer, same⟩ := act_halted (s := s.withSchedule rest) hf ha
      exact ⟨t, (step_of_schedule hs).trans answer, same.of_withSchedule⟩
  · intro s hs
    obtain ⟨rest, hs⟩ := List.head?_eq_some_iff.1 hs
    exact ⟨resetCore (s.withSchedule rest), step_of_schedule hs, resetCore_fault _⟩

/-! ### The port and the tick input, one case at a time (R70, R226, R253, R254) -/

section
variable {s : State}

/-- While busy the packet is not looked at (R254). -/
theorem submit_busy (hf : s.fault = false) (hb : s.busy = true) (w : List Word) :
    act (.submit w) s = .next (s.raise (overrun 0 s)) := by
  rw [act, submit, if_neg (Bool.eq_false_iff.1 hf), if_pos hb]

theorem tick_halted (hf : s.fault = true) : act .tick s = .next s := if_pos hf

theorem tick_busy (hf : s.fault = false) (hb : s.busy = true) : act .tick s = .next (s.raise (overlap s)) := by
  rw [act, tick, if_neg (Bool.eq_false_iff.1 hf), if_pos hb]

theorem tick_idle (hf : s.fault = false) (hb : s.busy = false) : act .tick s = exec .toggleVcom s := by
  rw [act, tick, if_neg (Bool.eq_false_iff.1 hf), if_neg (Bool.eq_false_iff.1 hb)]

/-- What TRANSPORT_OVERLAP reports while `x` is in flight (R253). -/
theorem faultEntered_overlap {x : Xact} (hx : s.xact = some x) :
    FaultEntered 5 (0x0000#16 ++ xactNumber x.op) s (s.raise (overlap s)) := by
  rw [← xactField_eq hx]
  exact faultEntered_raise (overlap s) s

end

/-- Settles O11: the port and the window raise, and both reads answer, without looking at what was sent. -/
theorem busyCoreRefusesPacketsAndWrites : Obligations.BusyCoreRefusesPacketsAndWrites := by
  intro s x hf hb hx
  exact ⟨fun w => ⟨_, submit_busy hf hb w, faultEntered_overrun hx 0⟩,
    fun off v lo hi => ⟨_, act_writeFB_busy hf ⟨lo, hi⟩ hb v, faultEntered_overrun hx 1⟩,
    fun off lo hi => act_readFB_inWindow ⟨lo, hi⟩, fun i => rfl⟩

theorem decode_toggleVcom : decode [0x12000000, 0, 0] = .ok .toggleVcom := by decide

theorem decode_write : decode [0x10000000, 0, 0] = .ok .write := by decide

/-- Settles O12, by the three cases of the tick. -/
theorem tickTogglesOverlapsOrIsIgnored : Obligations.TickTogglesOverlapsOrIsIgnored := by
  intro s
  refine ⟨tick_halted, fun x hf hb hx => ⟨_, tick_busy hf hb, faultEntered_overlap hx, s.raise_vcom _⟩, fun hf hb => ?_⟩
  rw [tick_idle hf hb, submit_of_decode decode_toggleVcom hf hb]

/-! ### A tick and a packet in turn (R259) -/

section
variable {s : State} {rest : List Action}

theorem step_tick_idle (hs : s.schedule = .tick :: rest) (hf : s.fault = false) (hb : s.busy = false) :
    step s = exec .toggleVcom (s.withSchedule rest) :=
  (step_of_schedule hs).trans (tick_idle (s := s.withSchedule rest) hf hb)

theorem step_write_idle (hs : s.schedule = .submit [0x10000000, 0, 0] :: rest) (hf : s.fault = false)
    (hb : s.busy = false) :
    step s = .next ((s.withSchedule rest).startTransaction .write (writeBytes s.params s.fb s.vcom)) :=
  (step_of_schedule hs).trans (submit_of_decode (s := s.withSchedule rest) decode_write hf hb)

theorem runFor_two {t u : State} (first : step s = .next t) (second : step t = .next u) : runFor 2 s = .next u := by
  rw [runFor_succ 1 first, runFor_succ 0 second, runFor_zero]

/-- A packet offered after a step that started a transaction is an overrun. -/
theorem runFor_two_overrun {u : State} {w : List Word} {x : Xact} (first : step s = .next u)
    (hs : u.schedule = .submit w :: rest) (hf : u.fault = false) (hb : u.busy = true) (hx : u.xact = some x) :
    ∃ t, runFor 2 s = .next t ∧ FaultEntered 6 (0x0000#16 ++ xactNumber x.op) (u.withSchedule rest) t :=
  ⟨_, runFor_two first ((step_of_schedule hs).trans (submit_busy (s := u.withSchedule rest) hf hb w)),
    faultEntered_overrun (s := u.withSchedule rest) hx 0⟩

/-- A tick offered after a step that started a transaction is an overlap. -/
theorem runFor_two_overlap {u : State} {x : Xact} (first : step s = .next u)
    (hs : u.schedule = .tick :: rest) (hf : u.fault = false) (hb : u.busy = true) (hx : u.xact = some x) :
    ∃ t, runFor 2 s = .next t ∧ FaultEntered 5 (0x0000#16 ++ xactNumber x.op) (u.withSchedule rest) t :=
  ⟨_, runFor_two first ((step_of_schedule hs).trans (tick_busy (s := u.withSchedule rest) hf hb)),
    faultEntered_overlap (s := u.withSchedule rest) hx⟩

end

/-- Settles O16: the first of the two to start a transaction makes the other an overrun or an overlap. -/
theorem tickAndWriteAdmitBothOrders : Obligations.TickAndWriteAdmitBothOrders := by
  intro s rest hf hb
  have toggling : 0x0000#16 ++ xactNumber .toggleVcom = 0x00000012#32 := by decide
  have writing : 0x0000#16 ++ xactNumber .write = 0x00000010#32 := by decide
  refine ⟨fun hskip hs => ?_, fun hskip hs => ?_, fun hs => ?_⟩
  · have toggled := (step_tick_idle hs hf hb).trans (exec_toggleVcom_transmits hskip)
    obtain ⟨t, run, rfl⟩ := runFor_two_overrun toggled rfl hf rfl rfl
    exact ⟨_, run, rfl, rfl, rfl, toggling⟩
  · have skipped := (step_tick_idle hs hf hb).trans (exec_toggleVcom_skipped hskip)
    exact ⟨_, _, runFor_two skipped (step_write_idle rfl hf hb), rfl, hf, rfl, rfl, rfl⟩
  · have started := step_write_idle hs hf hb
    obtain ⟨t, run, rfl⟩ := runFor_two_overlap started rfl hf rfl rfl
    exact ⟨_, run, rfl, rfl, rfl, writing⟩

/-! ### What a step that takes a fault changes (R255, R256) -/

theorem FaultKind.code_range (k : FaultKind) : 1 ≤ k.code.toNat ∧ k.code.toNat ≤ 7 := by
  cases k <;> decide

/-- `t` is `s` after action `a` entered the fault `r`. Beyond fault entry, at most the framebuffer and the cursor (and the model's
own count of draws) differ: both only after PIXEL_OUT_OF_BOUNDS, and the cursor only where `a` submits a text command. -/
def FaultTaken (a : Action) (r : Raise) (s t : State) : Prop :=
  ∃ fb draws col row, t = { s.raise r with fb := fb, draws := draws, col := col, row := row } ∧
    (r.kind ≠ .pixelOutOfBounds → fb = s.fb ∧ col = s.col ∧ row = s.row) ∧
    ((col = s.col ∧ row = s.row) ∨ submits textCommand a = true)

section
variable {a : Action} {s t : State}

theorem SameCore.fault (h : SameCore s t) : t.fault = s.fault := by
  rw [show t = _ from h]

theorem coreStep_fault (h : coreStep s = .next t) : t.fault = s.fault := by
  obtain rfl | ⟨op, e, rest, -, -, -, ⟨-, rfl⟩ | ⟨-, rfl⟩⟩ := coreStep_cases h <;> rfl

theorem DrawEnds.faultTaken {w : List Word} {i : Instr} (h : DrawEnds i s t) (decoded : decode w = .ok i)
    (running : s.fault = false) (halted : t.fault = true) : ∃ r, FaultTaken (.submit w) r s t := by
  cases h with
  | done => cases running.symm.trans halted
  | faulted r fb draws col row _ keep cursor =>
    refine ⟨r, fb, draws, col, row, rfl, keep, ?_⟩
    cases text : textCommand i with
    | false => exact .inl (cursor text)
    | true => exact .inr (by rw [submits, decoded]; exact text)

/-- Only the port, the window, the tick input and a drawing command raise faults. -/
theorem ActEnds.faultTaken (h : ActEnds a s t) (running : s.fault = false) (halted : t.fault = true) :
    ∃ r, FaultTaken a r s t := by
  cases h with
  | port r => exact ⟨r, s.fb, s.draws, s.col, s.row, rfl, fun _ => ⟨rfl, rfl, rfl⟩, .inl ⟨rfl, rfl⟩⟩
  | drawing _ _ _ ha decoded _ _ _ ends =>
    rw [ha]
    exact ends.faultTaken decoded running halted
  | same _ _ same => cases running.symm.trans (same.fault.symm.trans halted)
  | core _ _ own => cases running.symm.trans ((coreStep_fault own).symm.trans halted)
  | window | refresh | toggle | skipped => cases running.symm.trans halted
  | reset => cases halted

end

/-- Settles O13: the core's own step raises nothing, and an action that takes a fault enters it. -/
theorem aFaultChangesOnlyWhatFaultEntryChanges : Obligations.AFaultChangesOnlyWhatFaultEntryChanges := by
  intro s t h running halted
  obtain ⟨-, own⟩ | ⟨a, rest, hs, ends⟩ := step_cases h
  · cases running.symm.trans ((coreStep_fault own).symm.trans halted)
  · obtain ⟨r, fb, draws, col, row, rfl, keep, cursor⟩ := ends.faultTaken running halted
    refine ⟨⟨rfl, rfl, rfl, rfl, rfl, rfl, rfl⟩, r.kind.code_range, fun otherCode => keep fun pixel => otherCode ?_,
      cursor.imp_right fun text => ⟨a, congrArg List.head? hs, text⟩⟩
    show r.kind.code = 2
    rw [pixel]
    rfl

/-! ### The first out-of-bounds pixel (R251) -/

section
variable {p : Params} {i : Instr} {s : State} {q : Int × Int}

theorem not_firstOutside_nil : ¬ FirstOutside p [] q := by
  rintro ⟨before, after, order, -⟩
  simp at order

/-- An order that holds no point where operand validation raises first (R258). -/
theorem firstOutside_ite_nil {P : Prop} [Decidable P] {order : List (Int × Int)}
    (h : FirstOutside p (if P then order else []) q) : P ∧ FirstOutside p order q := by
  split at h
  next valid => exact ⟨valid, h⟩
  next => exact absurd h not_firstOutside_nil

theorem paintAll_singleton (p : Params) (c : Colour) (x y : Int) (fb : Memory) :
    paintAll p c [(x, y)] fb = paint p c x y fb := by
  rw [paintAll]
  cases paint p c x y fb <;> rfl

/-- A drawing that raises at a pixel. -/
theorem pixelFault_of_drawing {res : Except Raise Memory} {x y : Int} (run : exec i s = .next (s.finishDrawing res))
    (raised : res = .error (outOfBounds x y)) : ∃ t, exec i s = .next t ∧ PixelFault x y s t := by
  rw [raised] at run
  exact ⟨_, run, pixelFault_raiseDrawing x y s⟩

theorem textPixelFault_of_text {res : Except Raise Canvas} {x y : Int} (run : exec i s = .next (s.finishText res))
    (raised : res = .error (outOfBounds x y)) : ∃ t, exec i s = .next t ∧ TextPixelFault x y s t := by
  rw [raised] at run
  exact ⟨_, run, textPixelFault_raiseText x y s⟩

theorem exec_setPixel (c : Colour) (x y : Half) : exec (.setPixel c x y) s = .next (s.finishDrawing
    (paintAll s.params c [(sext16 x, sext16 y)] s.fb)) := by
  rw [paintAll_singleton]
  rfl

/-- Every painting command reports the first out-of-bounds point of its paint order. -/
theorem exec_firstOutside (hwf : s.fb.wf s.params.fbBytes) (first : FirstOutside s.params (paintOrder s i) q) :
    ∃ t, exec i s = .next t ∧ if textCommand i then TextPixelFault q.1 q.2 s t else PixelFault q.1 q.2 s t := by
  cases i with
  | setPixel c x y => exact pixelFault_of_drawing (exec_setPixel c x y) (paintAll_error first)
  | hrun c x1 x2 t y => exact pixelFault_of_drawing (exec_hrun x1 x2 t y) (rowSpans_error first)
  | vrun c x y1 y2 => exact pixelFault_of_drawing (exec_vrun x y1 y2) (verticalRun_error first)
  | fillRect c xMin yMin xMax yMax =>
    obtain ⟨valid, first⟩ := firstOutside_ite_nil first
    refine pixelFault_of_drawing (exec_fillRect xMin yMin xMax yMax) ?_
    rw [filledRect, if_pos valid]
    exact rowSpans_error first
  | drawRect c xMin yMin xMax yMax =>
    obtain ⟨valid, first⟩ := firstOutside_ite_nil first
    exact pixelFault_of_drawing (exec_drawRect xMin yMin xMax yMax) (outlinedRect_error hwf valid first)
  | line x1 y1 x2 y2 => exact pixelFault_of_drawing (exec_line x1 y1 x2 y2 s) (paintAll_error first)
  | circle cx cy r =>
    refine pixelFault_of_drawing (exec_circle cx cy r) ?_
    rw [paintOrder] at first
    split at first
    next => exact absurd first not_firstOutside_nil
    next positive =>
      rw [circleOutline, if_neg positive, circlePoints_eq]
      exact paintAll_error first
  | drawChar font ch =>
    rw [paintOrder, textOrder, textOrder, List.append_nil] at first
    exact textPixelFault_of_text exec_drawChar (drawGlyph_error first)
  | drawString font text => exact textPixelFault_of_text exec_drawString (drawChars_error first hwf)
  | fill | setCursor | write | clearScreen | toggleVcom => exact absurd first not_firstOutside_nil

end

/-- Settles O14: the first point of the paint order out of bounds, and a negative radius from its fault entry. -/
theorem theFirstOutOfBoundsPixelIsReported : Obligations.TheFirstOutOfBoundsPixelIsReported := by
  refine ⟨fun i s q => exec_firstOutside, fun cx cy r s hr => ?_⟩
  obtain ⟨t, run, entered⟩ := invalidOperandsRaiseBeforePainting.2 cx cy r s hr
  rw [FaultEntered] at entered
  exact ⟨t, run, by rw [entered], by rw [entered], by rw [entered]⟩

end Sys2Proof.Machine
end


section
/-! Reset, stalls and the ends of a run (`70_reset_and_hazards.md`): reset gives a state of R281, a core that cannot go on waits
for ever, and a consistent state always has a next step. -/

namespace Sys2Proof.Machine

/-! ### Reset (R280, R281) -/

theorem resetState_resetCore (s : State) : ResetState (resetCore s) :=
  ⟨⟨rfl, rfl, rfl, rfl⟩, rfl, rfl, rfl, rfl, rfl, rfl, Memory.wf_draw s.params s.draws⟩

theorem resetState_reset : ResetState State.reset :=
  ⟨⟨rfl, rfl, rfl, rfl⟩, rfl, rfl, rfl, rfl, rfl, rfl, Memory.wf_nil _⟩

/-- Settles O57: the reset action sets the fields of R281 and draws a canonical framebuffer. -/
theorem resetGivesTheResetState : Obligations.ResetGivesTheResetState :=
  ⟨fun s => ⟨resetCore s, rfl, resetState_resetCore s, resetCore_params s⟩, resetState_reset⟩

/-! ### Stalls (R225, R291) -/

theorem runFor_of_fixed {s : State} (fixed : step s = .next s) (n : Nat) : runFor n s = .next s := by
  induction n with
  | zero => exact runFor_zero s
  | succ n ih => rw [runFor_succ n fixed, ih]

/-- The bus holds back a byte while it accepts none, and the idle wait while it is not idle. -/
theorem BusEvent.enabled_eq_false_of_stalled {e : BusEvent} {s : State}
    (stalled : (∃ b, e = .byte b) ∧ s.busAccepts = false ∨ e = .waitIdle ∧ s.busIdle = false) : e.enabled s = false := by
  obtain ⟨⟨b, rfl⟩, accepts⟩ | ⟨rfl, idle⟩ := stalled
  · exact accepts
  · exact idle

/-- Settles O51: with nothing scheduled, a core whose next event is held back steps to the state it is in. -/
theorem aStalledBusHangsTheCore : Obligations.AStalledBusHangsTheCore := by
  intro s ⟨op, events⟩ e rest n hs _ _ hx hevents stalled
  obtain rfl : events = e :: rest := hevents
  have waits : step s = .next s :=
    (step_of_empty_schedule hs).trans (coreStep_waits hx (BusEvent.enabled_eq_false_of_stalled stalled))
  exact runFor_of_fixed waits n

/-! ### A next step -/

/-- A transaction in flight has an event still to come. -/
theorem TraceOk.events_ne_nil {s : State} {x : Xact} (h : TraceOk s) (hx : s.xact = some x) : x.events ≠ [] := by
  obtain ⟨whole, done, rest, op, bytes, -, -, -, -, hrest, -, inFlight, -⟩ := h
  rw [inFlight x hx]
  exact hrest

/-- The port answers every packet: halted, busy, and idle with a packet that is illegal or legal. -/
theorem act_submit_next (w : List Word) (s : State) : ∃ t, act (.submit w) s = .next t := by
  cases hf : s.fault with
  | true =>
    obtain ⟨t, answer, -⟩ := act_halted (a := .submit w) hf nofun
    exact ⟨t, answer⟩
  | false =>
    cases hb : s.busy with
    | true => exact ⟨_, submit_busy hf hb w⟩
    | false =>
      cases hd : decode w with
      | error e => exact ⟨_, submit_of_illegal hd hf hb⟩
      | ok i => rw [submit_of_decode hd hf hb]; exact exec_next i s

/-- The tick is ignored, overlaps or toggles (R226). -/
theorem act_tick_next (s : State) : ∃ t, act .tick s = .next t := by
  cases hf : s.fault with
  | true => exact ⟨s, tick_halted hf⟩
  | false =>
    cases hb : s.busy with
    | true => exact ⟨_, tick_busy hf hb⟩
    | false => rw [tick_idle hf hb]; exact exec_next .toggleVcom s

section
variable {s : State}

theorem act_next (more : ∀ x, s.xact = some x → x.events ≠ []) (a : Action) : ∃ t, act a s = .next t := by
  cases a with
  | submit w => exact act_submit_next w s
  | core => exact coreStep_next more
  | tick => exact act_tick_next s
  | readReg | readFB | writeFB | bus | reset => exact ⟨_, rfl⟩

theorem step_next (more : ∀ x, s.xact = some x → x.events ≠ []) : ∃ t, step s = .next t := by
  cases hs : s.schedule with
  | nil => rw [step_of_empty_schedule hs]; exact coreStep_next more
  | cons a rest => rw [step_of_schedule hs]; exact act_next (s := s.withSchedule rest) more a

end

/-- Settles O60: the invariant leaves no transaction without events, and without BUSY and FAULT none is open. -/
theorem consistentStatesAlwaysStep : Obligations.ConsistentStatesAlwaysStep := by
  constructor
  · exact fun s inv => step_next fun x => inv.trace.events_ne_nil
  · intro s inv ⟨hf, hb, _⟩
    have idle : s.xact = none := inv.xact_eq_none hb
    obtain ⟨-, hcs⟩ := inv.trace.between hf idle
    exact ⟨idle, hcs⟩

end Sys2Proof.Machine
end
